-- ==== Sys2Proof/Word.lean ====
section
/-! DEFINITION. The two word types of the core: an 8-bit byte (every register but PC, every access) and a
16-bit word (PC and every address). 00_scope.md R8. -/

namespace Sys2Proof

/-- One byte: `A`, `X`, `Y`, `SP`, `P`, and the one width of every bus access (00_scope.md R8, R13). -/
abbrev Byte := BitVec 8

/-- One 16-bit address or program counter (00_scope.md R8). -/
abbrev Word := BitVec 16

end Sys2Proof
end

