-- ==== Sys2Proof/Config.lean ====
section
/-! DEFINITION. What an implementation fixes (the parameters of 00_scope.md R9), the plain data of memory and of
the two external devices, and what the spec leaves to the devices: the register-read free value, and how they save
themselves. -/

namespace Sys2Proof

/-- A byte-addressed store as plain data: (address, byte) pairs in strictly rising address order, none holding
the byte an unlisted address reads as. Its operations stand in Machine/Memory.lean. -/
abbrev Memory := List Host.Cell

/-- Nametable mirroring, the four values `mirroring_type()` can have (21_mappers.md R160). -/
inductive Mirroring where
  | horizontal | vertical | singleScreenLower | singleScreenUpper
  deriving DecidableEq, Repr, Inhabited

/-- `INVALID_POLICY` (00_scope.md R9, 42_control.md R460). -/
inductive InvalidPolicy where
  | fault | nopLog
  deriving DecidableEq, Repr, Inhabited

/-- `INVALID_NOP_PC_ADVANCE`, one or two bytes (00_scope.md R9). -/
inductive NopAdvance where
  | one | two
  deriving DecidableEq, Repr, Inhabited

/-- `IRQ_MASK_SAMPLE` (00_scope.md R9, 60_exceptions.md R474). -/
inductive IrqMaskSample where
  | stepStart | afterNmi
  deriving DecidableEq, Repr, Inhabited

/-- The parameters of 00_scope.md R9. State carries them unchanged, so every claim quantifies over them (log 2). Their
bounds (`PPU_RATIO` at least 1, `RAM_INIT` of 65 536 bytes) are `ParamsOk`, a part of the invariant. -/
structure Params where
  /-- `PPU_RATIO`, at least 1 (`ParamsOk`). -/
  ppuRatio : Nat
  invalidPolicy : InvalidPolicy
  invalidNopAdvance : NopAdvance
  /-- `INT_ENTRY_CYCLES`. -/
  intEntryCycles : Nat
  irqMaskSample : IrqMaskSample
  /-- `RAM_INIT`, the 65 536 bytes power-on puts into the byte array (`ParamsOk`). -/
  ramInit : Memory
  /-- `SAVE_STATE_VERSION`. -/
  saveStateVersion : BitVec 32
  dummyMirroring : Mirroring
  /-- `FME7_MAPPER_ID`. -/
  fme7MapperId : Byte
  deriving DecidableEq, Repr

/-- The parameter values State.reset uses: the spec's defaults where R9 gives one, else the values of
95_test_vectors.md section 0. PRESUMED (the family's 3, 7 and 69) and DESIGN CHOICE (the others); unsafe; log 2. -/
def Params.default : Params where
  ppuRatio := 3
  invalidPolicy := .fault
  invalidNopAdvance := .one
  intEntryCycles := 7
  irqMaskSample := .stepStart
  ramInit := []
  saveStateVersion := 1
  dummyMirroring := .horizontal
  fme7MapperId := 69

/-- A call on the PPU's interface or an answer the core gave it, stamped with the number of PPU clocks taken
before it (20_memory.md R96, R98: a register store "is a recorded event"). -/
inductive PpuEvent where
  | read (time : Nat) (index : BitVec 3) (value : Byte)
  | write (time : Nat) (index : BitVec 3) (value : Byte)
  | chrRead (time : Nat) (addr : BitVec 13) (value : Byte)
  | mirroringRead (time : Nat) (hasType : Bool) (type : Mirroring)
  deriving DecidableEq, Repr

/-- The PPU as the core sees it (10_state.md R47, R52; 20_memory.md R97). Its own state is opaque: what determines
it is the calls it received, kept newest first (DEDUCED, log 5). -/
structure Ppu where
  nmiFlag : Bool
  irqFlag : Bool
  /-- `PPU.frame`. The spec gives neither its width nor its step (20_memory.md R97, R98): an unbounded natural number
  that advances by 1 and never wraps. DESIGN CHOICE, unsafe; log 5. -/
  frame : Nat
  clocks : Nat
  events : List PpuEvent
  deriving DecidableEq, Repr

/-- A call on the APU's interface (20_memory.md R99, R101), stamped with the APU clocks taken before it. -/
inductive ApuEvent where
  | read (time : Nat) (index : BitVec 5) (value : Byte)
  | write (time : Nat) (index : BitVec 5) (value : Byte)
  | sample (time : Nat) (addr : Word) (value : Byte)
  deriving DecidableEq, Repr

/-- The APU as the core sees it (10_state.md R47, R52), rendered as the PPU is (log 5). -/
structure Apu where
  irqFlag : Bool
  clocks : Nat
  events : List ApuEvent
  deriving DecidableEq, Repr

/-- One thing the PPU does inside one of its clocks (20_memory.md R98). A flag put to 0 stands for what an access of the
PPU's own registers did to it (R96), which the core can first see at the next poll (R118; log 6). -/
inductive PpuAction where
  | putNmi (b : Bool)
  | putIrq (b : Bool)
  | driveIrqCounter
  | writeChr (addr : BitVec 13) (value : Byte)
  | readChr (addr : BitVec 13)
  | readMirroring
  /-- `PPU.frame` advances, by 1 (DESIGN CHOICE, log 5). -/
  | advanceFrame
  deriving DecidableEq, Repr

/-- What the APU does at one of its clocks: the value it gives its IRQ flag, if it does (20_memory.md R100; a 0 as in
`PpuAction`), and whether it then requests a sample byte (R101). -/
structure ApuTick where
  putIrq : Option Bool
  sample : Option Word
  deriving DecidableEq, Repr

/-- The devices' side of the coming steps, as queues the step reads (93_implementation_defined.md I3, I4, I5;
log 6, log 7): register-read results, and what each coming clock does. The model's own field. -/
structure Inputs where
  ppuReads : List Byte
  apuReads : List Byte
  ppuClocks : List (List PpuAction)
  apuClocks : List ApuTick
  /-- The number of register reads answered by a free value so far. -/
  freeReads : Nat
  deriving DecidableEq, Repr

/-- FREE VALUE: what the n-th device register read beyond its queue returns. 20_memory.md R96: "an input of the
step (a draw), constrained by nothing in this spec". Log 6. -/
opaque Config.freeRead : Nat → Byte

/-- How the external devices save themselves: the blob each produces and what it restores from one, or none where it
rejects it (80_host_and_savestate.md R575, R586). What the blobs hold is the devices' own, so snapshot and restore
take any codec as an argument, and claims quantify over it (log 11). A codec has what the spec requires of the devices:
a blob's length is a u32 (R578, R583), and a device takes its own blob back with its interrupt flags and its frame
counter as they were (R575, R588; 92_eei_decisions.md D47). -/
structure DeviceCodec where
  ppuBlob : Ppu → List Byte
  ppuOfBlob : List Byte → Option Ppu
  apuBlob : Apu → List Byte
  apuOfBlob : List Byte → Option Apu
  /-- How many values the device's frame counter has: the spec gives it no width (log 5), and no bounded blob holds every
  value of the model's unbounded counter. -/
  frameValues : Nat
  ppuBlob_length : ∀ d, (ppuBlob d).length < 2 ^ 32
  apuBlob_length : ∀ d, (apuBlob d).length < 2 ^ 32
  ppu_back : ∀ d, ∃ e, ppuOfBlob (ppuBlob d) = some e ∧ e.nmiFlag = d.nmiFlag ∧ e.irqFlag = d.irqFlag ∧
    (d.frame < frameValues → e.frame = d.frame)
  apu_back : ∀ d, ∃ e, apuOfBlob (apuBlob d) = some e ∧ e.irqFlag = d.irqFlag

end Sys2Proof
end

