-- ==== Sys2Proof/Machine/State.lean ====
section
/-! DEFINITION. The state of the core as plain data: 10_state.md's tuple, the session's constants (cartridge,
parameters), the devices' input queues, and the state right after power-on. -/

namespace Sys2Proof.Machine

/-- Why a step ends in a fault. -/
inductive Fault where
  /-- Raised by the INVALID meaning under `INVALID_POLICY = Fault`: the opcode byte and its address
  (60_exceptions.md R478, 42_control.md R460). The spec's own fault; safe. -/
  | invalidOpcode (opcode : Byte) (pc : Word)
  deriving DecidableEq, Repr

/-- Why a step is refused. -/
inductive Refusal where
  /-- Raised by an arm of exec whose instruction has no meaning yet; no arm does. Safe. -/
  | notModelled (mnemonic : String)
  /-- Raised by step before power-on: "It is refused (no move) when `powered = 0`" (80_host_and_savestate.md R561).
  The spec's own refusal; safe. -/
  | notPowered
  /-- Raised by step when a fault is set: "a state with a fault set has no further step" (10_state.md R54). The spec's
  own refusal; safe. -/
  | faultSet
  deriving DecidableEq, Repr

/-- One controller port (10_state.md R49); `cursor` is the spec's `current_button`. -/
structure Joypad where
  buttons : Byte
  cursor : Nat
  latch : Bool
  deriving DecidableEq, Repr

/-- MMC1's registers (21_mappers.md R170). -/
structure Mmc1 where
  shift : BitVec 5
  count : Nat
  control : BitVec 5
  chr0 : BitVec 5
  chr1 : BitVec 5
  prg : BitVec 5
  deriving DecidableEq, Repr

/-- MMC3's registers (21_mappers.md R190). -/
structure Mmc3 where
  bankSelect : Byte
  r : Vector Byte 8
  mirroring : BitVec 1
  prgRamProtect : Byte
  irqLatch : Byte
  irqCounter : Byte
  irqReload : Bool
  irqEnabled : Bool
  deriving DecidableEq, Repr

/-- FME-7's registers (21_mappers.md R200). -/
structure Fme7 where
  command : BitVec 4
  chr : Vector Byte 8
  prg : Vector Byte 4
  mirroring : BitVec 2
  irqControl : Byte
  irqCounter : Word
  deriving DecidableEq, Repr

/-- The active mapper variant and its registers (10_state.md R50, 21_mappers.md R150). -/
inductive Mapper where
  | nrom
  | mmc1 (r : Mmc1)
  | uxrom (bank : Byte)
  | cnrom (chrBank : Byte)
  | mmc3 (r : Mmc3)
  | fme7 (r : Fme7)
  deriving DecidableEq, Repr

/-- The header's mirroring hint (21_mappers.md R142). -/
inductive HeaderHint where
  | horizontal | vertical | fourScreen
  deriving DecidableEq, Repr

/-- The loaded cartridge: constants of the session (00_scope.md R10, 10_state.md R55, 21_mappers.md R140 to R147). -/
structure Cart where
  /-- 16 KiB program-ROM banks. -/
  prg16 : Nat
  /-- 8 KiB character-ROM banks; 0 means character RAM. -/
  chr8 : Nat
  /-- Program ROM, by offset. -/
  prg : Memory
  /-- Character ROM, by offset. -/
  chr : Memory
  hint : HeaderHint
  deriving DecidableEq, Repr

/-- The whole state. Every field is named in 10_state.md but `cart` and `params` (constants State carries: log 2,
log 3), `inputs` (the devices' side: log 6, log 7) and `cycles` (the step's answer to the host: log 9). -/
structure State where
  pc : Word
  sp : Byte
  a : Byte
  x : Byte
  y : Byte
  p : Byte
  stall : Nat
  ram : Memory
  joy1 : Joypad
  joy2 : Joypad
  mapper : Mapper
  chrRam : Option Memory
  ppu : Ppu
  apu : Apu
  powered : Bool
  fault : Option Fault
  cart : Cart
  params : Params
  inputs : Inputs
  cycles : Nat
  deriving DecidableEq, Repr

/-- A joypad at power-on (70_reset_and_hazards.md R526). -/
def Joypad.powerOn : Joypad := ⟨0, 0, false⟩

/-- The PPU at power-on: the flags by 70_reset_and_hazards.md R527; the rest is the model's rendering (log 5). -/
def ppuPowerOn : Ppu := ⟨false, false, 0, 0, []⟩

/-- The APU at power-on: the flag by 70_reset_and_hazards.md R527; the rest is the model's rendering (log 5). -/
def apuPowerOn : Apu := ⟨false, 0, []⟩

/-- No device input queued (log 6, log 7). -/
def inputsEmpty : Inputs := ⟨[], [], [], [], 0⟩

/-- The cartridge State.reset holds: NROM with one 16 KiB program bank and one 8 KiB character-ROM bank, every byte
0x00. DESIGN CHOICE, unsafe; log 3. -/
def Cart.blank : Cart := ⟨1, 1, [], [], .horizontal⟩

/-- The machine right after power-on (70_reset_and_hazards.md R520, R521; 10_state.md R57) with the blank cartridge of
log 3, whose RESET vector reads 0x0000. `Laws/Session.lean` proves it is what `powerOn` gives. -/
def State.reset : State where
  pc := 0x0000
  sp := 0xFD
  a := 0x00
  x := 0x00
  y := 0x00
  p := 0x34
  stall := 0
  ram := []
  joy1 := Joypad.powerOn
  joy2 := Joypad.powerOn
  mapper := .nrom
  chrRam := none
  ppu := ppuPowerOn
  apu := apuPowerOn
  powered := true
  fault := none
  cart := Cart.blank
  params := Params.default
  inputs := inputsEmpty
  cycles := 0

end Sys2Proof.Machine
end

