-- ==== Sys2Proof/Machine/Flags.lean ====
section
/-! DEFINITION. The status register's bits and every flag computation of 41_arith_logic.md. -/

namespace Sys2Proof.Machine

/-- The eight named bits of `P` (10_state.md R36). -/
inductive Flag where
  | c | z | i | d | b | u | v | n
  deriving DecidableEq, Repr

/-- The bit number of a flag (10_state.md R36). -/
def Flag.bit : Flag → Nat
  | .c => 0
  | .z => 1
  | .i => 2
  | .d => 3
  | .b => 4
  | .u => 5
  | .v => 6
  | .n => 7

/-- Read one status bit. -/
def getFlag (p : Byte) (f : Flag) : Bool := p.getLsbD f.bit

/-- The status byte with one bit written; the other seven keep their values. -/
def putFlag (p : Byte) (f : Flag) (b : Bool) : Byte :=
  if b then p ||| ((1#8) <<< f.bit) else p &&& ~~~((1#8) <<< f.bit)

/-- `SetNZ(v)` on a status byte: `N <- v[7]; Z <- (v == 0)` (00_scope.md R15). -/
def putNZ (p v : Byte) : Byte := putFlag (putFlag p .n (v.getLsbD 7)) .z (v == 0)

/-- A bit as a natural number. -/
def bitValue (b : Bool) : Nat := if b then 1 else 0

/-- The wide sum `A + m + C`, 0 to 0x1FF (41_arith_logic.md R360, R385). -/
def wideSum (a m : Byte) (c : Bool) : Nat := a.toNat + m.toNat + bitValue c

/-- `r = sum & 0xFF` (41_arith_logic.md R360). -/
def sumByte (a m : Byte) (c : Bool) : Byte := BitVec.ofNat 8 (wideSum a m c)

/-- `C = (sum > 0xFF)` (41_arith_logic.md R360). -/
def sumCarry (a m : Byte) (c : Bool) : Bool := 0xFF < wideSum a m c

/-- ADC's V: the operands agree in sign and the result differs (41_arith_logic.md R360). -/
def adcOverflow (a m r : Byte) : Bool := (~~~(a ^^^ m) &&& (a ^^^ r)) &&& 0x80 != 0

/-- SBC's V: the operands differ in sign and the result differs from `A` (41_arith_logic.md R361). -/
def sbcOverflow (a m r : Byte) : Bool := ((a ^^^ m) &&& (a ^^^ r)) &&& 0x80 != 0

/-- `Compare(r, m)` on a status byte (41_arith_logic.md R369). -/
def putCompare (p r m : Byte) : Byte :=
  putFlag (putFlag (putFlag p .c (m.toNat ≤ r.toNat)) .z (r == m)) .n ((r - m).getLsbD 7)

/-- ASL's result, `u8(v << 1)` (41_arith_logic.md R376). -/
def shiftLeft (v : Byte) : Byte := v <<< 1

/-- LSR's result, `v >> 1` (41_arith_logic.md R377). -/
def shiftRight (v : Byte) : Byte := v >>> 1

/-- ROL's result, `u8(v << 1) | c` (41_arith_logic.md R378). -/
def rotateLeft (c : Bool) (v : Byte) : Byte := (v <<< 1) ||| (if c then 0x01 else 0x00)

/-- ROR's result, `(v >> 1) | (c << 7)` (41_arith_logic.md R379). -/
def rotateRight (c : Bool) (v : Byte) : Byte := (v >>> 1) ||| (if c then 0x80 else 0x00)

end Sys2Proof.Machine
end

