-- ==== Sys2Proof/Syntax.lean ====
section
/-! DEFINITION. Instructions as syntax: the 57 kinds (30_encoding.md R244), the 13 addressing modes (R246), the
operand with its bytes, and `Instr`, one constructor for each kind of 31_step.md R300. A row of the opcode table is
a constructor together with the mode of its operand (log 1). -/

namespace Sys2Proof

/-- The 57 instruction kinds: the 56 mnemonics of 00_scope.md R2 and INVALID (30_encoding.md R244). -/
inductive Kind where
  | adc | and | asl | bcc | bcs | beq | bit | bmi | bne | bpl | brk | bvc | bvs | clc
  | cld | cli | clv | cmp | cpx | cpy | dec | dex | dey | eor | inc | inx | iny | jmp
  | jsr | lda | ldx | ldy | lsr | nop | ora | pha | php | pla | plp | rol | ror | rti
  | rts | sbc | sec | sed | sei | sta | stx | sty | tax | tay | tsx | txa | txs | tya
  | invalid
  deriving DecidableEq, Repr

/-- The 13 addressing modes (30_encoding.md R246). -/
inductive Mode where
  | implied | accumulator | immediate | zeroPage | zeroPageX | zeroPageY | relative
  | absolute | absoluteX | absoluteY | indirect | indexedIndirectX | indirectIndexedY
  deriving DecidableEq, Repr

/-- The operand of an instruction whose kind has a choice of mode, with the operand bytes of 30_encoding.md R241:
`op8` as a byte, `op16 = (hi << 8) | lo` as a word. -/
inductive Operand where
  | acc
  | imm (v : Byte)
  | zp (a : Byte)
  | zpX (a : Byte)
  | zpY (a : Byte)
  | abs (a : Word)
  | absX (a : Word)
  | absY (a : Word)
  | ind (p : Word)
  | indX (z : Byte)
  | indY (z : Byte)
  deriving DecidableEq, Repr

/-- The addressing mode an operand form belongs to. -/
def Operand.mode : Operand → Mode
  | .acc => .accumulator
  | .imm _ => .immediate
  | .zp _ => .zeroPage
  | .zpX _ => .zeroPageX
  | .zpY _ => .zeroPageY
  | .abs _ => .absolute
  | .absX _ => .absoluteX
  | .absY _ => .absoluteY
  | .ind _ => .indirect
  | .indX _ => .indexedIndirectX
  | .indY _ => .indirectIndexedY

/-- One instruction. A kind with a choice of modes takes an `Operand`; a branch takes its offset byte; JSR takes
its 16-bit target; the kind INVALID takes the opcode byte, which its fault reports (60_exceptions.md R478). -/
inductive Instr where
  | adc (o : Operand)
  | and (o : Operand)
  | asl (o : Operand)
  | bcc (offset : Byte)
  | bcs (offset : Byte)
  | beq (offset : Byte)
  | bit (o : Operand)
  | bmi (offset : Byte)
  | bne (offset : Byte)
  | bpl (offset : Byte)
  | brk
  | bvc (offset : Byte)
  | bvs (offset : Byte)
  | clc
  | cld
  | cli
  | clv
  | cmp (o : Operand)
  | cpx (o : Operand)
  | cpy (o : Operand)
  | dec (o : Operand)
  | dex
  | dey
  | eor (o : Operand)
  | inc (o : Operand)
  | inx
  | iny
  | jmp (o : Operand)
  | jsr (target : Word)
  | lda (o : Operand)
  | ldx (o : Operand)
  | ldy (o : Operand)
  | lsr (o : Operand)
  | nop
  | ora (o : Operand)
  | pha
  | php
  | pla
  | plp
  | rol (o : Operand)
  | ror (o : Operand)
  | rti
  | rts
  | sbc (o : Operand)
  | sec
  | sed
  | sei
  | sta (o : Operand)
  | stx (o : Operand)
  | sty (o : Operand)
  | tax
  | tay
  | tsx
  | txa
  | txs
  | tya
  | invalid (opcode : Byte)
  deriving DecidableEq, Repr

/-- The kind of an instruction (31_step.md R300). -/
def Instr.kind : Instr → Kind
  | .adc _ => .adc
  | .and _ => .and
  | .asl _ => .asl
  | .bcc _ => .bcc
  | .bcs _ => .bcs
  | .beq _ => .beq
  | .bit _ => .bit
  | .bmi _ => .bmi
  | .bne _ => .bne
  | .bpl _ => .bpl
  | .brk => .brk
  | .bvc _ => .bvc
  | .bvs _ => .bvs
  | .clc => .clc
  | .cld => .cld
  | .cli => .cli
  | .clv => .clv
  | .cmp _ => .cmp
  | .cpx _ => .cpx
  | .cpy _ => .cpy
  | .dec _ => .dec
  | .dex => .dex
  | .dey => .dey
  | .eor _ => .eor
  | .inc _ => .inc
  | .inx => .inx
  | .iny => .iny
  | .jmp _ => .jmp
  | .jsr _ => .jsr
  | .lda _ => .lda
  | .ldx _ => .ldx
  | .ldy _ => .ldy
  | .lsr _ => .lsr
  | .nop => .nop
  | .ora _ => .ora
  | .pha => .pha
  | .php => .php
  | .pla => .pla
  | .plp => .plp
  | .rol _ => .rol
  | .ror _ => .ror
  | .rti => .rti
  | .rts => .rts
  | .sbc _ => .sbc
  | .sec => .sec
  | .sed => .sed
  | .sei => .sei
  | .sta _ => .sta
  | .stx _ => .stx
  | .sty _ => .sty
  | .tax => .tax
  | .tay => .tay
  | .tsx => .tsx
  | .txa => .txa
  | .txs => .txs
  | .tya => .tya
  | .invalid _ => .invalid

/-- The addressing mode of an instruction. INVALID's is the placeholder Immediate (30_encoding.md R262). -/
def Instr.mode : Instr → Mode
  | .adc o => o.mode
  | .and o => o.mode
  | .asl o => o.mode
  | .bcc _ => .relative
  | .bcs _ => .relative
  | .beq _ => .relative
  | .bit o => o.mode
  | .bmi _ => .relative
  | .bne _ => .relative
  | .bpl _ => .relative
  | .brk => .implied
  | .bvc _ => .relative
  | .bvs _ => .relative
  | .clc => .implied
  | .cld => .implied
  | .cli => .implied
  | .clv => .implied
  | .cmp o => o.mode
  | .cpx o => o.mode
  | .cpy o => o.mode
  | .dec o => o.mode
  | .dex => .implied
  | .dey => .implied
  | .eor o => o.mode
  | .inc o => o.mode
  | .inx => .implied
  | .iny => .implied
  | .jmp o => o.mode
  | .jsr _ => .absolute
  | .lda o => o.mode
  | .ldx o => o.mode
  | .ldy o => o.mode
  | .lsr o => o.mode
  | .nop => .implied
  | .ora o => o.mode
  | .pha => .implied
  | .php => .implied
  | .pla => .implied
  | .plp => .implied
  | .rol o => o.mode
  | .ror o => o.mode
  | .rti => .implied
  | .rts => .implied
  | .sbc o => o.mode
  | .sec => .implied
  | .sed => .implied
  | .sei => .implied
  | .sta o => o.mode
  | .stx o => o.mode
  | .sty o => o.mode
  | .tax => .implied
  | .tay => .implied
  | .tsx => .implied
  | .txa => .implied
  | .txs => .implied
  | .tya => .implied
  | .invalid _ => .immediate

end Sys2Proof
end

