-- ==== Sys2Proof/WellFormed.lean ====
section
/-! DEFINITION. Which terms of `Instr` are instructions: the operand's mode must be one the kind's rule lists, and an
INVALID term must hold one of the 105 undocumented bytes. -/

namespace Sys2Proof

/-- The 105 opcode bytes with no documented instruction (30_encoding.md R262). -/
def undocumentedBytes : List Byte :=
  [0x02, 0x03, 0x04, 0x07, 0x0B, 0x0C, 0x0F, 0x12, 0x13, 0x14, 0x17, 0x1A]
  ++ [0x1B, 0x1C, 0x1F, 0x22, 0x23, 0x27, 0x2B, 0x2F, 0x32, 0x33, 0x34, 0x37]
  ++ [0x3A, 0x3B, 0x3C, 0x3F, 0x42, 0x43, 0x44, 0x47, 0x4B, 0x4F, 0x52, 0x53]
  ++ [0x54, 0x57, 0x5A, 0x5B, 0x5C, 0x5F, 0x62, 0x63, 0x64, 0x67, 0x6B, 0x6F]
  ++ [0x72, 0x73, 0x74, 0x77, 0x7A, 0x7B, 0x7C, 0x7F, 0x80, 0x82, 0x83, 0x87]
  ++ [0x89, 0x8B, 0x8F, 0x92, 0x93, 0x97, 0x9B, 0x9C, 0x9E, 0x9F, 0xA3, 0xA7]
  ++ [0xAB, 0xAF, 0xB2, 0xB3, 0xB7, 0xBB, 0xBF, 0xC2, 0xC3, 0xC7, 0xCB, 0xCF]
  ++ [0xD2, 0xD3, 0xD4, 0xD7, 0xDA, 0xDB, 0xDC, 0xDF, 0xE2, 0xE3, 0xE7, 0xEB]
  ++ [0xEF, 0xF2, 0xF3, 0xF4, 0xF7, 0xFA, 0xFB, 0xFC, 0xFF]

/-- The addressing modes the rule of each kind lists (the "Encoding" lines of 40_load_store.md, 41_arith_logic.md and
42_control.md; INVALID's placeholder by 30_encoding.md R262). -/
def Kind.modes : Kind → List Mode
  | .adc | .and | .cmp | .eor | .lda | .ora | .sbc =>
      [.immediate, .zeroPage, .zeroPageX, .absolute, .absoluteX, .absoluteY, .indexedIndirectX, .indirectIndexedY]
  | .asl | .lsr | .rol | .ror =>
      [.accumulator, .zeroPage, .zeroPageX, .absolute, .absoluteX]
  | .bcc | .bcs | .beq | .bmi | .bne | .bpl | .bvc | .bvs =>
      [.relative]
  | .bit =>
      [.zeroPage, .absolute]
  | .brk | .clc | .cld | .cli | .clv | .dex | .dey | .inx
  | .iny | .nop | .pha | .php | .pla | .plp | .rti | .rts
  | .sec | .sed | .sei | .tax | .tay | .tsx | .txa | .txs
  | .tya =>
      [.implied]
  | .cpx | .cpy =>
      [.immediate, .zeroPage, .absolute]
  | .dec | .inc =>
      [.zeroPage, .zeroPageX, .absolute, .absoluteX]
  | .jmp =>
      [.absolute, .indirect]
  | .jsr =>
      [.absolute]
  | .ldx =>
      [.immediate, .zeroPage, .zeroPageY, .absolute, .absoluteY]
  | .ldy =>
      [.immediate, .zeroPage, .zeroPageX, .absolute, .absoluteX]
  | .sta =>
      [.zeroPage, .zeroPageX, .absolute, .absoluteX, .absoluteY, .indexedIndirectX, .indirectIndexedY]
  | .stx =>
      [.zeroPage, .zeroPageY, .absolute]
  | .sty =>
      [.zeroPage, .zeroPageX, .absolute]
  | .invalid =>
      [.immediate]

/-- The operand check: the instruction's mode is one its kind offers. -/
def Instr.modeOk (i : Instr) : Bool := i.kind.modes.contains i.mode

/-- The INVALID check: an INVALID term holds an undocumented byte. -/
def Instr.byteOk : Instr → Bool
  | .invalid b => undocumentedBytes.contains b
  | _ => true

/-- Well-formed: both checks pass. -/
def Instr.wf (i : Instr) : Bool := i.modeOk && i.byteOk

end Sys2Proof
end

