-- ==== Sys2Proof/Decode.lean ====
section
/-! DEFINITION. The decoder (30_encoding.md R240 to R264): one lookup of the opcode byte in a constant 256-entry table,
then the operand bytes its mode asks for; and the encoder, written from the "Encoding" lines of the instruction
rules, a second statement of the same table. -/

namespace Sys2Proof

/-- `(hi << 8) | lo` (00_scope.md R11; 20_memory.md R112). -/
def joinWord (hi lo : Byte) : Word := hi ++ lo

/-- The low byte of a word. -/
def loByte (w : Word) : Byte := w.extractLsb' 0 8

/-- The high byte of a word. -/
def hiByte (w : Word) : Byte := w.extractLsb' 8 8

/-- The decoded Operation (30_encoding.md R244; 10_state.md R46). -/
structure Op where
  kind : Kind
  mode : Mode
  baseCycles : Nat
  deriving DecidableEq, Repr

/-- What an unassigned slot holds (30_encoding.md R262). -/
def undocumented : Op := ⟨.invalid, .immediate, 1⟩

/-- Row 0 of the map: opcode bytes 0x00 to 0x0F. -/
def opRow0 : List Op :=
  [⟨.brk, .implied, 7⟩, ⟨.ora, .indexedIndirectX, 6⟩, undocumented, undocumented,
   undocumented, ⟨.ora, .zeroPage, 3⟩, ⟨.asl, .zeroPage, 5⟩, undocumented,
   ⟨.php, .implied, 3⟩, ⟨.ora, .immediate, 2⟩, ⟨.asl, .accumulator, 2⟩, undocumented,
   undocumented, ⟨.ora, .absolute, 4⟩, ⟨.asl, .absolute, 6⟩, undocumented]

/-- Row 1 of the map: opcode bytes 0x10 to 0x1F. -/
def opRow1 : List Op :=
  [⟨.bpl, .relative, 2⟩, ⟨.ora, .indirectIndexedY, 5⟩, undocumented, undocumented,
   undocumented, ⟨.ora, .zeroPageX, 4⟩, ⟨.asl, .zeroPageX, 6⟩, undocumented,
   ⟨.clc, .implied, 2⟩, ⟨.ora, .absoluteY, 4⟩, undocumented, undocumented,
   undocumented, ⟨.ora, .absoluteX, 4⟩, ⟨.asl, .absoluteX, 7⟩, undocumented]

/-- Row 2 of the map: opcode bytes 0x20 to 0x2F. -/
def opRow2 : List Op :=
  [⟨.jsr, .absolute, 6⟩, ⟨.and, .indexedIndirectX, 6⟩, undocumented, undocumented,
   ⟨.bit, .zeroPage, 3⟩, ⟨.and, .zeroPage, 3⟩, ⟨.rol, .zeroPage, 5⟩, undocumented,
   ⟨.plp, .implied, 4⟩, ⟨.and, .immediate, 2⟩, ⟨.rol, .accumulator, 2⟩, undocumented,
   ⟨.bit, .absolute, 4⟩, ⟨.and, .absolute, 4⟩, ⟨.rol, .absolute, 6⟩, undocumented]

/-- Row 3 of the map: opcode bytes 0x30 to 0x3F. -/
def opRow3 : List Op :=
  [⟨.bmi, .relative, 2⟩, ⟨.and, .indirectIndexedY, 5⟩, undocumented, undocumented,
   undocumented, ⟨.and, .zeroPageX, 4⟩, ⟨.rol, .zeroPageX, 6⟩, undocumented,
   ⟨.sec, .implied, 2⟩, ⟨.and, .absoluteY, 4⟩, undocumented, undocumented,
   undocumented, ⟨.and, .absoluteX, 4⟩, ⟨.rol, .absoluteX, 7⟩, undocumented]

/-- Row 4 of the map: opcode bytes 0x40 to 0x4F. -/
def opRow4 : List Op :=
  [⟨.rti, .implied, 6⟩, ⟨.eor, .indexedIndirectX, 6⟩, undocumented, undocumented,
   undocumented, ⟨.eor, .zeroPage, 3⟩, ⟨.lsr, .zeroPage, 5⟩, undocumented,
   ⟨.pha, .implied, 3⟩, ⟨.eor, .immediate, 2⟩, ⟨.lsr, .accumulator, 2⟩, undocumented,
   ⟨.jmp, .absolute, 3⟩, ⟨.eor, .absolute, 4⟩, ⟨.lsr, .absolute, 6⟩, undocumented]

/-- Row 5 of the map: opcode bytes 0x50 to 0x5F. -/
def opRow5 : List Op :=
  [⟨.bvc, .relative, 2⟩, ⟨.eor, .indirectIndexedY, 5⟩, undocumented, undocumented,
   undocumented, ⟨.eor, .zeroPageX, 4⟩, ⟨.lsr, .zeroPageX, 6⟩, undocumented,
   ⟨.cli, .implied, 2⟩, ⟨.eor, .absoluteY, 4⟩, undocumented, undocumented,
   undocumented, ⟨.eor, .absoluteX, 4⟩, ⟨.lsr, .absoluteX, 7⟩, undocumented]

/-- Row 6 of the map: opcode bytes 0x60 to 0x6F. -/
def opRow6 : List Op :=
  [⟨.rts, .implied, 6⟩, ⟨.adc, .indexedIndirectX, 6⟩, undocumented, undocumented,
   undocumented, ⟨.adc, .zeroPage, 3⟩, ⟨.ror, .zeroPage, 5⟩, undocumented,
   ⟨.pla, .implied, 4⟩, ⟨.adc, .immediate, 2⟩, ⟨.ror, .accumulator, 2⟩, undocumented,
   ⟨.jmp, .indirect, 5⟩, ⟨.adc, .absolute, 4⟩, ⟨.ror, .absolute, 6⟩, undocumented]

/-- Row 7 of the map: opcode bytes 0x70 to 0x7F. -/
def opRow7 : List Op :=
  [⟨.bvs, .relative, 2⟩, ⟨.adc, .indirectIndexedY, 5⟩, undocumented, undocumented,
   undocumented, ⟨.adc, .zeroPageX, 4⟩, ⟨.ror, .zeroPageX, 6⟩, undocumented,
   ⟨.sei, .implied, 2⟩, ⟨.adc, .absoluteY, 4⟩, undocumented, undocumented,
   undocumented, ⟨.adc, .absoluteX, 4⟩, ⟨.ror, .absoluteX, 7⟩, undocumented]

/-- Row 8 of the map: opcode bytes 0x80 to 0x8F. -/
def opRow8 : List Op :=
  [undocumented, ⟨.sta, .indexedIndirectX, 6⟩, undocumented, undocumented,
   ⟨.sty, .zeroPage, 3⟩, ⟨.sta, .zeroPage, 3⟩, ⟨.stx, .zeroPage, 3⟩, undocumented,
   ⟨.dey, .implied, 2⟩, undocumented, ⟨.txa, .implied, 2⟩, undocumented,
   ⟨.sty, .absolute, 4⟩, ⟨.sta, .absolute, 4⟩, ⟨.stx, .absolute, 4⟩, undocumented]

/-- Row 9 of the map: opcode bytes 0x90 to 0x9F. -/
def opRow9 : List Op :=
  [⟨.bcc, .relative, 2⟩, ⟨.sta, .indirectIndexedY, 6⟩, undocumented, undocumented,
   ⟨.sty, .zeroPageX, 4⟩, ⟨.sta, .zeroPageX, 4⟩, ⟨.stx, .zeroPageY, 4⟩, undocumented,
   ⟨.tya, .implied, 2⟩, ⟨.sta, .absoluteY, 5⟩, ⟨.txs, .implied, 2⟩, undocumented,
   undocumented, ⟨.sta, .absoluteX, 5⟩, undocumented, undocumented]

/-- Row A of the map: opcode bytes 0xA0 to 0xAF. -/
def opRowA : List Op :=
  [⟨.ldy, .immediate, 2⟩, ⟨.lda, .indexedIndirectX, 6⟩, ⟨.ldx, .immediate, 2⟩, undocumented,
   ⟨.ldy, .zeroPage, 3⟩, ⟨.lda, .zeroPage, 3⟩, ⟨.ldx, .zeroPage, 3⟩, undocumented,
   ⟨.tay, .implied, 2⟩, ⟨.lda, .immediate, 2⟩, ⟨.tax, .implied, 2⟩, undocumented,
   ⟨.ldy, .absolute, 4⟩, ⟨.lda, .absolute, 4⟩, ⟨.ldx, .absolute, 4⟩, undocumented]

/-- Row B of the map: opcode bytes 0xB0 to 0xBF. -/
def opRowB : List Op :=
  [⟨.bcs, .relative, 2⟩, ⟨.lda, .indirectIndexedY, 5⟩, undocumented, undocumented,
   ⟨.ldy, .zeroPageX, 4⟩, ⟨.lda, .zeroPageX, 4⟩, ⟨.ldx, .zeroPageY, 4⟩, undocumented,
   ⟨.clv, .implied, 2⟩, ⟨.lda, .absoluteY, 4⟩, ⟨.tsx, .implied, 2⟩, undocumented,
   ⟨.ldy, .absoluteX, 4⟩, ⟨.lda, .absoluteX, 4⟩, ⟨.ldx, .absoluteY, 4⟩, undocumented]

/-- Row C of the map: opcode bytes 0xC0 to 0xCF. -/
def opRowC : List Op :=
  [⟨.cpy, .immediate, 2⟩, ⟨.cmp, .indexedIndirectX, 6⟩, undocumented, undocumented,
   ⟨.cpy, .zeroPage, 3⟩, ⟨.cmp, .zeroPage, 3⟩, ⟨.dec, .zeroPage, 5⟩, undocumented,
   ⟨.iny, .implied, 2⟩, ⟨.cmp, .immediate, 2⟩, ⟨.dex, .implied, 2⟩, undocumented,
   ⟨.cpy, .absolute, 4⟩, ⟨.cmp, .absolute, 4⟩, ⟨.dec, .absolute, 6⟩, undocumented]

/-- Row D of the map: opcode bytes 0xD0 to 0xDF. -/
def opRowD : List Op :=
  [⟨.bne, .relative, 2⟩, ⟨.cmp, .indirectIndexedY, 5⟩, undocumented, undocumented,
   undocumented, ⟨.cmp, .zeroPageX, 4⟩, ⟨.dec, .zeroPageX, 6⟩, undocumented,
   ⟨.cld, .implied, 2⟩, ⟨.cmp, .absoluteY, 4⟩, undocumented, undocumented,
   undocumented, ⟨.cmp, .absoluteX, 4⟩, ⟨.dec, .absoluteX, 7⟩, undocumented]

/-- Row E of the map: opcode bytes 0xE0 to 0xEF. -/
def opRowE : List Op :=
  [⟨.cpx, .immediate, 2⟩, ⟨.sbc, .indexedIndirectX, 6⟩, undocumented, undocumented,
   ⟨.cpx, .zeroPage, 3⟩, ⟨.sbc, .zeroPage, 3⟩, ⟨.inc, .zeroPage, 5⟩, undocumented,
   ⟨.inx, .implied, 2⟩, ⟨.sbc, .immediate, 2⟩, ⟨.nop, .implied, 2⟩, undocumented,
   ⟨.cpx, .absolute, 4⟩, ⟨.sbc, .absolute, 4⟩, ⟨.inc, .absolute, 6⟩, undocumented]

/-- Row F of the map: opcode bytes 0xF0 to 0xFF. -/
def opRowF : List Op :=
  [⟨.beq, .relative, 2⟩, ⟨.sbc, .indirectIndexedY, 5⟩, undocumented, undocumented,
   undocumented, ⟨.sbc, .zeroPageX, 4⟩, ⟨.inc, .zeroPageX, 6⟩, undocumented,
   ⟨.sed, .implied, 2⟩, ⟨.sbc, .absoluteY, 4⟩, undocumented, undocumented,
   undocumented, ⟨.sbc, .absoluteX, 4⟩, ⟨.inc, .absoluteX, 7⟩, undocumented]

/-- The opcode map of 30_encoding.md R264, one entry for each byte value in order. -/
def opTable : List Op :=
  opRow0 ++ opRow1 ++ opRow2 ++ opRow3 ++ opRow4 ++ opRow5 ++ opRow6 ++ opRow7 ++
  opRow8 ++ opRow9 ++ opRowA ++ opRowB ++ opRowC ++ opRowD ++ opRowE ++ opRowF

/-- `Decode(b)`: total over all 256 bytes, reading nothing but `b` (30_encoding.md R244, 31_step.md R294). -/
def decodeOp (b : Byte) : Op := opTable.getD b.toNat undocumented

/-- Operand width of a mode (30_encoding.md R247). -/
def Mode.width : Mode → Nat
  | .implied | .accumulator => 0
  | .immediate | .relative | .zeroPage | .zeroPageX | .zeroPageY
  | .indexedIndirectX | .indirectIndexedY => 1
  | .absolute | .absoluteX | .absoluteY | .indirect => 2

/-- How many operand bytes follow the opcode byte: `width(mode)`, and none for INVALID, whose resolver does not run
(30_encoding.md R243, R262; 31_step.md R295). -/
def Op.operandLength (op : Op) : Nat := if op.kind = .invalid then 0 else op.mode.width

/-- The operand of a mode from its bytes in fetch order (30_encoding.md R241). Implied and Relative have no `Operand`
form; no kind that takes one is ever in those modes. -/
def Mode.operand (m : Mode) (b1 b2 : Byte) : Operand :=
  match m with
  | .implied | .relative | .accumulator => .acc
  | .immediate => .imm b1
  | .zeroPage => .zp b1
  | .zeroPageX => .zpX b1
  | .zeroPageY => .zpY b1
  | .absolute => .abs (joinWord b2 b1)
  | .absoluteX => .absX (joinWord b2 b1)
  | .absoluteY => .absY (joinWord b2 b1)
  | .indirect => .ind (joinWord b2 b1)
  | .indexedIndirectX => .indX b1
  | .indirectIndexedY => .indY b1

/-- The instruction of a decoded Operation, its opcode byte and its operand bytes (unused ones are ignored). -/
def Op.assemble (op : Op) (opcode b1 b2 : Byte) : Instr :=
  match op.kind with
  | .adc => .adc (op.mode.operand b1 b2)
  | .and => .and (op.mode.operand b1 b2)
  | .asl => .asl (op.mode.operand b1 b2)
  | .bcc => .bcc b1
  | .bcs => .bcs b1
  | .beq => .beq b1
  | .bit => .bit (op.mode.operand b1 b2)
  | .bmi => .bmi b1
  | .bne => .bne b1
  | .bpl => .bpl b1
  | .brk => .brk
  | .bvc => .bvc b1
  | .bvs => .bvs b1
  | .clc => .clc
  | .cld => .cld
  | .cli => .cli
  | .clv => .clv
  | .cmp => .cmp (op.mode.operand b1 b2)
  | .cpx => .cpx (op.mode.operand b1 b2)
  | .cpy => .cpy (op.mode.operand b1 b2)
  | .dec => .dec (op.mode.operand b1 b2)
  | .dex => .dex
  | .dey => .dey
  | .eor => .eor (op.mode.operand b1 b2)
  | .inc => .inc (op.mode.operand b1 b2)
  | .inx => .inx
  | .iny => .iny
  | .jmp => .jmp (op.mode.operand b1 b2)
  | .jsr => .jsr (joinWord b2 b1)
  | .lda => .lda (op.mode.operand b1 b2)
  | .ldx => .ldx (op.mode.operand b1 b2)
  | .ldy => .ldy (op.mode.operand b1 b2)
  | .lsr => .lsr (op.mode.operand b1 b2)
  | .nop => .nop
  | .ora => .ora (op.mode.operand b1 b2)
  | .pha => .pha
  | .php => .php
  | .pla => .pla
  | .plp => .plp
  | .rol => .rol (op.mode.operand b1 b2)
  | .ror => .ror (op.mode.operand b1 b2)
  | .rti => .rti
  | .rts => .rts
  | .sbc => .sbc (op.mode.operand b1 b2)
  | .sec => .sec
  | .sed => .sed
  | .sei => .sei
  | .sta => .sta (op.mode.operand b1 b2)
  | .stx => .stx (op.mode.operand b1 b2)
  | .sty => .sty (op.mode.operand b1 b2)
  | .tax => .tax
  | .tay => .tay
  | .tsx => .tsx
  | .txa => .txa
  | .txs => .txs
  | .tya => .tya
  | .invalid => .invalid opcode

/-- Why a byte sequence is no instruction: every opcode byte decodes (30_encoding.md R263), so only missing bytes
are left. -/
inductive DecodeReject where
  | noBytes
  | operandMissing (opcode : Byte)
  deriving DecidableEq, Repr

/-- Decode the instruction at the head of a byte sequence and give the rest (30_encoding.md R240, R243). -/
def decode : List Byte → Except DecodeReject (Instr × List Byte)
  | [] => .error .noBytes
  | opcode :: rest =>
    let op := decodeOp opcode
    match op.operandLength, rest with
    | 0, rest => .ok (op.assemble opcode 0 0, rest)
    | 1, b1 :: rest => .ok (op.assemble opcode b1 0, rest)
    | 2, b1 :: b2 :: rest => .ok (op.assemble opcode b1 b2, rest)
    | _, _ => .error (.operandMissing opcode)

/-- The (mode, opcode byte) pairs of each kind, from the "Encoding" line of its rule. -/
def Kind.encodings : Kind → List (Mode × Byte)
  | .adc =>
      [(.immediate, 0x69), (.zeroPage, 0x65), (.zeroPageX, 0x75), (.absolute, 0x6D), (.absoluteX, 0x7D),
       (.absoluteY, 0x79), (.indexedIndirectX, 0x61), (.indirectIndexedY, 0x71)]  -- R360
  | .and =>
      [(.immediate, 0x29), (.zeroPage, 0x25), (.zeroPageX, 0x35), (.absolute, 0x2D), (.absoluteX, 0x3D),
       (.absoluteY, 0x39), (.indexedIndirectX, 0x21), (.indirectIndexedY, 0x31)]  -- R362
  | .asl =>
      [(.accumulator, 0x0A), (.zeroPage, 0x06), (.zeroPageX, 0x16), (.absolute, 0x0E), (.absoluteX, 0x1E)]  -- R376
  | .bcc => [(.relative, 0x90)]  -- R446
  | .bcs => [(.relative, 0xB0)]  -- R447
  | .beq => [(.relative, 0xF0)]  -- R448
  | .bit => [(.zeroPage, 0x24), (.absolute, 0x2C)]  -- R365
  | .bmi => [(.relative, 0x30)]  -- R449
  | .bne => [(.relative, 0xD0)]  -- R450
  | .bpl => [(.relative, 0x10)]  -- R451
  | .brk => [(.implied, 0x00)]  -- R440
  | .bvc => [(.relative, 0x50)]  -- R452
  | .bvs => [(.relative, 0x70)]  -- R453
  | .clc => [(.implied, 0x18)]  -- R430
  | .cld => [(.implied, 0xD8)]  -- R431
  | .cli => [(.implied, 0x58)]  -- R432
  | .clv => [(.implied, 0xB8)]  -- R433
  | .cmp =>
      [(.immediate, 0xC9), (.zeroPage, 0xC5), (.zeroPageX, 0xD5), (.absolute, 0xCD), (.absoluteX, 0xDD),
       (.absoluteY, 0xD9), (.indexedIndirectX, 0xC1), (.indirectIndexedY, 0xD1)]  -- R366
  | .cpx => [(.immediate, 0xE0), (.zeroPage, 0xE4), (.absolute, 0xEC)]  -- R367
  | .cpy => [(.immediate, 0xC0), (.zeroPage, 0xC4), (.absolute, 0xCC)]  -- R368
  | .dec => [(.zeroPage, 0xC6), (.zeroPageX, 0xD6), (.absolute, 0xCE), (.absoluteX, 0xDE)]  -- R371
  | .dex => [(.implied, 0xCA)]  -- R374
  | .dey => [(.implied, 0x88)]  -- R375
  | .eor =>
      [(.immediate, 0x49), (.zeroPage, 0x45), (.zeroPageX, 0x55), (.absolute, 0x4D), (.absoluteX, 0x5D),
       (.absoluteY, 0x59), (.indexedIndirectX, 0x41), (.indirectIndexedY, 0x51)]  -- R364
  | .inc => [(.zeroPage, 0xE6), (.zeroPageX, 0xF6), (.absolute, 0xEE), (.absoluteX, 0xFE)]  -- R370
  | .inx => [(.implied, 0xE8)]  -- R372
  | .iny => [(.implied, 0xC8)]  -- R373
  | .jmp => [(.absolute, 0x4C), (.indirect, 0x6C)]  -- R420, R421
  | .jsr => [(.absolute, 0x20)]  -- R422
  | .lda =>
      [(.immediate, 0xA9), (.zeroPage, 0xA5), (.zeroPageX, 0xB5), (.absolute, 0xAD), (.absoluteX, 0xBD),
       (.absoluteY, 0xB9), (.indexedIndirectX, 0xA1), (.indirectIndexedY, 0xB1)]  -- R320
  | .ldx =>
      [(.immediate, 0xA2), (.zeroPage, 0xA6), (.zeroPageY, 0xB6), (.absolute, 0xAE), (.absoluteY, 0xBE)]  -- R321
  | .ldy =>
      [(.immediate, 0xA0), (.zeroPage, 0xA4), (.zeroPageX, 0xB4), (.absolute, 0xAC), (.absoluteX, 0xBC)]  -- R322
  | .lsr =>
      [(.accumulator, 0x4A), (.zeroPage, 0x46), (.zeroPageX, 0x56), (.absolute, 0x4E), (.absoluteX, 0x5E)]  -- R377
  | .nop => [(.implied, 0xEA)]  -- R437
  | .ora =>
      [(.immediate, 0x09), (.zeroPage, 0x05), (.zeroPageX, 0x15), (.absolute, 0x0D), (.absoluteX, 0x1D),
       (.absoluteY, 0x19), (.indexedIndirectX, 0x01), (.indirectIndexedY, 0x11)]  -- R363
  | .pha => [(.implied, 0x48)]  -- R340
  | .php => [(.implied, 0x08)]  -- R341
  | .pla => [(.implied, 0x68)]  -- R342
  | .plp => [(.implied, 0x28)]  -- R343
  | .rol =>
      [(.accumulator, 0x2A), (.zeroPage, 0x26), (.zeroPageX, 0x36), (.absolute, 0x2E), (.absoluteX, 0x3E)]  -- R378
  | .ror =>
      [(.accumulator, 0x6A), (.zeroPage, 0x66), (.zeroPageX, 0x76), (.absolute, 0x6E), (.absoluteX, 0x7E)]  -- R379
  | .rti => [(.implied, 0x40)]  -- R424
  | .rts => [(.implied, 0x60)]  -- R423
  | .sbc =>
      [(.immediate, 0xE9), (.zeroPage, 0xE5), (.zeroPageX, 0xF5), (.absolute, 0xED), (.absoluteX, 0xFD),
       (.absoluteY, 0xF9), (.indexedIndirectX, 0xE1), (.indirectIndexedY, 0xF1)]  -- R361
  | .sec => [(.implied, 0x38)]  -- R434
  | .sed => [(.implied, 0xF8)]  -- R435
  | .sei => [(.implied, 0x78)]  -- R436
  | .sta =>
      [(.zeroPage, 0x85), (.zeroPageX, 0x95), (.absolute, 0x8D), (.absoluteX, 0x9D), (.absoluteY, 0x99),
       (.indexedIndirectX, 0x81), (.indirectIndexedY, 0x91)]  -- R323
  | .stx => [(.zeroPage, 0x86), (.zeroPageY, 0x96), (.absolute, 0x8E)]  -- R324
  | .sty => [(.zeroPage, 0x84), (.zeroPageX, 0x94), (.absolute, 0x8C)]  -- R325
  | .tax => [(.implied, 0xAA)]  -- R330
  | .tay => [(.implied, 0xA8)]  -- R331
  | .tsx => [(.implied, 0xBA)]  -- R332
  | .txa => [(.implied, 0x8A)]  -- R333
  | .txs => [(.implied, 0x9A)]  -- R334
  | .tya => [(.implied, 0x98)]  -- R335
  | .invalid => []

/-- The opcode byte of a kind in a mode, where its rule gives one. -/
def Kind.opcode (k : Kind) (m : Mode) : Option Byte := k.encodings.lookup m

/-- The operand bytes of an operand in fetch order (30_encoding.md R241). -/
def Operand.bytes : Operand → List Byte
  | .acc => []
  | .imm b | .zp b | .zpX b | .zpY b | .indX b | .indY b => [b]
  | .abs w | .absX w | .absY w | .ind w => [loByte w, hiByte w]

/-- The opcode byte of an instruction. -/
def Instr.opcode : Instr → Option Byte
  | .invalid b => some b
  | i => i.kind.opcode i.mode

/-- The operand bytes of an instruction. BRK's padding byte is no operand (30_encoding.md R241). -/
def Instr.operandBytes : Instr → List Byte
  | .adc o => o.bytes
  | .and o => o.bytes
  | .asl o => o.bytes
  | .bcc b => [b]
  | .bcs b => [b]
  | .beq b => [b]
  | .bit o => o.bytes
  | .bmi b => [b]
  | .bne b => [b]
  | .bpl b => [b]
  | .brk => []
  | .bvc b => [b]
  | .bvs b => [b]
  | .clc => []
  | .cld => []
  | .cli => []
  | .clv => []
  | .cmp o => o.bytes
  | .cpx o => o.bytes
  | .cpy o => o.bytes
  | .dec o => o.bytes
  | .dex => []
  | .dey => []
  | .eor o => o.bytes
  | .inc o => o.bytes
  | .inx => []
  | .iny => []
  | .jmp o => o.bytes
  | .jsr w => [loByte w, hiByte w]
  | .lda o => o.bytes
  | .ldx o => o.bytes
  | .ldy o => o.bytes
  | .lsr o => o.bytes
  | .nop => []
  | .ora o => o.bytes
  | .pha => []
  | .php => []
  | .pla => []
  | .plp => []
  | .rol o => o.bytes
  | .ror o => o.bytes
  | .rti => []
  | .rts => []
  | .sbc o => o.bytes
  | .sec => []
  | .sed => []
  | .sei => []
  | .sta o => o.bytes
  | .stx o => o.bytes
  | .sty o => o.bytes
  | .tax => []
  | .tay => []
  | .tsx => []
  | .txa => []
  | .txs => []
  | .tya => []
  | .invalid _ => []

/-- The bytes of an instruction in fetch order; empty where the term is no instruction. -/
def encode (i : Instr) : List Byte :=
  match i.opcode with
  | some b => b :: i.operandBytes
  | none => []

/-- The three bytes, lowest address first, of a table word of `nbits` bits: bit 0 of the word is bit 0 of the first
byte, the second byte is bits 15 to 8, and every bit from `nbits` up is 0. -/
def tableBytes (nbits w : Nat) : List Byte :=
  let v := w % 2 ^ nbits
  [BitVec.ofNat 8 v, BitVec.ofNat 8 (v / 256), BitVec.ofNat 8 (v / 65536)]

/-- The instruction this decoder reads from an opcode-table word. -/
def decodeTableWord (nbits w : Nat) : Option Instr :=
  match decode (tableBytes nbits w) with
  | .ok (i, _) => some i
  | .error _ => none

end Sys2Proof
end

