-- ==== Sys2Proof/Machine/Memory.lean ====
section
/-! DEFINITION. Memory as a list of (address, byte) pairs in one canonical form, and its read and write. -/

namespace Sys2Proof

/-- What an address nothing has written reads as. RAM: DESIGN CHOICE, unsafe, log 4 (`RAM_INIT` is open,
70_reset_and_hazards.md R525). CHR RAM: the spec's value (10_state.md R57). ROM: a byte the image leaves out, log 3. -/
def Memory.fill : Byte := 0x00

/-- One byte. -/
def Memory.read : Memory → Nat → Byte
  | [], _ => Memory.fill
  | (b, v) :: m, a => if b = a then v else Memory.read m a

/-- Store one byte, keeping the addresses rising and no entry equal to `fill`. -/
def Memory.write : Memory → Nat → Byte → Memory
  | [], a, v => if v = Memory.fill then [] else [(a, v)]
  | (b, w) :: m, a, v =>
    if a < b then
      if v = Memory.fill then (b, w) :: m else (a, v) :: (b, w) :: m
    else if a = b then
      if v = Memory.fill then m else (a, v) :: m
    else (b, w) :: Memory.write m a v

/-- The canonical form: addresses strictly rising and no entry equal to what an unlisted address reads as. -/
abbrev Memory.wf (m : Memory) : Prop :=
  m.Pairwise (fun c d => c.1 < d.1) ∧ ∀ c ∈ m, c.2 ≠ Memory.fill

/-- Every listed address is below `n`. -/
abbrev Memory.below (m : Memory) (n : Nat) : Prop := ∀ c ∈ m, c.1 < n

/-- The memory holding `bytes` at `base` and up. -/
def Memory.ofBytesAt (base : Nat) : List Byte → Memory
  | [] => []
  | v :: rest =>
    if v = Memory.fill then Memory.ofBytesAt (base + 1) rest
    else (base, v) :: Memory.ofBytesAt (base + 1) rest

/-- The memory holding `bytes` from address 0. -/
def Memory.ofBytes (bytes : List Byte) : Memory := Memory.ofBytesAt 0 bytes

/-- The first `n` bytes as a list. -/
def Memory.toBytes (m : Memory) (n : Nat) : List Byte := (List.range n).map m.read

end Sys2Proof
end

