-- ==== Sys2Proof/Machine/Mapper.lean ====
section
/-! DEFINITION. The mapper engine: the six variants of 21_mappers.md behind one interface (`map`, `store`,
`mapChr`, `driveIrq`, mirroring). Bank numbers are naturals reduced modulo the cartridge's bank count (R151). -/

namespace Sys2Proof.Machine

/-- The offset of an address in bank `b` of `n` banks of `size` bytes: `(b mod N) * size + (addr mod size)`
(21_mappers.md R151). -/
def bankOffset (size n b addr : Nat) : Nat := b % n * size + addr % size

/-- `CHR8' = max(CHR8, 1)` (21_mappers.md R146). -/
def chrUnits (chr8 : Nat) : Nat := max chr8 1

/-- NROM's and CNROM's program map (21_mappers.md R166). -/
def nromMap (prg16 : Nat) (addr : Word) : Nat := (addr.toNat - 0x8000) % (prg16 * 16384)

/-- MMC1's 16 KiB program bank for an address (21_mappers.md R173). -/
def Mmc1.prgBank (r : Mmc1) (prg16 : Nat) (addr : Word) : Nat :=
  let p := r.prg &&& 0x0F
  let upper : Bool := 0xC000 ≤ addr.toNat
  match (r.control.extractLsb' 2 2).toNat with
  | 2 => if upper then p.toNat else 0
  | 3 => if upper then prg16 - 1 else p.toNat
  | _ => if upper then ((p &&& 0x0E) ||| 1).toNat else (p &&& 0x0E).toNat

/-- The 8 KiB slot of a program address, 0 to 3 (21_mappers.md R192, R203). -/
def prgSlot (addr : Word) : Nat := (addr.toNat - 0x8000) / 8192

/-- MMC3's 8 KiB program bank for an address (21_mappers.md R192). -/
def Mmc3.prgBank (r : Mmc3) (prg8 : Nat) (addr : Word) : Nat :=
  let swapped := r.bankSelect.getLsbD 6
  match prgSlot addr with
  | 0 => if swapped then prg8 - 2 else (r.r[6]).toNat
  | 1 => (r.r[7]).toNat
  | 2 => if swapped then (r.r[6]).toNat else prg8 - 2
  | _ => prg8 - 1

/-- FME-7's 8 KiB program bank for an address (21_mappers.md R203). -/
def Fme7.prgBank (r : Fme7) (prg8 : Nat) (addr : Word) : Nat :=
  match prgSlot addr with
  | 0 => (r.prg[1]).toNat
  | 1 => (r.prg[2]).toNat
  | 2 => (r.prg[3]).toNat
  | _ => prg8 - 1

/-- `map(addr)`: the offset into program ROM of an address in 0x8000–0xFFFF, pure in the registers
(21_mappers.md R152, R166, R173, R182, R187, R192, R203). -/
def Mapper.map (m : Mapper) (prg16 : Nat) (addr : Word) : Nat :=
  match m with
  | .nrom => nromMap prg16 addr
  | .mmc1 r => bankOffset 16384 prg16 (r.prgBank prg16 addr) addr.toNat
  | .uxrom bank =>
    bankOffset 16384 prg16 (if 0xC000 ≤ addr.toNat then prg16 - 1 else bank.toNat) addr.toNat
  | .cnrom _ => nromMap prg16 addr
  | .mmc3 r => bankOffset 8192 (2 * prg16) (r.prgBank (2 * prg16) addr) addr.toNat
  | .fme7 r => bankOffset 8192 (2 * prg16) (r.prgBank (2 * prg16) addr) addr.toNat

/-- MMC1's 4 KiB character bank for an address (21_mappers.md R174). -/
def Mmc1.chrBank (r : Mmc1) (addr : BitVec 13) : Nat :=
  if r.control.getLsbD 4 then
    if addr.toNat < 0x1000 then r.chr0.toNat else r.chr1.toNat
  else (r.chr0 &&& 0x1E).toNat ||| (addr.toNat >>> 12)

/-- MMC3's 1 KiB character bank for an address (21_mappers.md R193): slot `s`, or `s xor 4` when bank-select bit 7
is set, in the table `T`. -/
def Mmc3.chrBank (r : Mmc3) (addr : BitVec 13) : Nat :=
  let s := addr.toNat / 1024
  let slot := if r.bankSelect.getLsbD 7 then s ^^^ 4 else s
  match slot with
  | 0 => (r.r[0] &&& 0xFE).toNat
  | 1 => (r.r[0] ||| 1).toNat
  | 2 => (r.r[1] &&& 0xFE).toNat
  | 3 => (r.r[1] ||| 1).toNat
  | 4 => (r.r[2]).toNat
  | 5 => (r.r[3]).toNat
  | 6 => (r.r[4]).toNat
  | _ => (r.r[5]).toNat

/-- `map_for_chr_rom(addr)`: the offset into character memory of a pattern address (21_mappers.md R157, R167, R174,
R183, R187, R193, R204). -/
def Mapper.mapChr (m : Mapper) (chr8 : Nat) (addr : BitVec 13) : Nat :=
  let units := chrUnits chr8
  match m with
  | .nrom => addr.toNat
  | .mmc1 r => bankOffset 4096 (2 * units) (r.chrBank addr) addr.toNat
  | .uxrom _ => addr.toNat
  | .cnrom bank => bankOffset 8192 units bank.toNat addr.toNat
  | .mmc3 r => bankOffset 1024 (8 * units) (r.chrBank addr) addr.toNat
  | .fme7 r => bankOffset 1024 (8 * units) (r.chr.getD (addr.toNat / 1024) 0).toNat addr.toNat

/-- An MMC1 register write: reset the sequence, or shift one bit in and commit on the fifth
(21_mappers.md R171, R172). -/
def Mmc1.store (r : Mmc1) (addr : Word) (v : Byte) : Mmc1 :=
  if v.getLsbD 7 then { r with shift := 0, count := 0, control := r.control ||| 0x0C }
  else
    let shift := (r.shift >>> 1) ||| ((v.extractLsb' 0 1).setWidth 5 <<< 4)
    if r.count + 1 = 5 then
      let r' := { r with shift := 0, count := 0 }
      match (addr.extractLsb' 13 2).toNat with
      | 0 => { r' with control := shift }
      | 1 => { r' with chr0 := shift }
      | 2 => { r' with chr1 := shift }
      | _ => { r' with prg := shift }
    else { r with shift := shift, count := r.count + 1 }

/-- An MMC3 register write, by 8 KiB window and parity of the address (21_mappers.md R191). -/
def Mmc3.store (r : Mmc3) (addr : Word) (v : Byte) : Mmc3 :=
  match (addr.extractLsb' 13 2).toNat, addr.getLsbD 0 with
  | 0, false => { r with bankSelect := v }
  | 0, true => { r with r := r.r.setIfInBounds (r.bankSelect.extractLsb' 0 3).toNat v }
  | 1, false => { r with mirroring := v.extractLsb' 0 1 }
  | 1, true => { r with prgRamProtect := v }
  | 2, false => { r with irqLatch := v, irqReload := true }
  | 2, true => { r with irqReload := true }
  | _, odd => { r with irqEnabled := odd }

/-- FME-7's parameter write to the register the command selects (21_mappers.md R202). -/
def Fme7.parameter (r : Fme7) (v : Byte) : Fme7 :=
  match r.command.toNat with
  | 0x8 => { r with prg := r.prg.set 0 v }
  | 0x9 => { r with prg := r.prg.set 1 v }
  | 0xA => { r with prg := r.prg.set 2 v }
  | 0xB => { r with prg := r.prg.set 3 v }
  | 0xC => { r with mirroring := v.extractLsb' 0 2 }
  | 0xD => { r with irqControl := v }
  | 0xE => { r with irqCounter := joinWord (hiByte r.irqCounter) v }
  | 0xF => { r with irqCounter := joinWord v (loByte r.irqCounter) }
  | c => { r with chr := r.chr.setIfInBounds c v }

/-- An FME-7 register write: command, parameter, or nothing, by the address (21_mappers.md R201). -/
def Fme7.store (r : Fme7) (addr : Word) (v : Byte) : Fme7 :=
  match (addr.extractLsb' 13 2).toNat with
  | 0 => { r with command := v.extractLsb' 0 4 }
  | 1 => r.parameter v
  | _ => r

/-- `store(addr, v)` for an address in 0x8000–0xFFFF (21_mappers.md R155, R168, R181, R186). -/
def Mapper.store (m : Mapper) (addr : Word) (v : Byte) : Mapper :=
  match m with
  | .nrom => .nrom
  | .mmc1 r => .mmc1 (r.store addr v)
  | .uxrom _ => .uxrom v
  | .cnrom _ => .cnrom v
  | .mmc3 r => .mmc3 (r.store addr v)
  | .fme7 r => .fme7 (r.store addr v)

/-- MMC3's scanline counter (21_mappers.md R195). -/
def Mmc3.driveIrq (r : Mmc3) : Bool × Mmc3 :=
  if r.irqReload then (false, { r with irqCounter := r.irqLatch, irqReload := false })
  else
    let c := r.irqCounter - 1
    if c = 0 then (r.irqEnabled, { r with irqCounter := c, irqReload := true })
    else (false, { r with irqCounter := c })

/-- FME-7's down-counter (21_mappers.md R206). -/
def Fme7.driveIrq (r : Fme7) : Bool × Fme7 :=
  (r.irqCounter == 0 && r.irqControl.getLsbD 0, { r with irqCounter := r.irqCounter - 1 })

/-- `drive_irq_counter()`: whether a cartridge IRQ is asserted this tick, and the registers after it
(21_mappers.md R158, R168, R176, R183, R187, R195, R206). -/
def Mapper.driveIrq (m : Mapper) : Bool × Mapper :=
  match m with
  | .nrom => (false, .nrom)
  | .mmc1 r => (false, .mmc1 r)
  | .uxrom bank => (false, .uxrom bank)
  | .cnrom bank => (false, .cnrom bank)
  | .mmc3 r => (r.driveIrq.1, .mmc3 r.driveIrq.2)
  | .fme7 r => (r.driveIrq.1, .fme7 r.driveIrq.2)

/-- `has_mirroring_type()` (21_mappers.md R160, R168, R175, R183, R187, R194, R205). -/
def Mapper.hasMirroring : Mapper → Bool
  | .nrom | .uxrom _ | .cnrom _ => false
  | .mmc1 _ | .mmc3 _ | .fme7 _ => true

/-- `mirroring_type()`, with `DUMMY_MIRRORING` for the variants without control (21_mappers.md R160, R175, R194,
R205). -/
def Mapper.mirroringType (m : Mapper) (dummy : Mirroring) : Mirroring :=
  match m with
  | .nrom | .uxrom _ | .cnrom _ => dummy
  | .mmc1 r =>
    match (r.control.extractLsb' 0 2).toNat with
    | 0 => .singleScreenLower
    | 1 => .singleScreenUpper
    | 2 => .vertical
    | _ => .horizontal
  | .mmc3 r => if r.mirroring = 0 then .vertical else .horizontal
  | .fme7 r =>
    match r.mirroring.toNat with
    | 0 => .vertical
    | 1 => .horizontal
    | 2 => .singleScreenLower
    | _ => .singleScreenUpper

/-- MMC1 at power-on (21_mappers.md R178). -/
def Mmc1.powerOn : Mmc1 := ⟨0, 0, 0x0C, 0, 0, 0⟩

/-- MMC3 at power-on (21_mappers.md R190). -/
def Mmc3.powerOn : Mmc3 := ⟨0, #v[0, 0, 0, 0, 0, 0, 0, 0], 0, 0, 0, 0, false, false⟩

/-- FME-7 at power-on (21_mappers.md R200). -/
def Fme7.powerOn : Fme7 := ⟨0, #v[0, 0, 0, 0, 0, 0, 0, 0], #v[0, 0, 0, 0], 0, 0, 0⟩

/-- The variant a header's mapper number selects, in its power-on state (21_mappers.md R145; 70_reset_and_hazards.md
R524). The fixed numbers are tried before `FME7_MAPPER_ID`, in the table's order (log 12). -/
def Mapper.ofId (fme7Id id : Byte) : Option Mapper :=
  match id.toNat with
  | 0 => some .nrom
  | 1 => some (.mmc1 Mmc1.powerOn)
  | 2 => some (.uxrom 0)
  | 3 => some (.cnrom 0)
  | 4 => some (.mmc3 Mmc3.powerOn)
  | _ => if id = fme7Id then some (.fme7 Fme7.powerOn) else none

/-- Register values every store keeps: MMC1's write counter is 0 to 4 (21_mappers.md R170). The other fields' widths
are their types'. -/
def Mapper.legal : Mapper → Bool
  | .mmc1 r => r.count ≤ 4
  | _ => true

end Sys2Proof.Machine
end

