-- ==== Sys2Proof/Machine/Ops.lean ====
section
/-! DEFINITION. The named operations over the state: register writes, the device interfaces, the bus (20_memory.md),
the stack (00_scope.md R14), taking an interrupt or BRK and returning from it (60_exceptions.md). -/

namespace Sys2Proof.Machine

/-! ### Registers -/

def State.setPc (s : State) (v : Word) : State := { s with pc := v }
def State.setSp (s : State) (v : Byte) : State := { s with sp := v }
def State.setA (s : State) (v : Byte) : State := { s with a := v }
def State.setX (s : State) (v : Byte) : State := { s with x := v }
def State.setY (s : State) (v : Byte) : State := { s with y := v }
def State.setP (s : State) (v : Byte) : State := { s with p := v }

/-- `Stall(n)` (00_scope.md R15, 10_state.md R45). -/
def State.addStall (s : State) (n : Nat) : State := { s with stall := s.stall + n }

def State.setRam (s : State) (m : Memory) : State := { s with ram := m }
def State.setJoy1 (s : State) (j : Joypad) : State := { s with joy1 := j }
def State.setJoy2 (s : State) (j : Joypad) : State := { s with joy2 := j }
def State.setMapper (s : State) (m : Mapper) : State := { s with mapper := m }
def State.setChrRam (s : State) (m : Option Memory) : State := { s with chrRam := m }
def State.setPpu (s : State) (d : Ppu) : State := { s with ppu := d }
def State.setApu (s : State) (d : Apu) : State := { s with apu := d }
def State.setInputs (s : State) (d : Inputs) : State := { s with inputs := d }

/-- Read one flag of `P`. -/
def State.flag (s : State) (f : Flag) : Bool := getFlag s.p f

/-- Write one flag of `P`. -/
def State.setFlag (s : State) (f : Flag) (b : Bool) : State := s.setP (putFlag s.p f b)

/-- `SetNZ(v)` (00_scope.md R15). -/
def State.setNZ (s : State) (v : Byte) : State := s.setP (putNZ s.p v)

/-! ### Addresses -/

/-- `zext_16(v)` (00_scope.md R11). -/
def zext16 (v : Byte) : Word := v.setWidth 16

/-- `sext_16(v)` (00_scope.md R11). -/
def sext16 (v : Byte) : Word := v.signExtend 16

/-- The page of an address, `addr & 0xFF00` (00_scope.md R17). -/
def page (addr : Word) : Word := addr &&& 0xFF00

/-- The address after `addr` in its own 256-byte page (00_scope.md R13, `Read16Wrap`). -/
def nextInPage (addr : Word) : Word := page addr ||| zext16 (loByte (addr + 1))

/-- The stack address of a stack-pointer value, `0x0100 | SP` (00_scope.md R14, 10_state.md R34). -/
def stackAddr (sp : Byte) : Word := 0x0100 ||| zext16 sp

/-! ### Devices -/

/-- The next PPU register-read result: the head of its queue, or the next free value (93_implementation_defined.md I3;
log 6). -/
def drawPpuRead (d : Inputs) : Byte × Inputs :=
  match d.ppuReads with
  | v :: rest => (v, { d with ppuReads := rest })
  | [] => (Config.freeRead d.freeReads, { d with freeReads := d.freeReads + 1 })

/-- The next APU register-read result (93_implementation_defined.md I4; log 6). -/
def drawApuRead (d : Inputs) : Byte × Inputs :=
  match d.apuReads with
  | v :: rest => (v, { d with apuReads := rest })
  | [] => (Config.freeRead d.freeReads, { d with freeReads := d.freeReads + 1 })

/-- The PPU with one more recorded event. -/
def recordPpu (d : Ppu) (e : PpuEvent) : Ppu := { d with events := e :: d.events }

/-- The APU with one more recorded event. -/
def recordApu (d : Apu) (e : ApuEvent) : Apu := { d with events := e :: d.events }

/-- `PPU_read(i)` (20_memory.md R87, R96). -/
def ppuRead (i : BitVec 3) (s : State) : Byte × State :=
  let r := drawPpuRead s.inputs
  (r.1, (s.setInputs r.2).setPpu (recordPpu s.ppu (.read s.ppu.clocks i r.1)))

/-- `PPU_write(i, v)`, a recorded event (20_memory.md R87, R96). -/
def ppuWrite (i : BitVec 3) (v : Byte) (s : State) : State :=
  s.setPpu (recordPpu s.ppu (.write s.ppu.clocks i v))

/-- `APU_read(i)` (20_memory.md R90, R99). -/
def apuRead (i : BitVec 5) (s : State) : Byte × State :=
  let r := drawApuRead s.inputs
  (r.1, (s.setInputs r.2).setApu (recordApu s.apu (.read s.apu.clocks i r.1)))

/-- `APU_write(i, v)`, a recorded event (20_memory.md R90, R99). -/
def apuWrite (i : BitVec 5) (v : Byte) (s : State) : State :=
  s.setApu (recordApu s.apu (.write s.apu.clocks i v))

/-- `JoyStrobe(v)` on one port (20_memory.md R106). -/
def Joypad.strobe (j : Joypad) (v : Byte) : Joypad :=
  { j with latch := v.getLsbD 0, cursor := if v.getLsbD 0 then 0 else j.cursor }

/-- What `JoyRead(J)` returns: the bit under the cursor, 1 past bit 7, bits 7 to 1 clear (20_memory.md R107). -/
def Joypad.value (j : Joypad) : Byte :=
  if 8 ≤ j.cursor then 1 else if j.buttons.getLsbD j.cursor then 1 else 0

/-- The port after `JoyRead(J)`: the cursor advances when not strobed and stops at 8 (20_memory.md R107). -/
def Joypad.advance (j : Joypad) : Joypad :=
  if !j.latch && decide (j.cursor < 8) then { j with cursor := j.cursor + 1 } else j

/-! ### The bus -/

/-- The owner of an address (20_memory.md R84). -/
inductive Region where
  /-- Internal RAM or the cartridge RAM window: the byte array at an index (R85, R94). -/
  | ram (index : Nat)
  | ppu (i : BitVec 3)
  | oamDma
  | joyStrobe
  | joyTwo
  | apu (i : BitVec 5)
  | unassigned
  | prg
  deriving DecidableEq, Repr

/-- The partition of the address space, first matching row (20_memory.md R82 to R84). -/
def busRegion (addr : Word) : Region :=
  if addr.toNat ≤ 0x1FFF then .ram (addr &&& 0x07FF).toNat
  else if addr.toNat ≤ 0x3FFF then .ppu (addr.extractLsb' 0 3)
  else if addr = 0x4014 then .oamDma
  else if addr = 0x4016 then .joyStrobe
  else if addr = 0x4017 then .joyTwo
  else if addr.toNat ≤ 0x4017 then .apu (addr.extractLsb' 0 5)
  else if addr.toNat ≤ 0x401F then .unassigned
  else if addr.toNat ≤ 0x7FFF then .ram addr.toNat
  else .prg

/-- The program-ROM byte an address reads (20_memory.md R95). -/
def State.prgByte (s : State) (addr : Word) : Byte :=
  s.cart.prg.read (s.mapper.map s.cart.prg16 addr)

/-- `load(addr)`, `MemRead(addr, 1)`: total, one byte, with the side effects of the address
(20_memory.md R81, R82). -/
def load (addr : Word) (s : State) : Byte × State :=
  match busRegion addr with
  | .ram k => (s.ram.read k, s)
  | .ppu i => ppuRead i s
  | .oamDma => (0x00, s)
  | .joyStrobe => (s.joy1.value, s.setJoy1 s.joy1.advance)
  | .joyTwo => (s.joy2.value, s.setJoy2 s.joy2.advance)
  | .apu i => apuRead i s
  | .unassigned => (0x00, s)
  | .prg => (s.prgByte addr, s)

/-- The first `n` of the OAM DMA's 256 copies, in increasing order: a bus load from the page, then the bus store to
0x2004, which is a write of PPU register 4 (20_memory.md R110, R87). -/
def oamCopy (pg : Byte) : Nat → State → State
  | 0, s => s
  | n + 1, s =>
    let s' := oamCopy pg n s
    let r := load (joinWord pg (BitVec.ofNat 8 n)) s'
    ppuWrite 4 r.1 r.2

/-- `OamDma(v)` (20_memory.md R110). -/
def oamDma (pg : Byte) (s : State) : State := (oamCopy pg 256 s).addStall 514

/-- `store(addr, v)`, `MemWrite(addr, 1, v)`: total, one byte (20_memory.md R81, R83). -/
def store (addr : Word) (v : Byte) (s : State) : State :=
  match busRegion addr with
  | .ram k => s.setRam (s.ram.write k v)
  | .ppu i => ppuWrite i v s
  | .oamDma => oamDma v s
  | .joyStrobe => (s.setJoy1 (s.joy1.strobe v)).setJoy2 (s.joy2.strobe v)
  | .joyTwo => apuWrite 0x17 v s
  | .apu i => apuWrite i v s
  | .unassigned => s
  | .prg => s.setMapper (s.mapper.store addr v)

/-- `Read16(addr)`: low byte first (00_scope.md R13). -/
def read16 (addr : Word) (s : State) : Word × State :=
  let lo := load addr s
  let hi := load (addr + 1) lo.2
  (joinWord hi.1 lo.1, hi.2)

/-- `Read16Wrap(addr)`: the high byte from the same page (00_scope.md R13). -/
def read16Wrap (addr : Word) (s : State) : Word × State :=
  let lo := load addr s
  let hi := load (nextInPage addr) lo.2
  (joinWord hi.1 lo.1, hi.2)

/-! ### The stack (00_scope.md R14) -/

/-- `Push(v)`: write, then decrement. -/
def push (v : Byte) (s : State) : State :=
  let s1 := store (stackAddr s.sp) v s
  s1.setSp (s1.sp - 1)

/-- `Push16(w)`: high byte first. -/
def push16 (w : Word) (s : State) : State := push (loByte w) (push (hiByte w) s)

/-- `Pull()`: increment, then read. -/
def pull (s : State) : Byte × State :=
  let s1 := s.setSp (s.sp + 1)
  load (stackAddr s1.sp) s1

/-- `Pull16()`: low byte first. -/
def pull16 (s : State) : Word × State :=
  let lo := pull s
  let hi := pull lo.2
  (joinWord hi.1 lo.1, hi.2)

/-! ### Handler entry and return -/

/-- The NMI vector's address (60_exceptions.md R481). -/
def nmiVector : Word := 0xFFFA

/-- The RESET vector's address (60_exceptions.md R481). -/
def resetVector : Word := 0xFFFC

/-- The IRQ/BRK vector's address (60_exceptions.md R481). -/
def irqVector : Word := 0xFFFE

/-- Handler entry, the one shared operation of BRK, NMI and IRQ: `P.B` as the source has it and `P.U <- 1`, push `PC`
(high byte first), push `P`, `P.I <- 1`, `PC` from the vector through the bus (60_exceptions.md R479, R480;
42_control.md R440). -/
def enterHandler (brk : Bool) (vector : Word) (s : State) : State :=
  let s1 := (s.setFlag .b brk).setFlag .u true
  let s2 := push s1.p (push16 s1.pc s1)
  let s3 := s2.setFlag .i true
  let r := read16 vector s3
  r.2.setPc r.1

/-- `Enter(vector)` of NMI and IRQ: handler entry with B clear, and the entry's stall (60_exceptions.md R479, R482). -/
def serviceInterrupt (vector : Word) (s : State) : State :=
  (enterHandler false vector s).addStall s.params.intEntryCycles

/-- Return from a handler: `P <- Pull(); PC <- Pull16()` (42_control.md R424, 60_exceptions.md R486). -/
def leaveHandler (s : State) : State :=
  let pulled := pull s
  let r := pull16 (pulled.2.setP pulled.1)
  r.2.setPc r.1

end Sys2Proof.Machine
end

