-- ==== Sys2Proof/Machine/Clock.lean ====
section
/-! DEFINITION. Clocking the external devices after the instruction (31_step.md R298; 20_memory.md R98, R100, R101). -/

namespace Sys2Proof.Machine

/-- `f` applied `n` times, the first application first. -/
def iterate (f : State → State) : Nat → State → State
  | 0, s => s
  | n + 1, s => iterate f n (f s)

/-- A PPU write of character memory: it lands in character RAM and has no effect on character ROM
(21_mappers.md R159). -/
def chrWrite (addr : BitVec 13) (v : Byte) (s : State) : State :=
  match s.chrRam with
  | some m => s.setChrRam (some (m.write (s.mapper.mapChr s.cart.chr8 addr) v))
  | none => s

/-- The character byte the PPU reads: character RAM or character ROM at the mapper's offset (21_mappers.md R157). -/
def chrByte (addr : BitVec 13) (s : State) : Byte :=
  match s.chrRam with
  | some m => m.read (s.mapper.mapChr s.cart.chr8 addr)
  | none => s.cart.chr.read (s.mapper.mapChr s.cart.chr8 addr)

/-- The PPU's call of `drive_irq_counter()`: a true answer sets `PPU.irq_flag`, a false one leaves it
(21_mappers.md R158; 20_memory.md R98). -/
def driveIrqCounter (s : State) : State :=
  let r := s.mapper.driveIrq
  (s.setMapper r.2).setPpu { s.ppu with irqFlag := s.ppu.irqFlag || r.1 }

/-- One action of the PPU inside one of its clocks (20_memory.md R98). That a frame advance adds 1 to an unbounded
number is a DESIGN CHOICE: R97 and R98 give the counter no width and no step (log 5). -/
def ppuAct (act : PpuAction) (s : State) : State :=
  match act with
  | .putNmi b => s.setPpu { s.ppu with nmiFlag := b }
  | .putIrq b => s.setPpu { s.ppu with irqFlag := b }
  | .driveIrqCounter => driveIrqCounter s
  | .writeChr addr v => chrWrite addr v s
  | .readChr addr => s.setPpu (recordPpu s.ppu (.chrRead s.ppu.clocks addr (chrByte addr s)))
  | .readMirroring =>
    s.setPpu (recordPpu s.ppu
      (.mirroringRead s.ppu.clocks s.mapper.hasMirroring (s.mapper.mirroringType s.params.dummyMirroring)))
  | .advanceFrame => s.setPpu { s.ppu with frame := s.ppu.frame + 1 }

/-- The actions of one PPU clock in order. -/
def ppuActs : List PpuAction → State → State
  | [], s => s
  | act :: rest, s => ppuActs rest (ppuAct act s)

/-- `PPU_clock()`: the actions queued for this clock, none beyond the queue (20_memory.md R98; log 7). -/
def ppuClock (s : State) : State :=
  let ticked := s.setPpu { s.ppu with clocks := s.ppu.clocks + 1 }
  match s.inputs.ppuClocks with
  | [] => ticked
  | acts :: rest => ppuActs acts (ticked.setInputs { s.inputs with ppuClocks := rest })

/-- The sample fetch after an APU clock: an ordinary bus load, delivered to the APU, without a stall
(20_memory.md R101). That neither the delivery nor a register read of that load changes an interrupt flag or the frame
counter at once is a DESIGN CHOICE: R101 is silent on it (log 16). -/
def deliverSample (addr : Word) (s : State) : State :=
  let r := load addr s
  r.2.setApu (recordApu r.2.apu (.sample r.2.apu.clocks addr r.1))

/-- `APU_clock()`, then the sample check (20_memory.md R100, R101; 31_step.md R298; log 7). -/
def apuClock (s : State) : State :=
  let ticked := s.setApu { s.apu with clocks := s.apu.clocks + 1 }
  match s.inputs.apuClocks with
  | [] => ticked
  | t :: rest =>
    let s1 := ticked.setInputs { s.inputs with apuClocks := rest }
    let s2 := s1.setApu { s1.apu with irqFlag := t.putIrq.getD s1.apu.irqFlag }
    match t.sample with
    | none => s2
    | some addr => deliverSample addr s2

/-- One processor cycle: `PPU_RATIO` PPU clocks, then one APU clock with its sample check (31_step.md R298). -/
def clockCycle (s : State) : State := apuClock (iterate ppuClock s.params.ppuRatio s)

/-- `ClockDevices(cycles)` (31_step.md R298). -/
def clockDevices (cycles : Nat) (s : State) : State := iterate clockCycle cycles s

/-- The end of a step: the cycle count is base plus stall, the devices are clocked by it, the host gets it, and
`stall` is 0 again (31_step.md R297 to R299; 10_state.md R45). -/
def finishStep (baseCycles : Nat) (s : State) : State :=
  let cycles := baseCycles + s.stall
  { clockDevices cycles s with stall := 0, cycles := cycles }

end Sys2Proof.Machine
end

