-- ==== Sys2Proof/Machine/Operands.lean ====
section
/-! DEFINITION. The addressing-mode resolver (30_encoding.md R248 to R261) and the operand accesses built on it. The
operand bytes are in the instruction: the step has fetched them and `PC` is past them (log 8). -/

namespace Sys2Proof.Machine

/-- What the resolver returns: the accumulator reference, an immediate byte, or an effective address
(30_encoding.md R248, R249). -/
inductive Ref where
  | acc
  | imm (v : Byte)
  | mem (ea : Word)
  deriving DecidableEq, Repr

/-- The resolver's result: the reference, and whether adding the index crossed a page (30_encoding.md R254). -/
structure Resolved where
  ref : Ref
  crossed : Bool
  deriving DecidableEq, Repr

/-- An indexed 16-bit address, with its page-crossing test (30_encoding.md R254, R255, R258). -/
def indexed (base : Word) (index : Byte) : Resolved :=
  let ea := base + zext16 index
  ⟨.mem ea, page base != page ea⟩

/-- `resolve(op)` (30_encoding.md R248): pointer reads go through the bus; the operand at `EA` is not touched. -/
def resolve (o : Operand) (s : State) : Resolved × State :=
  match o with
  | .acc => (⟨.acc, false⟩, s)
  | .imm v => (⟨.imm v, false⟩, s)
  | .zp a => (⟨.mem (zext16 a), false⟩, s)
  | .zpX a => (⟨.mem (zext16 (a + s.x)), false⟩, s)
  | .zpY a => (⟨.mem (zext16 (a + s.y)), false⟩, s)
  | .abs a => (⟨.mem a, false⟩, s)
  | .absX a => (indexed a s.x, s)
  | .absY a => (indexed a s.y, s)
  | .ind ptr =>
    let r := read16Wrap ptr s
    (⟨.mem r.1, false⟩, r.2)
  | .indX z =>
    let r := read16Wrap (zext16 (z + s.x)) s
    (⟨.mem r.1, false⟩, r.2)
  | .indY z =>
    let r := read16Wrap (zext16 z) s
    (indexed r.1 s.y, r.2)

/-- The resolver with the page-crossing stall of the kinds that take it (30_encoding.md R260). -/
def resolveStalling (o : Operand) (s : State) : Ref × State :=
  let r := resolve o s
  (r.1.ref, if r.1.crossed then r.2.addStall 1 else r.2)

/-- `OPERAND` of a resolved reference (30_encoding.md R261). -/
def loadRef (r : Ref) (s : State) : Byte × State :=
  match r with
  | .acc => (s.a, s)
  | .imm v => (v, s)
  | .mem ea => load ea s

/-- Write to a resolved reference. No well-formed store has an immediate one. -/
def storeRef (r : Ref) (v : Byte) (s : State) : State :=
  match r with
  | .acc => s.setA v
  | .imm _ => s
  | .mem ea => store ea v s

/-- `OPERAND` for the kinds that take the page-crossing stall: ADC, AND, CMP, EOR, LDA, LDX, LDY, ORA, SBC
(30_encoding.md R260, R261). -/
def readStalling (o : Operand) (s : State) : Byte × State :=
  let r := resolveStalling o s
  loadRef r.1 r.2

/-- `OPERAND` for the other reading kinds (30_encoding.md R261). -/
def readPlain (o : Operand) (s : State) : Byte × State :=
  let r := resolve o s
  loadRef r.1.ref r.2

/-- A store instruction's write of `EA`, with no read of it (20_memory.md R114, 40_load_store.md R323). -/
def writeOperand (o : Operand) (v : Byte) (s : State) : State :=
  let r := resolve o s
  storeRef r.1.ref v r.2

/-- Load, transform, store (41_arith_logic.md R380): gives the byte read and the state with `f` of it written to the
same reference. -/
def modifyOperand (o : Operand) (f : Byte → Byte) (s : State) : Byte × State :=
  let r := resolve o s
  let v := loadRef r.1.ref r.2
  (v.1, storeRef r.1.ref (f v.1) v.2)

end Sys2Proof.Machine
end

