-- ==== Sys2Proof/Machine/ArithLogic.lean ====
section
/-! DEFINITION. Arithmetic, logic, compare, increment and shift instructions (41_arith_logic.md), one definition for each kind. -/

namespace Sys2Proof.Machine

/-- The common part of ADC and SBC: `A <- sum & 0xFF` with C, V, N and Z; `m` is the addend
(41_arith_logic.md R360, R361, R385). -/
def addToA (m : Byte) (overflow : Bool) (s : State) : State :=
  let r := sumByte s.a m (s.flag .c)
  let c := sumCarry s.a m (s.flag .c)
  (((s.setFlag .c c).setFlag .v overflow).setA r).setNZ r

/-- ADC: `A + m + P.C`, binary whatever `P.D` holds (41_arith_logic.md R360, R385). -/
def execAdc (o : Operand) (s : State) : Host.Outcome State Fault Refusal :=
  let r := readStalling o s
  let result := sumByte r.2.a r.1 (r.2.flag .c)
  .next (addToA r.1 (adcOverflow r.2.a r.1 result) r.2)

/-- SBC: `A + (m ^ 0xFF) + P.C`, binary (41_arith_logic.md R361, R385). -/
def execSbc (o : Operand) (s : State) : Host.Outcome State Fault Refusal :=
  let r := readStalling o s
  let result := sumByte r.2.a (r.1 ^^^ 0xFF) (r.2.flag .c)
  .next (addToA (r.1 ^^^ 0xFF) (sbcOverflow r.2.a r.1 result) r.2)

/-- AND: `A <- A & MemRead(EA, 1); SetNZ(A)` (41_arith_logic.md R362). -/
def execAnd (o : Operand) (s : State) : Host.Outcome State Fault Refusal :=
  let r := readStalling o s
  let v := r.2.a &&& r.1
  .next ((r.2.setA v).setNZ v)

/-- ORA: `A <- A | MemRead(EA, 1); SetNZ(A)` (41_arith_logic.md R363). -/
def execOra (o : Operand) (s : State) : Host.Outcome State Fault Refusal :=
  let r := readStalling o s
  let v := r.2.a ||| r.1
  .next ((r.2.setA v).setNZ v)

/-- EOR: `A <- A ^ MemRead(EA, 1); SetNZ(A)` (41_arith_logic.md R364). -/
def execEor (o : Operand) (s : State) : Host.Outcome State Fault Refusal :=
  let r := readStalling o s
  let v := r.2.a ^^^ r.1
  .next ((r.2.setA v).setNZ v)

/-- BIT: Z from `A & m`, N and V from bits 7 and 6 of `m` (41_arith_logic.md R365). -/
def execBit (o : Operand) (s : State) : Host.Outcome State Fault Refusal :=
  let r := readPlain o s
  let m := r.1
  .next (((r.2.setFlag .z (r.2.a &&& m == 0)).setFlag .n (m.getLsbD 7)).setFlag .v (m.getLsbD 6))

/-- CMP: `Compare(A, MemRead(EA, 1))` (41_arith_logic.md R366, R369). -/
def execCmp (o : Operand) (s : State) : Host.Outcome State Fault Refusal :=
  let r := readStalling o s
  .next (r.2.setP (putCompare r.2.p r.2.a r.1))

/-- CPX: `Compare(X, MemRead(EA, 1))` (41_arith_logic.md R367, R369). -/
def execCpx (o : Operand) (s : State) : Host.Outcome State Fault Refusal :=
  let r := readPlain o s
  .next (r.2.setP (putCompare r.2.p r.2.x r.1))

/-- CPY: `Compare(Y, MemRead(EA, 1))` (41_arith_logic.md R368, R369). -/
def execCpy (o : Operand) (s : State) : Host.Outcome State Fault Refusal :=
  let r := readPlain o s
  .next (r.2.setP (putCompare r.2.p r.2.y r.1))

/-- INC: memory `u8(v + 1)`, then `SetNZ` (41_arith_logic.md R370, R380). -/
def execInc (o : Operand) (s : State) : Host.Outcome State Fault Refusal :=
  let r := modifyOperand o (· + 1) s
  .next (r.2.setNZ (r.1 + 1))

/-- DEC: memory `u8(v - 1)`, then `SetNZ` (41_arith_logic.md R371, R380). -/
def execDec (o : Operand) (s : State) : Host.Outcome State Fault Refusal :=
  let r := modifyOperand o (· - 1) s
  .next (r.2.setNZ (r.1 - 1))

/-- INX: `X <- u8(X + 1); SetNZ(X)` (41_arith_logic.md R372). -/
def execInx (s : State) : Host.Outcome State Fault Refusal :=
  .next ((s.setX (s.x + 1)).setNZ (s.x + 1))

/-- INY: `Y <- u8(Y + 1); SetNZ(Y)` (41_arith_logic.md R373). -/
def execIny (s : State) : Host.Outcome State Fault Refusal :=
  .next ((s.setY (s.y + 1)).setNZ (s.y + 1))

/-- DEX: `X <- u8(X - 1); SetNZ(X)` (41_arith_logic.md R374). -/
def execDex (s : State) : Host.Outcome State Fault Refusal :=
  .next ((s.setX (s.x - 1)).setNZ (s.x - 1))

/-- DEY: `Y <- u8(Y - 1); SetNZ(Y)` (41_arith_logic.md R375). -/
def execDey (s : State) : Host.Outcome State Fault Refusal :=
  .next ((s.setY (s.y - 1)).setNZ (s.y - 1))

/-- ASL: `P.C <- v[7]`, the shifted value back, `SetNZ` (41_arith_logic.md R376, R380). -/
def execAsl (o : Operand) (s : State) : Host.Outcome State Fault Refusal :=
  let r := modifyOperand o shiftLeft s
  .next ((r.2.setFlag .c (r.1.getLsbD 7)).setNZ (shiftLeft r.1))

/-- LSR: `P.C <- v[0]`, the shifted value back, `SetNZ` (41_arith_logic.md R377, R380). -/
def execLsr (o : Operand) (s : State) : Host.Outcome State Fault Refusal :=
  let r := modifyOperand o shiftRight s
  .next ((r.2.setFlag .c (r.1.getLsbD 0)).setNZ (shiftRight r.1))

/-- ROL: rotation through the carry the instruction found, `P.C <- v[7]`, `SetNZ`
(41_arith_logic.md R378, R380). -/
def execRol (o : Operand) (s : State) : Host.Outcome State Fault Refusal :=
  let c := s.flag .c
  let r := modifyOperand o (rotateLeft c) s
  .next ((r.2.setFlag .c (r.1.getLsbD 7)).setNZ (rotateLeft c r.1))

/-- ROR: rotation through the carry the instruction found, `P.C <- v[0]`, `SetNZ`
(41_arith_logic.md R379, R380). -/
def execRor (o : Operand) (s : State) : Host.Outcome State Fault Refusal :=
  let c := s.flag .c
  let r := modifyOperand o (rotateRight c) s
  .next ((r.2.setFlag .c (r.1.getLsbD 0)).setNZ (rotateRight c r.1))

end Sys2Proof.Machine
end

