-- ==== Sys2Proof/Machine/Control.lean ====
section
/-! DEFINITION. Control transfer, flag, system and INVALID instructions (42_control.md), one definition for each kind. -/

namespace Sys2Proof.Machine

/-- JMP: `PC <- EA`, absolute or through the pointer with the page wrap (42_control.md R420, R421;
30_encoding.md R253, R256). The other reference forms are no JMP's; they leave `PC`. -/
def execJmp (o : Operand) (s : State) : Host.Outcome State Fault Refusal :=
  let r := resolve o s
  match r.1.ref with
  | .mem ea => .next (r.2.setPc ea)
  | .acc | .imm _ => .next r.2

/-- JSR: `Push16(u16(PC - 1)); PC <- EA` (42_control.md R422). -/
def execJsr (target : Word) (s : State) : Host.Outcome State Fault Refusal :=
  .next ((push16 (s.pc - 1) s).setPc target)

/-- RTS: `PC <- u16(Pull16() + 1)` (42_control.md R423). -/
def execRts (s : State) : Host.Outcome State Fault Refusal :=
  let r := pull16 s
  .next (r.2.setPc (r.1 + 1))

/-- RTI: `P <- Pull(); PC <- Pull16()` (42_control.md R424). -/
def execRti (s : State) : Host.Outcome State Fault Refusal :=
  .next (leaveHandler s)

/-- CLC: `P.C <- 0` (42_control.md R430). -/
def execClc (s : State) : Host.Outcome State Fault Refusal :=
  .next (s.setFlag .c false)

/-- CLD: `P.D <- 0` (42_control.md R431). -/
def execCld (s : State) : Host.Outcome State Fault Refusal :=
  .next (s.setFlag .d false)

/-- CLI: `P.I <- 0` (42_control.md R432). -/
def execCli (s : State) : Host.Outcome State Fault Refusal :=
  .next (s.setFlag .i false)

/-- CLV: `P.V <- 0` (42_control.md R433). -/
def execClv (s : State) : Host.Outcome State Fault Refusal :=
  .next (s.setFlag .v false)

/-- SEC: `P.C <- 1` (42_control.md R434). -/
def execSec (s : State) : Host.Outcome State Fault Refusal :=
  .next (s.setFlag .c true)

/-- SED: `P.D <- 1` (42_control.md R435). -/
def execSed (s : State) : Host.Outcome State Fault Refusal :=
  .next (s.setFlag .d true)

/-- SEI: `P.I <- 1` (42_control.md R436). -/
def execSei (s : State) : Host.Outcome State Fault Refusal :=
  .next (s.setFlag .i true)

/-- NOP: nothing (42_control.md R437). -/
def execNop (s : State) : Host.Outcome State Fault Refusal :=
  .next s

/-- BRK: skip the padding byte, then handler entry with B set through the IRQ/BRK vector; not masked, no entry
stall (42_control.md R440). -/
def execBrk (s : State) : Host.Outcome State Fault Refusal :=
  .next (enterHandler true irqVector (s.setPc (s.pc + 1)))

/-- `Branch(cond)`: `PC` is past the offset byte; a taken branch stalls 1, and 1 more when the target is in another
page than the next instruction (42_control.md R445). -/
def branch (cond : Bool) (offset : Byte) (s : State) : State :=
  let t := s.pc + sext16 offset
  if cond then
    let s1 := s.addStall 1
    let s2 := if page t != page s.pc then s1.addStall 1 else s1
    s2.setPc t
  else s

/-- BCC: `Branch(P.C == 0)` (42_control.md R446). -/
def execBcc (offset : Byte) (s : State) : Host.Outcome State Fault Refusal :=
  .next (branch (!s.flag .c) offset s)

/-- BCS: `Branch(P.C == 1)` (42_control.md R447). -/
def execBcs (offset : Byte) (s : State) : Host.Outcome State Fault Refusal :=
  .next (branch (s.flag .c) offset s)

/-- BEQ: `Branch(P.Z == 1)` (42_control.md R448). -/
def execBeq (offset : Byte) (s : State) : Host.Outcome State Fault Refusal :=
  .next (branch (s.flag .z) offset s)

/-- BMI: `Branch(P.N == 1)` (42_control.md R449). -/
def execBmi (offset : Byte) (s : State) : Host.Outcome State Fault Refusal :=
  .next (branch (s.flag .n) offset s)

/-- BNE: `Branch(P.Z == 0)` (42_control.md R450). -/
def execBne (offset : Byte) (s : State) : Host.Outcome State Fault Refusal :=
  .next (branch (!s.flag .z) offset s)

/-- BPL: `Branch(P.N == 0)` (42_control.md R451). -/
def execBpl (offset : Byte) (s : State) : Host.Outcome State Fault Refusal :=
  .next (branch (!s.flag .n) offset s)

/-- BVC: `Branch(P.V == 0)` (42_control.md R452). -/
def execBvc (offset : Byte) (s : State) : Host.Outcome State Fault Refusal :=
  .next (branch (!s.flag .v) offset s)

/-- BVS: `Branch(P.V == 1)` (42_control.md R453). -/
def execBvs (offset : Byte) (s : State) : Host.Outcome State Fault Refusal :=
  .next (branch (s.flag .v) offset s)

/-- How far `NopLog` advances `PC` over an invalid opcode (00_scope.md R9, `INVALID_NOP_PC_ADVANCE`). -/
def nopAdvance : NopAdvance → Word
  | .one => 1
  | .two => 2

/-- INVALID: per `INVALID_POLICY`, the fault with the opcode byte and its address, or `PC` past it and nothing else.
`PC` is one past the opcode byte, so the byte's address is `PC - 1` (42_control.md R460; 60_exceptions.md R478). -/
def execInvalid (opcode : Byte) (s : State) : Host.Outcome State Fault Refusal :=
  let pc := s.pc - 1
  match s.params.invalidPolicy with
  | .fault => .fault (.invalidOpcode opcode pc)
  | .nopLog => .next (s.setPc (pc + nopAdvance s.params.invalidNopAdvance))

end Sys2Proof.Machine
end

