-- ==== Sys2Proof/Machine/LoadStore.lean ====
section
/-! DEFINITION. Loads, stores, transfers and stack instructions (40_load_store.md), one definition for each kind. -/

namespace Sys2Proof.Machine

/-- LDA: `v <- MemRead(EA, 1); A <- v; SetNZ(v)` (40_load_store.md R320). -/
def execLda (o : Operand) (s : State) : Host.Outcome State Fault Refusal :=
  let r := readStalling o s
  .next ((r.2.setA r.1).setNZ r.1)

/-- LDX: `v <- MemRead(EA, 1); X <- v; SetNZ(v)` (40_load_store.md R321). -/
def execLdx (o : Operand) (s : State) : Host.Outcome State Fault Refusal :=
  let r := readStalling o s
  .next ((r.2.setX r.1).setNZ r.1)

/-- LDY: `v <- MemRead(EA, 1); Y <- v; SetNZ(v)` (40_load_store.md R322). -/
def execLdy (o : Operand) (s : State) : Host.Outcome State Fault Refusal :=
  let r := readStalling o s
  .next ((r.2.setY r.1).setNZ r.1)

/-- STA: `MemWrite(EA, 1, A)`; no flag (40_load_store.md R323). -/
def execSta (o : Operand) (s : State) : Host.Outcome State Fault Refusal :=
  .next (writeOperand o s.a s)

/-- STX: `MemWrite(EA, 1, X)`; no flag (40_load_store.md R324). -/
def execStx (o : Operand) (s : State) : Host.Outcome State Fault Refusal :=
  .next (writeOperand o s.x s)

/-- STY: `MemWrite(EA, 1, Y)`; no flag (40_load_store.md R325). -/
def execSty (o : Operand) (s : State) : Host.Outcome State Fault Refusal :=
  .next (writeOperand o s.y s)

/-- TAX: `X <- A; SetNZ(X)` (40_load_store.md R330). -/
def execTax (s : State) : Host.Outcome State Fault Refusal :=
  .next ((s.setX s.a).setNZ s.a)

/-- TAY: `Y <- A; SetNZ(Y)` (40_load_store.md R331). -/
def execTay (s : State) : Host.Outcome State Fault Refusal :=
  .next ((s.setY s.a).setNZ s.a)

/-- TSX: `X <- SP; SetNZ(X)` (40_load_store.md R332). -/
def execTsx (s : State) : Host.Outcome State Fault Refusal :=
  .next ((s.setX s.sp).setNZ s.sp)

/-- TXA: `A <- X; SetNZ(A)` (40_load_store.md R333). -/
def execTxa (s : State) : Host.Outcome State Fault Refusal :=
  .next ((s.setA s.x).setNZ s.x)

/-- TYA: `A <- Y; SetNZ(A)` (40_load_store.md R335). -/
def execTya (s : State) : Host.Outcome State Fault Refusal :=
  .next ((s.setA s.y).setNZ s.y)

/-- TXS: `SP <- X`; no flag (40_load_store.md R334). -/
def execTxs (s : State) : Host.Outcome State Fault Refusal :=
  .next (s.setSp s.x)

/-- PHA: `Push(A)`; no flag (40_load_store.md R340). -/
def execPha (s : State) : Host.Outcome State Fault Refusal :=
  .next (push s.a s)

/-- PHP: `P.B <- 1; P.U <- 1; Push(P)` (40_load_store.md R341). -/
def execPhp (s : State) : Host.Outcome State Fault Refusal :=
  let s1 := (s.setFlag .b true).setFlag .u true
  .next (push s1.p s1)

/-- PLA: `v <- Pull(); A <- v; SetNZ(v)` (40_load_store.md R342). -/
def execPla (s : State) : Host.Outcome State Fault Refusal :=
  let r := pull s
  .next ((r.2.setA r.1).setNZ r.1)

/-- PLP: `P <- Pull()`, all eight bits (40_load_store.md R343). -/
def execPlp (s : State) : Host.Outcome State Fault Refusal :=
  let r := pull s
  .next (r.2.setP r.1)

end Sys2Proof.Machine
end

