-- ==== Sys2Proof/Machine/Interrupts.lean ====
section
/-! DEFINITION. The interrupt poll at the start of every step (60_exceptions.md R472 to R477). -/

namespace Sys2Proof.Machine

/-- The NMI part: clear the flag and enter, whatever `P.I` holds (60_exceptions.md R472, R488). -/
def pollNmi (s : State) : State :=
  if s.ppu.nmiFlag then serviceInterrupt nmiVector (s.setPpu { s.ppu with nmiFlag := false })
  else s

/-- Both IRQ flags cleared, as the poll clears them when either is set (60_exceptions.md R475). -/
def clearIrqFlags (s : State) : State :=
  (s.setPpu { s.ppu with irqFlag := false }).setApu { s.apu with irqFlag := false }

/-- The IRQ part: either flag asks, both are cleared, and the handler is entered at most once and only if not masked
(60_exceptions.md R473 to R475). `i0` is `P.I` at the start of the step. -/
def pollIrq (i0 : Bool) (s : State) : State :=
  if s.ppu.irqFlag || s.apu.irqFlag then
    let s1 := clearIrqFlags s
    let masked := match s1.params.irqMaskSample with
      | .stepStart => i0
      | .afterNmi => s1.flag .i
    if masked then s1 else serviceInterrupt irqVector s1
  else s

/-- `InterruptPoll()`: NMI first, IRQ checked independently of it (60_exceptions.md R472). -/
def interruptPoll (s : State) : State := pollIrq (s.flag .i) (pollNmi s)

end Sys2Proof.Machine
end

