-- ==== Sys2Proof/Machine/Fetch.lean ====
section
/-! DEFINITION. Instruction fetch through the bus (31_step.md R292; 30_encoding.md R248), and where an instruction is
placed so that the next step fetches it. -/

namespace Sys2Proof.Machine

/-- The step's work before the instruction: `stall <- 0`, then the poll (31_step.md R290, R291, R293). -/
def beginStep (s : State) : State := interruptPoll { s with stall := 0 }

/-- One instruction byte: an ordinary bus load at `PC`, which advances by 1 and wraps (31_step.md R292). -/
def fetchByte (s : State) : Byte × State :=
  let r := load s.pc s
  (r.1, r.2.setPc (s.pc + 1))

/-- A fetched instruction: its decoded Operation (whose base cycles the step counts), and the term. -/
structure Fetched where
  op : Op
  instr : Instr
  deriving DecidableEq, Repr

/-- Fetch and decode at `PC`: the opcode byte, then the operand bytes its mode asks for, one bus load each in
increasing address order (30_encoding.md R240, R248; 31_step.md R292 to R295). INVALID reads no operand byte. -/
def fetch (s : State) : Fetched × State :=
  let r := fetchByte s
  let op := decodeOp r.1
  match op.operandLength with
  | 0 => (⟨op, op.assemble r.1 0 0⟩, r.2)
  | 1 =>
    let r1 := fetchByte r.2
    (⟨op, op.assemble r.1 r1.1 0⟩, r1.2)
  | _ =>
    let r1 := fetchByte r.2
    let r2 := fetchByte r1.2
    (⟨op, op.assemble r.1 r1.1 r2.1⟩, r2.2)

/-- Whether an address is plain storage, which a load reads without a side effect and the outside can fill: the byte
array or program ROM. -/
def plainStorage (addr : Word) : Bool :=
  match busRegion addr with
  | .ram _ | .prg => true
  | _ => false

/-- Put one byte where a load of `addr` finds it: into the byte array, or into the cartridge's program ROM at the
offset the mapper's current configuration gives. Other addresses hold nothing. -/
def placeByte (addr : Word) (v : Byte) (s : State) : State :=
  match busRegion addr with
  | .ram k => s.setRam (s.ram.write k v)
  | .prg => { s with cart := { s.cart with prg := s.cart.prg.write (s.mapper.map s.cart.prg16 addr) v } }
  | _ => s

/-- Three bytes at `PC` and up, lowest address first. -/
def placeAtPc (bytes : List Byte) (s : State) : State :=
  placeByte (s.pc + 2) (bytes.getD 2 0)
    (placeByte (s.pc + 1) (bytes.getD 1 0) (placeByte s.pc (bytes.getD 0 0) s))

/-- The three bytes from `addr` are plain storage in one region, so that each keeps what is placed there. -/
def fetchable (addr : Word) : Bool :=
  plainStorage addr && plainStorage (addr + 1) && plainStorage (addr + 2)

/-- The state made ready to fetch from storage: a session that runs (`powered`, no fault), no interrupt request that
would enter a handler first, and `PC` in plain storage (moved to 0x0200 where it is not); log 3. -/
def readyToFetch (s : State) : State :=
  { s with
    powered := true
    fault := none
    ppu := { s.ppu with nmiFlag := false, irqFlag := false }
    apu := { s.apu with irqFlag := false }
    pc := if fetchable s.pc then s.pc else 0x0200 }

/-- An opcode-table word placed where the next step fetches (the load from outside that log 3 describes). -/
def placeTableWord (s : State) (nbits w : Nat) : State :=
  placeAtPc (tableBytes nbits w) (readyToFetch s)

end Sys2Proof.Machine
end

