-- ==== Sys2Proof/Machine/Step.lean ====
section
/-! DEFINITION. One step (31_step.md R290), and the state with an opcode-table word placed where it fetches. -/

namespace Sys2Proof.Machine

/-- `Step()`: enabled only when powered and without a fault; poll, fetch, execute, count and clock. A fault ends it
at once, with no cycle count and no clocking (31_step.md R290, R301). -/
def step (s : State) : Host.Outcome State Fault Refusal :=
  if !s.powered then .refused .notPowered
  else if s.fault.isSome then .refused .faultSet
  else
    let f := fetch (beginStep s)
    match exec f.1.instr f.2 with
    | .next t => .next (finishStep f.1.op.baseCycles t)
    | .fault r => .fault r
    | .refused r => .refused r

/-- The state whose next step fetches and runs the instruction of an opcode-table word (log 3). -/
def State.withFetchWord (s : State) (nbits w : Nat) : State := placeTableWord s nbits w

end Sys2Proof.Machine
end

