-- ==== Sys2Proof/Machine/SaveState.lean ====
section
/-! DEFINITION. The save-state codec: snapshot, byte encoding, decoding and restore (80_host_and_savestate.md R570 to
R589). -/

namespace Sys2Proof.Machine

/-- A `SaveState` record (80_host_and_savestate.md R575). -/
structure SaveState where
  version : BitVec 32
  pc : Word
  sp : Byte
  a : Byte
  x : Byte
  y : Byte
  p : Byte
  /-- The whole 65 536-byte array. -/
  ram : Memory
  joy1 : Joypad
  joy2 : Joypad
  ppu : List Byte
  apu : List Byte
  mapper : Mapper
  /-- The 8 192 bytes of character RAM where the cartridge has it. -/
  chrRam : Option Memory
  deriving DecidableEq, Repr

/-- `snapshot()`: allowed between steps while powered; changes nothing (80_host_and_savestate.md R570, R575). `dev` is
how the devices save themselves (log 11). -/
def snapshot (dev : DeviceCodec) (s : State) : Option SaveState :=
  if s.powered then
    some { version := s.params.saveStateVersion, pc := s.pc, sp := s.sp, a := s.a, x := s.x, y := s.y, p := s.p,
           ram := s.ram, joy1 := s.joy1, joy2 := s.joy2, ppu := dev.ppuBlob s.ppu, apu := dev.apuBlob s.apu,
           mapper := s.mapper, chrRam := s.chrRam }
  else none

/-! ### Encoding -/

/-- A 16-bit integer, little-endian (80_host_and_savestate.md R578). -/
def u16Bytes (v : Word) : List Byte := [loByte v, hiByte v]

/-- A 32-bit integer, little-endian (80_host_and_savestate.md R578). -/
def u32Bytes (v : BitVec 32) : List Byte :=
  [v.extractLsb' 0 8, v.extractLsb' 8 8, v.extractLsb' 16 8, v.extractLsb' 24 8]

/-- A boolean, 0x00 or 0x01 (80_host_and_savestate.md R578). -/
def boolByte (b : Bool) : Byte := if b then 0x01 else 0x00

/-- A length-prefixed byte string (80_host_and_savestate.md R578). -/
def blobBytes (b : List Byte) : List Byte := u32Bytes (BitVec.ofNat 32 b.length) ++ b

/-- A joypad: `buttons`, `current_button`, `latch` (80_host_and_savestate.md R578). -/
def joypadBytes (j : Joypad) : List Byte := [j.buttons, BitVec.ofNat 8 j.cursor, boolByte j.latch]

/-- The variant's tag, its mapper number (80_host_and_savestate.md R580). -/
def mapperTag (fme7Id : Byte) : Mapper → Byte
  | .nrom => 0
  | .mmc1 _ => 1
  | .uxrom _ => 2
  | .cnrom _ => 3
  | .mmc3 _ => 4
  | .fme7 _ => fme7Id

/-- The variant's fields in order (80_host_and_savestate.md R581). -/
def mapperBytes : Mapper → List Byte
  | .nrom => []
  | .mmc1 r => [r.shift.setWidth 8, BitVec.ofNat 8 r.count, r.control.setWidth 8, r.chr0.setWidth 8,
      r.chr1.setWidth 8, r.prg.setWidth 8]
  | .uxrom bank => [bank]
  | .cnrom bank => [bank]
  | .mmc3 r => [r.bankSelect] ++ r.r.toList ++ [r.mirroring.setWidth 8, r.prgRamProtect, r.irqLatch, r.irqCounter,
      boolByte r.irqReload, boolByte r.irqEnabled]
  | .fme7 r => [r.command.setWidth 8] ++ r.chr.toList ++ r.prg.toList ++
      [r.mirroring.setWidth 8, r.irqControl] ++ u16Bytes r.irqCounter

/-- The character RAM part: its 8 192 bytes, or empty (80_host_and_savestate.md R575, R578). -/
def chrRamBytes : Option Memory → List Byte
  | some m => m.toBytes 8192
  | none => []

/-- `encode(s)` (80_host_and_savestate.md R578, R583). -/
def encodeSave (fme7Id : Byte) (s : SaveState) : List Byte :=
  u32Bytes s.version ++ u16Bytes s.pc ++ [s.sp, s.a, s.x, s.y, s.p] ++ s.ram.toBytes 65536 ++
  joypadBytes s.joy1 ++ joypadBytes s.joy2 ++ blobBytes s.ppu ++ blobBytes s.apu ++
  [mapperTag fme7Id s.mapper] ++ mapperBytes s.mapper ++ blobBytes (chrRamBytes s.chrRam)

/-! ### Decoding -/

/-- The codec's errors, two distinct values (80_host_and_savestate.md R585). -/
inductive SaveError where
  | decodeError
  | versionMismatch (v : BitVec 32)
  deriving DecidableEq, Repr

/-- A parser of the head of a byte string: the value and the rest, or none where the bytes are too few or illegal. -/
abbrev Parser (α : Type) := List Byte → Option (α × List Byte)

/-- One byte. -/
def parseByte : Parser Byte
  | [] => none
  | b :: rest => some (b, rest)

/-- `n` bytes. -/
def parseBytes (n : Nat) : Parser (List Byte) := fun bs =>
  if bs.length < n then none else some (bs.take n, bs.drop n)

/-- A little-endian 16-bit integer. -/
def parseU16 : Parser Word
  | lo :: hi :: rest => some (joinWord hi lo, rest)
  | _ => none

/-- A little-endian 32-bit integer. -/
def parseU32 : Parser (BitVec 32)
  | b0 :: b1 :: b2 :: b3 :: rest => some (b3 ++ b2 ++ b1 ++ b0, rest)
  | _ => none

/-- A boolean: 0x00 or 0x01 and nothing else (80_host_and_savestate.md R582). -/
def parseBool : Parser Bool
  | b :: rest => if b = 0 then some (false, rest) else if b = 1 then some (true, rest) else none
  | [] => none

/-- A byte that must be below `2 ^ w`, as a `w`-bit field (80_host_and_savestate.md R582). -/
def parseField (w : Nat) : Parser (BitVec w)
  | b :: rest => if b.toNat < 2 ^ w then some (b.setWidth w, rest) else none
  | [] => none

/-- A byte that must be at most `n`, as a natural number (80_host_and_savestate.md R582). -/
def parseAtMost (n : Nat) : Parser Nat
  | b :: rest => if b.toNat ≤ n then some (b.toNat, rest) else none
  | [] => none

/-- A length-prefixed byte string. -/
def parseBlob : Parser (List Byte) := fun bs => do
  let (n, bs) ← parseU32 bs
  parseBytes n.toNat bs

/-- A joypad, its cursor 0 to 8 (80_host_and_savestate.md R578, R582). -/
def parseJoypad : Parser Joypad := fun bs => do
  let (buttons, bs) ← parseByte bs
  let (cursor, bs) ← parseAtMost 8 bs
  let (latch, bs) ← parseBool bs
  some (⟨buttons, cursor, latch⟩, bs)

/-- `n` bytes as a bank-register vector. -/
def parseVector (n : Nat) : Parser (Vector Byte n) := fun bs =>
  if h : (bs.take n).length = n then some (⟨(bs.take n).toArray, by simpa using h⟩, bs.drop n) else none

/-- MMC1's fields (80_host_and_savestate.md R581, R582). -/
def parseMmc1 : Parser Mmc1 := fun bs => do
  let (shift, bs) ← parseField 5 bs
  let (count, bs) ← parseAtMost 4 bs
  let (control, bs) ← parseField 5 bs
  let (chr0, bs) ← parseField 5 bs
  let (chr1, bs) ← parseField 5 bs
  let (prg, bs) ← parseField 5 bs
  some (⟨shift, count, control, chr0, chr1, prg⟩, bs)

/-- MMC3's fields (80_host_and_savestate.md R581, R582). -/
def parseMmc3 : Parser Mmc3 := fun bs => do
  let (bankSelect, bs) ← parseByte bs
  let (r, bs) ← parseVector 8 bs
  let (mirroring, bs) ← parseField 1 bs
  let (prgRamProtect, bs) ← parseByte bs
  let (irqLatch, bs) ← parseByte bs
  let (irqCounter, bs) ← parseByte bs
  let (irqReload, bs) ← parseBool bs
  let (irqEnabled, bs) ← parseBool bs
  some (⟨bankSelect, r, mirroring, prgRamProtect, irqLatch, irqCounter, irqReload, irqEnabled⟩, bs)

/-- FME-7's fields (80_host_and_savestate.md R581, R582). -/
def parseFme7 : Parser Fme7 := fun bs => do
  let (command, bs) ← parseField 4 bs
  let (chr, bs) ← parseVector 8 bs
  let (prg, bs) ← parseVector 4 bs
  let (mirroring, bs) ← parseField 2 bs
  let (irqControl, bs) ← parseByte bs
  let (irqCounter, bs) ← parseU16 bs
  some (⟨command, chr, prg, mirroring, irqControl, irqCounter⟩, bs)

/-- The fields of the variant a tag names; an unknown tag is an error (80_host_and_savestate.md R580, R581, R585). -/
def parseMapper (fme7Id tag : Byte) : Parser Mapper := fun bs =>
  match tag.toNat with
  | 0 => some (.nrom, bs)
  | 1 => (parseMmc1 bs).map fun r => (.mmc1 r.1, r.2)
  | 2 => (parseByte bs).map fun r => (.uxrom r.1, r.2)
  | 3 => (parseByte bs).map fun r => (.cnrom r.1, r.2)
  | 4 => (parseMmc3 bs).map fun r => (.mmc3 r.1, r.2)
  | _ => if tag = fme7Id then (parseFme7 bs).map fun r => (.fme7 r.1, r.2) else none

/-- The character RAM part: length 0 or 8192 (80_host_and_savestate.md R582). -/
def parseChrRam : Parser (Option Memory) := fun bs => do
  let (bytes, bs) ← parseBlob bs
  if bytes.length = 0 then some (none, bs)
  else if bytes.length = 8192 then some (some (Memory.ofBytes bytes), bs)
  else none

/-- The fields after the version, in order (80_host_and_savestate.md R578). -/
def parseSave (fme7Id : Byte) (version : BitVec 32) : Parser SaveState := fun bs => do
  let (pc, bs) ← parseU16 bs
  let (sp, bs) ← parseByte bs
  let (a, bs) ← parseByte bs
  let (x, bs) ← parseByte bs
  let (y, bs) ← parseByte bs
  let (p, bs) ← parseByte bs
  let (ram, bs) ← parseBytes 65536 bs
  let (joy1, bs) ← parseJoypad bs
  let (joy2, bs) ← parseJoypad bs
  let (ppu, bs) ← parseBlob bs
  let (apu, bs) ← parseBlob bs
  let (tag, bs) ← parseByte bs
  let (mapper, bs) ← parseMapper fme7Id tag bs
  let (chrRam, bs) ← parseChrRam bs
  some ({ version := version, pc := pc, sp := sp, a := a, x := x, y := y, p := p, ram := Memory.ofBytes ram,
          joy1 := joy1, joy2 := joy2, ppu := ppu, apu := apu, mapper := mapper, chrRam := chrRam }, bs)

/-- `decode(bytes)`: the version before anything else, then the fields, then nothing left over
(80_host_and_savestate.md R585). -/
def decodeSave (params : Params) (bytes : List Byte) : Except SaveError SaveState :=
  match parseU32 bytes with
  | none => .error .decodeError
  | some (v, rest) =>
    if v ≠ params.saveStateVersion then .error (.versionMismatch v)
    else
      match parseSave params.fme7MapperId v rest with
      | some (s, []) => .ok s
      | _ => .error .decodeError

/-! ### Restore -/

/-- `restore(s)`, all or nothing: none where it is not allowed (not powered), an error that changes nothing, or the
state with every component replaced as one change; `fault` and `powered` keep their values
(80_host_and_savestate.md R586, R587; log 11). -/
def restore (dev : DeviceCodec) (save : SaveState) (s : State) : Option (Except SaveError State) :=
  if !s.powered then none
  else if save.version ≠ s.params.saveStateVersion then some (.error (.versionMismatch save.version))
  else if mapperTag s.params.fme7MapperId save.mapper ≠ mapperTag s.params.fme7MapperId s.mapper then
    some (.error .decodeError)
  else if save.chrRam.isSome ≠ s.chrRam.isSome then some (.error .decodeError)
  else
    match dev.ppuOfBlob save.ppu, dev.apuOfBlob save.apu with
    | some ppu, some apu =>
      some (.ok { s with
        pc := save.pc, sp := save.sp, a := save.a, x := save.x, y := save.y, p := save.p,
        ram := save.ram, joy1 := save.joy1, joy2 := save.joy2, ppu := ppu, apu := apu, mapper := save.mapper,
        chrRam := save.chrRam, stall := 0 })
    | _, _ => some (.error .decodeError)

end Sys2Proof.Machine
end

