-- ==== Sys2Proof/Machine/Session.lean ====
section
/-! DEFINITION. The host's operations between steps: cartridge load (21_mappers.md R140 to R147), power-on and reset
(70_reset_and_hazards.md R520, R522), step, frame step, input and power query (80_host_and_savestate.md R560 to R568). -/

namespace Sys2Proof.Machine

/-! ### Cartridge load -/

/-- Why a cartridge image does not load (21_mappers.md R144, R145; 60_exceptions.md R498). -/
inductive LoadError where
  | malformedHeader
  | unsupportedMapper (id : Byte)
  deriving DecidableEq, Repr

/-- Bytes 0 to 3 of an image, "NES" then 0x1A (21_mappers.md R141). -/
def imageMagic : List Byte := [0x4E, 0x45, 0x53, 0x1A]

/-- `MAPPER_ID` from flags 6 and flags 7 (21_mappers.md R142). -/
def mapperId (flags6 flags7 : Byte) : Byte := (flags7 &&& 0xF0) ||| (flags6 >>> 4)

/-- The header mirroring hint (21_mappers.md R142). -/
def headerHint (flags6 : Byte) : HeaderHint :=
  if flags6.getLsbD 3 then .fourScreen else if flags6.getLsbD 0 then .vertical else .horizontal

/-- Load a cartridge image: header, trainer, payloads, variant (21_mappers.md R141 to R147). `PRG16 = 0`, a wrong magic
and a short image are malformed (R144); an unknown number is unsupported (R145). An image that is both is reported as
malformed: DESIGN CHOICE, since the spec gives the two errors no precedence (log 14). -/
def loadCart (params : Params) (image : List Byte) : Except LoadError (Cart × Mapper) :=
  if image.length < 16 then .error .malformedHeader
  else if image.take 4 ≠ imageMagic then .error .malformedHeader
  else
    let prg16 := (image.getD 4 0).toNat
    let chr8 := (image.getD 5 0).toNat
    let flags6 := image.getD 6 0
    let flags7 := image.getD 7 0
    let prgStart := 16 + if flags6.getLsbD 2 then 512 else 0
    let chrStart := prgStart + prg16 * 16384
    if prg16 = 0 then .error .malformedHeader
    else if image.length < chrStart + chr8 * 8192 then .error .malformedHeader
    else
      match Mapper.ofId params.fme7MapperId (mapperId flags6 flags7) with
      | none => .error (.unsupportedMapper (mapperId flags6 flags7))
      | some m =>
        .ok ({ prg16 := prg16
               chr8 := chr8
               prg := Memory.ofBytes ((image.drop prgStart).take (prg16 * 16384))
               chr := Memory.ofBytes ((image.drop chrStart).take (chr8 * 8192))
               hint := headerHint flags6 }, m)

/-! ### Power-on and reset -/

/-- The state before any cartridge is loaded: not powered (70_reset_and_hazards.md R528). Only `powered` and `params`
mean anything in it. -/
def unpowered (params : Params) : State :=
  { State.reset with powered := false, params := params, ram := params.ramInit }

/-- The state power-on has built when it reads the RESET vector (70_reset_and_hazards.md R520). -/
def powerOnBefore (params : Params) (cart : Cart) (m : Mapper) : State where
  pc := 0
  sp := 0xFD
  a := 0x00
  x := 0x00
  y := 0x00
  p := 0x34
  stall := 0
  ram := params.ramInit
  joy1 := Joypad.powerOn
  joy2 := Joypad.powerOn
  mapper := m
  chrRam := if cart.chr8 = 0 then some [] else none
  ppu := ppuPowerOn
  apu := apuPowerOn
  powered := false
  fault := none
  cart := cart
  params := params
  inputs := inputsEmpty
  cycles := 0

/-- `PowerOn` of a loaded cartridge: the values of 70_reset_and_hazards.md R520, R521, then `PC` from the RESET vector
through the mapper, then `powered <- 1`. It takes no cycles and clocks nothing. -/
def powerOn (params : Params) (cart : Cart) (m : Mapper) : State :=
  let r := read16 resetVector (powerOnBefore params cart m)
  { r.2.setPc r.1 with powered := true }

/-- Session start with an image: load, and if it loads, power on (80_host_and_savestate.md R560). -/
def sessionStart (params : Params) (image : List Byte) : Except LoadError State :=
  match loadCart params image with
  | .error e => .error e
  | .ok (cart, m) => .ok (powerOn params cart m)

/-- `Reset()`: refused (none) before power-on; else `SP - 3`, `P.I <- 1`, `PC` from the RESET vector, and nothing else,
the fault mark included (70_reset_and_hazards.md R522, R523). `ppu` and `apu` are the devices after it: "What the host's
reset does to the PPU and APU ... is external" (R522). -/
def resetSession (ppu : Ppu) (apu : Apu) (s : State) : Option State :=
  if s.powered then
    let s1 := ((s.setSp (s.sp - 3)).setFlag .i true)
    let r := read16 resetVector s1
    some { r.2.setPc r.1 with stall := 0, ppu := ppu, apu := apu }
  else none

/-! ### Step and frame step -/

/-- What the host's step returns (80_host_and_savestate.md R561): the cycle count with the next state, the fault with
the faulted state, or a refusal with no move. -/
inductive StepResult where
  | ran (cycles : Nat) (s : State)
  | faulted (f : Fault) (s : State)
  | refused (r : Refusal)
  deriving DecidableEq, Repr

/-- The host's step-one-instruction. The faulted state is the one at the INVALID instruction, with `PC` one past its
opcode byte, the mark set, and `stall` 0, since no step follows it and it stands between steps for a reset or a restore
(31_step.md R301, 60_exceptions.md R478, 10_state.md R45; log 10). -/
def stepSession (s : State) : StepResult :=
  match step s with
  | .next t => .ran t.cycles t
  | .fault f => .faulted f { (fetch (beginStep s)).2 with stall := 0, fault := some f }
  | .refused r => .refused r

/-- The eight buttons of a port, in the order of their bits in `buttons` (20_memory.md R105). -/
inductive Button where
  | a | b | select | start | up | down | left | right
  deriving DecidableEq, Repr

/-- The bit of `buttons` a button has (20_memory.md R105). -/
def Button.bit : Button → Nat
  | .a => 0
  | .b => 1
  | .select => 2
  | .start => 3
  | .up => 4
  | .down => 5
  | .left => 6
  | .right => 7

/-- One button event: a port, a button, and whether it is held. -/
structure ButtonEvent where
  second : Bool
  button : Button
  held : Bool
  deriving DecidableEq, Repr

/-- A port's `buttons` with one bit written. -/
def setButton (buttons : Byte) (button : Button) (held : Bool) : Byte :=
  if held then buttons ||| ((1#8) <<< button.bit) else buttons &&& ~~~((1#8) <<< button.bit)

/-- One button event applied: it writes `buttons` of its port and nothing else (80_host_and_savestate.md R568). -/
def applyButton (e : ButtonEvent) (s : State) : State :=
  if e.second then s.setJoy2 { s.joy2 with buttons := setButton s.joy2.buttons e.button e.held }
  else s.setJoy1 { s.joy1 with buttons := setButton s.joy1.buttons e.button e.held }

/-- `ApplyInput()` (80_host_and_savestate.md R568). -/
def applyInput : List ButtonEvent → State → State
  | [], s => s
  | e :: rest, s => applyInput rest (applyButton e s)

/-- What a frame step returns. `unfinished` is the model's bound on a frame that does not end (80_host_and_savestate.md
R563: "the frame step does not end; that is a property of the PPU"; log 13). -/
inductive FrameResult where
  | done (cycles : Nat) (s : State)
  | faulted (f : Fault) (s : State)
  | refused (r : Refusal)
  | unfinished (s : State)
  deriving DecidableEq, Repr

/-- The frame's loop: at least one step, until the PPU's frame counter differs from `frame`, at most `fuel` steps
(80_host_and_savestate.md R563). A fault or a refusal of a step ends it with that step's answer. A refusal can only be
the first step's, and it carries no state: the session stays as it was, with the events of this frame dropped. DESIGN
CHOICE, since R563 does not say whether the input already applied is kept (log 15). -/
def frameLoop (frame : Nat) : Nat → Nat → State → FrameResult
  | 0, _, s => .unfinished s
  | fuel + 1, total, s =>
    match stepSession s with
    | .ran c t =>
      if t.ppu.frame = frame then frameLoop frame fuel (total + c) t else .done (total + c) t
    | .faulted f t => .faulted f t
    | .refused r => .refused r

/-- `StepFrame()` with the host's button events (80_host_and_savestate.md R563; log 13, log 15). -/
def stepFrame (fuel : Nat) (events : List ButtonEvent) (s : State) : FrameResult :=
  let s1 := applyInput events s
  frameLoop s1.ppu.frame fuel 0 s1

/-- The power-state query (80_host_and_savestate.md R566). -/
def powerQuery (s : State) : Bool := s.powered

end Sys2Proof.Machine
end

