-- ==== Sys2Proof/Safety.lean ====
section
/-! DEFINITION. What counts as a safe run: steps that complete, runs, the end of a run (31_step.md R303), the
invariant every step keeps, and the words the statements are written in. -/

namespace Sys2Proof.Machine

/-- `s` steps to `t`. -/
def StepsTo (s t : State) : Prop := step s = .next t

/-- `t` is `n` completed steps after `s`. -/
def StepsIn : Nat → State → State → Prop
  | 0, s, t => s = t
  | n + 1, s, t => ∃ u, StepsTo s u ∧ StepsIn n u t

/-- `t` is `n` completed steps after `s`, and their cycle counts sum to `cycles`. -/
def RunsFor : Nat → Nat → State → State → Prop
  | 0, cycles, s, t => cycles = 0 ∧ s = t
  | n + 1, cycles, s, t => ∃ u rest, StepsTo s u ∧ RunsFor n rest u t ∧ cycles = u.cycles + rest

/-- A safe state: the next step completes. -/
def Safe (s : State) : Prop := ∃ t, StepsTo s t

/-- A run of `n` steps from `s` that ends at `haltAddr`: the first step boundary at which `PC` is `haltAddr`. A fault
is never such an end, so the state there has none set (31_step.md R301, R303). -/
def EndsAt (haltAddr : Word) (n : Nat) (s t : State) : Prop :=
  StepsIn n s t ∧ t.fault = none ∧ t.pc = haltAddr ∧ ∀ k < n, ∀ u, StepsIn k s u → u.pc ≠ haltAddr

/-- A step may run: powered and without a fault (31_step.md R290). -/
def Enabled (s : State) : Prop := s.powered = true ∧ s.fault = none

/-- The bounds of the parameters (00_scope.md R9): `PPU_RATIO` at least 1, and `RAM_INIT` 65 536 bytes, as every memory in
canonical form. -/
structure ParamsOk (p : Params) : Prop where
  ratio : 1 ≤ p.ppuRatio
  ramInitWf : p.ramInit.wf
  ramInitBelow : p.ramInit.below 65536

/-- A FME-7 variant stands only where its number is none of the other variants', as at load (21_mappers.md R145;
log 12). -/
def Fme7Numbered (params : Params) (m : Mapper) : Prop := (∃ r, m = .fme7 r) → 4 < params.fme7MapperId.toNat

/-- The cartridge's constants are as a load leaves them (21_mappers.md R143 to R146). -/
structure CartOk (c : Cart) : Prop where
  banks : 1 ≤ c.prg16
  prgWf : c.prg.wf
  prgBelow : c.prg.below (c.prg16 * 16384)
  chrWf : c.chr.wf
  chrBelow : c.chr.below (c.chr8 * 8192)

/-- The parameters in their bounds (00_scope.md R9), every memory in its canonical form and in range, character RAM present
exactly when the header gives no character ROM (21_mappers.md R146), cursors 0 to 8 (10_state.md R49), MMC1's write
counter 0 to 4 (21_mappers.md R170), a FME-7 variant only where its number is its own (log 12). -/
structure DataOk (s : State) : Prop where
  params : ParamsOk s.params
  ramWf : s.ram.wf
  ramBelow : s.ram.below 65536
  cart : CartOk s.cart
  chrRamPresent : s.chrRam.isSome = true ↔ s.cart.chr8 = 0
  chrRamOk : ∀ m, s.chrRam = some m → m.wf ∧ m.below 8192
  cursor1 : s.joy1.cursor ≤ 8
  cursor2 : s.joy2.cursor ≤ 8
  mapperLegal : s.mapper.legal = true
  fme7 : Fme7Numbered s.params s.mapper

/-- The invariant of a state between steps: its data is sound and `stall` is 0 (10_state.md R45). -/
structure StateOk (s : State) : Prop where
  data : DataOk s
  stall : s.stall = 0

/-- `t` is `s` but for the devices' side: joypad cursors, the PPU's and APU's records, the register-read queues. What a
bus load, and a bus store to a device register, may change. -/
structure DevicesOnly (s t : State) : Prop where
  rest : t = { s with joy1 := t.joy1, joy2 := t.joy2, ppu := t.ppu, apu := t.apu, inputs := t.inputs }
  joy1 : t.joy1 = { s.joy1 with cursor := t.joy1.cursor }
  joy2 : t.joy2 = { s.joy2 with cursor := t.joy2.cursor }
  ppu : t.ppu = { s.ppu with events := t.ppu.events }
  apu : t.apu = { s.apu with events := t.apu.events }
  ppuClocks : t.inputs.ppuClocks = s.inputs.ppuClocks
  apuClocks : t.inputs.apuClocks = s.inputs.apuClocks

/-- The whole of the session that no instruction and no step touches (10_state.md R53 to R55; 21_mappers.md R147). -/
def SameSession (s t : State) : Prop :=
  t.cart = s.cart ∧ t.params = s.params ∧ t.powered = s.powered ∧ t.fault = s.fault

/-- `t` is `s` in everything a step of the core reads: they differ at most in the devices' records and clock counts, in the
PPU's frame counter, and in the last cycle count (80_host_and_savestate.md R589). -/
def SameCore (s t : State) : Prop :=
  t = { s with
    cycles := t.cycles
    ppu := { s.ppu with frame := t.ppu.frame, clocks := t.ppu.clocks, events := t.ppu.events }
    apu := { s.apu with clocks := t.apu.clocks, events := t.apu.events } }

/-- The flags of `q` are those of `p` but where `new` gives one. -/
def FlagsBecome (p q : Byte) (new : Flag → Option Bool) : Prop :=
  ∀ f, getFlag q f = (new f).getD (getFlag p f)

/-- `SetNZ(v)` as a flag change (00_scope.md R15). -/
def nzOf (v : Byte) : Flag → Option Bool
  | .n => some (v.getLsbD 7)
  | .z => some (v == 0)
  | _ => none

/-- `bytes` is the whole encoding of `i`, and the opcode map gives its opcode byte `baseCycles`. -/
def EncodedAs (bytes : List Byte) (i : Instr) (baseCycles : Nat) : Prop :=
  decode bytes = .ok (i, []) ∧ (decodeOp (bytes.headD 0)).baseCycles = baseCycles

/-- `n` bus loads at increasing addresses from `addr`: the bytes and the state after them. -/
def loadBytes : Nat → Word → State → List Byte × State
  | 0, _, s => ([], s)
  | n + 1, addr, s =>
    let r := load addr s
    let rest := loadBytes n (addr + 1) r.2
    (r.1 :: rest.1, rest.2)

/-- The state after `n` loads of one address. -/
def afterLoads (addr : Word) : Nat → State → State
  | 0, s => s
  | n + 1, s => (load addr (afterLoads addr n s)).2

/-- `t` is `s` after handler entry through `vector` with `P.B` as given and `extra` stall cycles
(60_exceptions.md R479 to R481; 42_control.md R440). -/
structure HandlerEntered (brk : Bool) (vector : Word) (extra : Nat) (s t : State) : Prop where
  pc : t.pc = joinWord (s.prgByte (vector + 1)) (s.prgByte vector)
  sp : t.sp = s.sp - 3
  status : FlagsBecome s.p t.p fun f => match f with
    | .b => some brk
    | .u | .i => some true
    | _ => none
  pushedHigh : t.ram.read (256 + s.sp.toNat) = hiByte s.pc
  pushedLow : t.ram.read (256 + (s.sp - 1).toNat) = loByte s.pc
  pushedStatus : FlagsBecome s.p (t.ram.read (256 + (s.sp - 2).toNat)) fun f => match f with
    | .b => some brk
    | .u => some true
    | _ => none
  otherRam : ∀ k, k ≠ 256 + s.sp.toNat → k ≠ 256 + (s.sp - 1).toNat → k ≠ 256 + (s.sp - 2).toNat →
    t.ram.read k = s.ram.read k
  stall : t.stall = s.stall + extra
  rest : t = { s with pc := t.pc, sp := t.sp, p := t.p, ram := t.ram, stall := t.stall }

/-- `t` is `s` after the bus store of `v` at `ea`, by what each part of the state holds (20_memory.md R83, R110): every
byte of the array but the stored one reads as before, only a store at 0x8000 and up reaches the mapper, only the OAM
DMA stalls, and no register, flag, character memory, interrupt flag or clock changes. -/
structure Stored (ea : Word) (v : Byte) (s t : State) : Prop where
  ram : ∀ k, t.ram.read k = if busRegion ea = .ram k then v else s.ram.read k
  mapper : t.mapper = if 0x8000 ≤ ea.toNat then s.mapper.store ea v else s.mapper
  stall : t.stall = s.stall + if ea = 0x4014 then 514 else 0
  joypads : ea ≠ 0x4014 →
    t.joy1 = (if ea = 0x4016 then s.joy1.strobe v else s.joy1) ∧
    t.joy2 = (if ea = 0x4016 then s.joy2.strobe v else s.joy2)
  buttons : t.joy1.buttons = s.joy1.buttons ∧ t.joy2.buttons = s.joy2.buttons
  ppu : t.ppu = { s.ppu with events := t.ppu.events }
  apu : t.apu = { s.apu with events := t.apu.events }
  inputs : t.inputs.ppuClocks = s.inputs.ppuClocks ∧ t.inputs.apuClocks = s.inputs.apuClocks
  rest : t = { s with ram := t.ram, joy1 := t.joy1, joy2 := t.joy2, mapper := t.mapper, ppu := t.ppu, apu := t.apu,
                      inputs := t.inputs, stall := t.stall }

/-- Two mappers are of one variant (21_mappers.md R150). -/
def SameVariant : Mapper → Mapper → Bool
  | .nrom, .nrom | .mmc1 _, .mmc1 _ | .uxrom _, .uxrom _ | .cnrom _, .cnrom _ | .mmc3 _, .mmc3 _
  | .fme7 _, .fme7 _ => true
  | _, _ => false

/-- The mapper after `n` calls of `drive_irq_counter`. -/
def Mapper.afterDrives : Nat → Mapper → Mapper
  | 0, m => m
  | n + 1, m => Mapper.afterDrives n m.driveIrq.2

/-- What call number `n` of `drive_irq_counter` (the first is number 0) returns. -/
def Mapper.driveAnswer (n : Nat) (m : Mapper) : Bool := (m.afterDrives n).driveIrq.1

/-- A save state a snapshot produces and the codec can hold: its memories in canonical form and in range, its fields
legal (80_host_and_savestate.md R582), its blobs of a length 32 bits can say, and a FME-7 variant numbered as
at load (log 12). -/
structure SaveOk (params : Params) (s : SaveState) : Prop where
  version : s.version = params.saveStateVersion
  ramWf : s.ram.wf
  ramBelow : s.ram.below 65536
  cursor1 : s.joy1.cursor ≤ 8
  cursor2 : s.joy2.cursor ≤ 8
  ppuBlob : s.ppu.length < 2 ^ 32
  apuBlob : s.apu.length < 2 ^ 32
  mapperLegal : s.mapper.legal = true
  fme7 : Fme7Numbered params s.mapper
  chrRam : ∀ m, s.chrRam = some m → m.wf ∧ m.below 8192

end Sys2Proof.Machine
end

