-- ==== Sys2Proof/Certificates/Slice0/Obligations.lean ====
section
/-! DEFINITION. The statements for the provers. Each docstring names the rules of spec/ it formalises. -/

open Sys2Proof Sys2Proof.Machine

/-! ### Encoding -/

/-- Sample words of every family, written out from the "Encoding" lines of the instruction rules; and what those lines give
every documented opcode byte: its kind, its addressing mode and its base cycle count (30_encoding.md R264). That an INVALID
word is one byte long is 31_step.md R295, 42_control.md R460 and log 8. -/
def Obligations.SampleWordsDecode : Prop :=
  EncodedAs [0xA9, 0x80] (.lda (.imm 0x80)) 2 ∧
  EncodedAs [0x8D, 0x00, 0x02] (.sta (.abs 0x0200)) 4 ∧
  EncodedAs [0x96, 0xF0] (.stx (.zpY 0xF0)) 4 ∧
  EncodedAs [0xAA] .tax 2 ∧
  EncodedAs [0x48] .pha 3 ∧
  EncodedAs [0x7D, 0xFF, 0x02] (.adc (.absX 0x02FF)) 4 ∧
  EncodedAs [0x31, 0x10] (.and (.indY 0x10)) 5 ∧
  EncodedAs [0xC1, 0x20] (.cmp (.indX 0x20)) 6 ∧
  EncodedAs [0xDE, 0x34, 0x12] (.dec (.absX 0x1234)) 7 ∧
  EncodedAs [0x6A] (.ror .acc) 2 ∧
  EncodedAs [0x6C, 0xFF, 0x02] (.jmp (.ind 0x02FF)) 5 ∧
  EncodedAs [0x20, 0x00, 0x90] (.jsr 0x9000) 6 ∧
  EncodedAs [0xD0, 0xFE] (.bne 0xFE) 2 ∧
  EncodedAs [0x00] .brk 7 ∧
  EncodedAs [0x02] (.invalid 0x02) 1 ∧
  let cells (kind : Kind) (c : List (Byte × Mode × Nat)) : Prop := ∀ x ∈ c, decodeOp x.1 = ⟨kind, x.2.1, x.2.2⟩
  cells .lda [(0xA9, .immediate, 2), (0xA5, .zeroPage, 3), (0xB5, .zeroPageX, 4), (0xAD, .absolute, 4),
    (0xBD, .absoluteX, 4), (0xB9, .absoluteY, 4), (0xA1, .indexedIndirectX, 6), (0xB1, .indirectIndexedY, 5)] ∧
  cells .ldx [(0xA2, .immediate, 2), (0xA6, .zeroPage, 3), (0xB6, .zeroPageY, 4), (0xAE, .absolute, 4),
    (0xBE, .absoluteY, 4)] ∧
  cells .ldy [(0xA0, .immediate, 2), (0xA4, .zeroPage, 3), (0xB4, .zeroPageX, 4), (0xAC, .absolute, 4),
    (0xBC, .absoluteX, 4)] ∧
  cells .sta [(0x85, .zeroPage, 3), (0x95, .zeroPageX, 4), (0x8D, .absolute, 4), (0x9D, .absoluteX, 5),
    (0x99, .absoluteY, 5), (0x81, .indexedIndirectX, 6), (0x91, .indirectIndexedY, 6)] ∧
  cells .stx [(0x86, .zeroPage, 3), (0x96, .zeroPageY, 4), (0x8E, .absolute, 4)] ∧
  cells .sty [(0x84, .zeroPage, 3), (0x94, .zeroPageX, 4), (0x8C, .absolute, 4)] ∧
  cells .tax [(0xAA, .implied, 2)] ∧
  cells .tay [(0xA8, .implied, 2)] ∧
  cells .tsx [(0xBA, .implied, 2)] ∧
  cells .txa [(0x8A, .implied, 2)] ∧
  cells .txs [(0x9A, .implied, 2)] ∧
  cells .tya [(0x98, .implied, 2)] ∧
  cells .pha [(0x48, .implied, 3)] ∧
  cells .php [(0x08, .implied, 3)] ∧
  cells .pla [(0x68, .implied, 4)] ∧
  cells .plp [(0x28, .implied, 4)] ∧
  cells .adc [(0x69, .immediate, 2), (0x65, .zeroPage, 3), (0x75, .zeroPageX, 4), (0x6D, .absolute, 4),
    (0x7D, .absoluteX, 4), (0x79, .absoluteY, 4), (0x61, .indexedIndirectX, 6), (0x71, .indirectIndexedY, 5)] ∧
  cells .sbc [(0xE9, .immediate, 2), (0xE5, .zeroPage, 3), (0xF5, .zeroPageX, 4), (0xED, .absolute, 4),
    (0xFD, .absoluteX, 4), (0xF9, .absoluteY, 4), (0xE1, .indexedIndirectX, 6), (0xF1, .indirectIndexedY, 5)] ∧
  cells .and [(0x29, .immediate, 2), (0x25, .zeroPage, 3), (0x35, .zeroPageX, 4), (0x2D, .absolute, 4),
    (0x3D, .absoluteX, 4), (0x39, .absoluteY, 4), (0x21, .indexedIndirectX, 6), (0x31, .indirectIndexedY, 5)] ∧
  cells .ora [(0x09, .immediate, 2), (0x05, .zeroPage, 3), (0x15, .zeroPageX, 4), (0x0D, .absolute, 4),
    (0x1D, .absoluteX, 4), (0x19, .absoluteY, 4), (0x01, .indexedIndirectX, 6), (0x11, .indirectIndexedY, 5)] ∧
  cells .eor [(0x49, .immediate, 2), (0x45, .zeroPage, 3), (0x55, .zeroPageX, 4), (0x4D, .absolute, 4),
    (0x5D, .absoluteX, 4), (0x59, .absoluteY, 4), (0x41, .indexedIndirectX, 6), (0x51, .indirectIndexedY, 5)] ∧
  cells .bit [(0x24, .zeroPage, 3), (0x2C, .absolute, 4)] ∧
  cells .cmp [(0xC9, .immediate, 2), (0xC5, .zeroPage, 3), (0xD5, .zeroPageX, 4), (0xCD, .absolute, 4),
    (0xDD, .absoluteX, 4), (0xD9, .absoluteY, 4), (0xC1, .indexedIndirectX, 6), (0xD1, .indirectIndexedY, 5)] ∧
  cells .cpx [(0xE0, .immediate, 2), (0xE4, .zeroPage, 3), (0xEC, .absolute, 4)] ∧
  cells .cpy [(0xC0, .immediate, 2), (0xC4, .zeroPage, 3), (0xCC, .absolute, 4)] ∧
  cells .inc [(0xE6, .zeroPage, 5), (0xF6, .zeroPageX, 6), (0xEE, .absolute, 6), (0xFE, .absoluteX, 7)] ∧
  cells .dec [(0xC6, .zeroPage, 5), (0xD6, .zeroPageX, 6), (0xCE, .absolute, 6), (0xDE, .absoluteX, 7)] ∧
  cells .inx [(0xE8, .implied, 2)] ∧
  cells .iny [(0xC8, .implied, 2)] ∧
  cells .dex [(0xCA, .implied, 2)] ∧
  cells .dey [(0x88, .implied, 2)] ∧
  cells .asl [(0x0A, .accumulator, 2), (0x06, .zeroPage, 5), (0x16, .zeroPageX, 6), (0x0E, .absolute, 6),
    (0x1E, .absoluteX, 7)] ∧
  cells .lsr [(0x4A, .accumulator, 2), (0x46, .zeroPage, 5), (0x56, .zeroPageX, 6), (0x4E, .absolute, 6),
    (0x5E, .absoluteX, 7)] ∧
  cells .rol [(0x2A, .accumulator, 2), (0x26, .zeroPage, 5), (0x36, .zeroPageX, 6), (0x2E, .absolute, 6),
    (0x3E, .absoluteX, 7)] ∧
  cells .ror [(0x6A, .accumulator, 2), (0x66, .zeroPage, 5), (0x76, .zeroPageX, 6), (0x6E, .absolute, 6),
    (0x7E, .absoluteX, 7)] ∧
  cells .jmp [(0x4C, .absolute, 3), (0x6C, .indirect, 5)] ∧
  cells .jsr [(0x20, .absolute, 6)] ∧
  cells .rts [(0x60, .implied, 6)] ∧
  cells .rti [(0x40, .implied, 6)] ∧
  cells .brk [(0x00, .implied, 7)] ∧
  cells .clc [(0x18, .implied, 2)] ∧
  cells .cld [(0xD8, .implied, 2)] ∧
  cells .cli [(0x58, .implied, 2)] ∧
  cells .clv [(0xB8, .implied, 2)] ∧
  cells .sec [(0x38, .implied, 2)] ∧
  cells .sed [(0xF8, .implied, 2)] ∧
  cells .sei [(0x78, .implied, 2)] ∧
  cells .nop [(0xEA, .implied, 2)] ∧
  cells .bcc [(0x90, .relative, 2)] ∧
  cells .bcs [(0xB0, .relative, 2)] ∧
  cells .beq [(0xF0, .relative, 2)] ∧
  cells .bmi [(0x30, .relative, 2)] ∧
  cells .bne [(0xD0, .relative, 2)] ∧
  cells .bpl [(0x10, .relative, 2)] ∧
  cells .bvc [(0x50, .relative, 2)] ∧
  cells .bvs [(0x70, .relative, 2)]

/-- Decoding the encoding of a well-formed instruction gives it back, whatever bytes follow (30_encoding.md R240 to
R243). An INVALID term is one byte: for it R243 and R247 would give two (mode Immediate), but its resolver never runs and
it reads no operand byte (31_step.md R295; 42_control.md R460; log 8). -/
def Obligations.DecodeAfterEncode : Prop :=
  ∀ (i : Instr) (rest : List Byte), i.wf = true → decode (encode i ++ rest) = .ok (i, rest)

/-- Whatever decodes is well-formed and encodes back to the bytes it was decoded from (30_encoding.md R240 to R244). An
INVALID term is one byte: for it R243 and R247 would give two (mode Immediate), but its resolver never runs and it reads
no operand byte (31_step.md R295; 42_control.md R460; log 8). -/
def Obligations.EncodeAfterDecode : Prop :=
  ∀ (bytes : List Byte) (i : Instr) (rest : List Byte),
    decode bytes = .ok (i, rest) → i.wf = true ∧ encode i ++ rest = bytes

/-- The decoder is total on every opcode byte with operand bytes after it, and needs only that byte to know the length,
one to three bytes (30_encoding.md R240, R243, R244, R263). For the 105 INVALID bytes the length here is one, where R243
would give two (mode Immediate): their resolver never runs and they read no operand byte (31_step.md R295; 42_control.md
R460; log 8). -/
def Obligations.DecodeTotal : Prop :=
  ∀ (b b1 b2 : Byte), ∃ i,
    decode [b, b1, b2] = .ok (i, [b1, b2].drop (decodeOp b).operandLength) ∧
    i.kind = (decodeOp b).kind ∧ i.mode = (decodeOp b).mode ∧ (decodeOp b).operandLength ≤ 2

/-- The counts of 30_encoding.md R265, and that exactly the listed bytes are INVALID, with base cycle count 1 and mode
Immediate (R262). -/
def Obligations.OpcodeMapCounts : Prop :=
  opTable.length = 256 ∧
  (opTable.countP fun op => op.kind ≠ .invalid) = 151 ∧
  (opTable.countP fun op => op.kind = .invalid) = 105 ∧
  ((opTable.filter fun op => op.kind ≠ .invalid).map Op.kind).dedup.length = 56 ∧
  (∀ b : Byte, decodeOp b = ⟨.invalid, .immediate, 1⟩ ↔ b ∈ undocumentedBytes) ∧
  (∀ b : Byte, (decodeOp b).kind = .invalid ↔ b ∈ undocumentedBytes) ∧
  ([Mode.implied, .accumulator, .immediate, .zeroPage, .zeroPageX, .zeroPageY, .relative, .absolute, .absoluteX,
      .absoluteY, .indirect, .indexedIndirectX, .indirectIndexedY].map fun m =>
    opTable.countP fun op => op.kind ≠ .invalid ∧ op.mode = m) = [25, 4, 11, 21, 16, 2, 8, 23, 15, 9, 1, 8, 8]

/-! ### The step -/

/-- A step polls, loads the bytes at `PC` through the bus, runs the instruction they decode to with `PC` past them, and
on completion counts and clocks; a fault or refusal of the instruction is the step's (31_step.md R290, R292, R295). -/
def Obligations.StepRunsDecoded : Prop :=
  ∀ s : State, Enabled s →
    let b := beginStep s
    let op := decodeOp (load b.pc b).1
    let f := loadBytes (1 + op.operandLength) b.pc b
    ∃ i : Instr, decode f.1 = .ok (i, []) ∧ i.wf = true ∧
      step s = match exec i (f.2.setPc (b.pc + BitVec.ofNat 16 (1 + op.operandLength))) with
        | .next t => .next (finishStep op.baseCycles t)
        | .fault r => .fault r
        | .refused r => .refused r

/-- The beginning of a step: `stall` is 0, then the poll (31_step.md R291, R293). A step is refused when the machine is
not powered or a fault is set (31_step.md R290; 80_host_and_savestate.md R561). -/
def Obligations.StepGate : Prop :=
  ∀ s : State,
    beginStep s = interruptPoll { s with stall := 0 } ∧
    (s.powered = false → step s = .refused .notPowered) ∧
    (s.powered = true → s.fault.isSome = true → step s = .refused .faultSet)

/-- The end of a step: base cycles and stall make the count, the host gets it, the PPU takes `PPU_RATIO` clocks and the
APU one for each cycle, in the order of R298: in each cycle `PPU_RATIO` PPU clocks and then one APU clock, whose sample
check is a part of it (`Obligations.DeviceActions`). `stall` is 0 again, and clocking changes no register, no flag, no byte
of the array, no button (31_step.md R297 to R299; 20_memory.md R102; 10_state.md R45). -/
def Obligations.StepEnd : Prop :=
  ∀ (baseCycles : Nat) (s : State),
    let t := finishStep baseCycles s
    let cycle (u : State) : State := apuClock (ppuClock^[s.params.ppuRatio] u)
    t.cycles = baseCycles + s.stall ∧ t.stall = 0 ∧
    t.ppu.clocks = s.ppu.clocks + (baseCycles + s.stall) * s.params.ppuRatio ∧
    t.apu.clocks = s.apu.clocks + (baseCycles + s.stall) ∧
    t = { cycle^[baseCycles + s.stall] s with stall := 0, cycles := baseCycles + s.stall } ∧
    t = { s with cycles := t.cycles, stall := t.stall, joy1 := t.joy1, joy2 := t.joy2, mapper := t.mapper,
                 chrRam := t.chrRam, ppu := t.ppu, apu := t.apu, inputs := t.inputs } ∧
    t.joy1 = { s.joy1 with cursor := t.joy1.cursor } ∧ t.joy2 = { s.joy2 with cursor := t.joy2.cursor } ∧
    SameVariant s.mapper t.mapper = true

/-- What the PPU and the APU do inside a clock. A PPU clock runs the actions queued for it in order, and none beyond the
queue: a flag put; a true answer of the mapper's counter sets `PPU.irq_flag` and a false one leaves it; a character read
gives the byte of character RAM or ROM at the mapper's offset; a character write lands in character RAM at that offset and
nowhere else, and has no effect on character ROM; a mirroring read gives what the mapper reports; the frame counter
advances. An APU clock puts its IRQ flag if the queue says so, and then its sample check, if it asks for a byte, is a bus
load with no stall, delivered to the APU (20_memory.md R98, R100, R101; 21_mappers.md R157 to R160; 31_step.md R298). That
the sample fetch leaves the interrupt flags and the frame counter as they were at once is the model's choice (log 16). -/
def Obligations.DeviceActions : Prop :=
  ∀ s : State,
    (∀ b, ppuAct (.putNmi b) s = { s with ppu := { s.ppu with nmiFlag := b } }) ∧
    (∀ b, ppuAct (.putIrq b) s = { s with ppu := { s.ppu with irqFlag := b } }) ∧
    (ppuAct .driveIrqCounter s = { s with
      mapper := s.mapper.driveIrq.2
      ppu := { s.ppu with irqFlag := if s.mapper.driveIrq.1 then true else s.ppu.irqFlag } }) ∧
    (∀ (addr : BitVec 13) (v : Byte), s.chrRam = none → ppuAct (.writeChr addr v) s = s) ∧
    (∀ (addr : BitVec 13) (v : Byte) (m : Memory), s.chrRam = some m → m.wf →
      ∃ m', ppuAct (.writeChr addr v) s = { s with chrRam := some m' } ∧
        ∀ k, m'.read k = if k = s.mapper.mapChr s.cart.chr8 addr then v else m.read k) ∧
    (∀ (addr : BitVec 13) (chr : Memory), s.chrRam = some chr ∨ (s.chrRam = none ∧ s.cart.chr = chr) →
      ppuAct (.readChr addr) s = { s with ppu := { s.ppu with
        events := .chrRead s.ppu.clocks addr (chr.read (s.mapper.mapChr s.cart.chr8 addr)) :: s.ppu.events } }) ∧
    (ppuAct .readMirroring s = { s with ppu := { s.ppu with
      events := .mirroringRead s.ppu.clocks s.mapper.hasMirroring (s.mapper.mirroringType s.params.dummyMirroring) ::
        s.ppu.events } }) ∧
    (ppuAct .advanceFrame s = { s with ppu := { s.ppu with frame := s.ppu.frame + 1 } }) ∧
    (s.inputs.ppuClocks = [] → ppuClock s = { s with ppu := { s.ppu with clocks := s.ppu.clocks + 1 } }) ∧
    (∀ acts rest, s.inputs.ppuClocks = acts :: rest →
      ppuClock s = acts.foldl (fun u act => ppuAct act u) { s with
        ppu := { s.ppu with clocks := s.ppu.clocks + 1 }, inputs := { s.inputs with ppuClocks := rest } }) ∧
    (s.inputs.apuClocks = [] → apuClock s = { s with apu := { s.apu with clocks := s.apu.clocks + 1 } }) ∧
    (∀ putIrq sample rest, s.inputs.apuClocks = ⟨putIrq, sample⟩ :: rest →
      let u : State := { s with
        apu := { s.apu with clocks := s.apu.clocks + 1, irqFlag := putIrq.getD s.apu.irqFlag }
        inputs := { s.inputs with apuClocks := rest } }
      (sample = none → apuClock s = u) ∧ (∀ addr, sample = some addr → apuClock s = deliverSample addr u)) ∧
    (∀ addr : Word, ∃ t, t = (load addr s).2 ∧
      deliverSample addr s = { t with apu := { t.apu with
        events := .sample t.apu.clocks addr (load addr s).1 :: t.apu.events } } ∧ t.stall = s.stall)

/-- "No instruction other than `INVALID` can fail" (42_control.md R461): every other instruction completes in every
state, on every operand. -/
def Obligations.OnlyInvalidFails : Prop :=
  ∀ (i : Instr) (s : State), i.kind ≠ .invalid → ∃ t, exec i s = .next t

/-- INVALID under both policies: the fault with the byte and its address, which is one before `PC`, or `PC` at the
address plus the parameter and nothing else changed (42_control.md R460; 60_exceptions.md R478). -/
def Obligations.InvalidOpcode : Prop :=
  ∀ (b : Byte) (s : State),
    (s.params.invalidPolicy = .fault → exec (.invalid b) s = .fault (.invalidOpcode b (s.pc - 1))) ∧
    (s.params.invalidPolicy = .nopLog →
      exec (.invalid b) s = .next { s with
        pc := s.pc - 1 + match s.params.invalidNopAdvance with | .one => 1 | .two => 2 })

/-- The host's step on an INVALID byte under `Fault`: the fault names the byte and its address, `PC` is one past it,
`fault` is set, `stall` is 0, nothing is clocked or counted, and the faulted state has no further step (31_step.md R301;
10_state.md R45). -/
def Obligations.FaultedStep : Prop :=
  ∀ s : State, Enabled s → s.params.invalidPolicy = .fault →
    let b := beginStep s
    let r := load b.pc b
    (decodeOp r.1).kind = .invalid →
      ∃ t, stepSession s = .faulted (.invalidOpcode r.1 b.pc) t ∧
        t = { r.2 with pc := b.pc + 1, stall := 0, fault := some (.invalidOpcode r.1 b.pc) } ∧
        t.ppu.clocks = s.ppu.clocks ∧ t.apu.clocks = s.apu.clocks ∧ t.cycles = s.cycles ∧
        stepSession t = .refused .faultSet

/-! ### Interrupts and BRK -/

/-- The interrupt poll in every case: idle, NMI, IRQ masked, IRQ taken, both (60_exceptions.md R472, R474, R475, R479).
The states between are those of the rule's lines: the NMI flag is clear when NMI is entered, both IRQ flags are clear
when IRQ is. -/
def Obligations.InterruptPoll : Prop :=
  ∀ s : State, s.ram.wf →
    let irq := s.ppu.irqFlag || s.apu.irqFlag
    let noNmi : State := { s with ppu := { s.ppu with nmiFlag := false } }
    let noIrq (u : State) : State :=
      { u with ppu := { u.ppu with irqFlag := false }, apu := { u.apu with irqFlag := false } }
    let t := interruptPoll s
    let cost := s.params.intEntryCycles
    (s.ppu.nmiFlag = false → irq = false → t = s) ∧
    (s.ppu.nmiFlag = true → irq = false → HandlerEntered false 0xFFFA cost noNmi t) ∧
    (s.ppu.nmiFlag = false → irq = true → s.flag .i = true → t = noIrq s) ∧
    (s.ppu.nmiFlag = false → irq = true → s.flag .i = false → HandlerEntered false 0xFFFE cost (noIrq s) t) ∧
    (s.ppu.nmiFlag = true → irq = true →
      if s.params.irqMaskSample = .stepStart ∧ s.flag .i = false then
        ∃ u, HandlerEntered false 0xFFFA cost noNmi u ∧ HandlerEntered false 0xFFFE cost (noIrq u) t
      else HandlerEntered false 0xFFFA cost (noIrq noNmi) t)

/-- BRK: the padding byte skipped, then handler entry with B set through 0xFFFE, whatever `P.I` holds and with no entry
stall (42_control.md R440; 60_exceptions.md R480, R481, R484). -/
def Obligations.BrkEntry : Prop :=
  EncodedAs [0x00] .brk 7 ∧
  ∀ s : State, s.ram.wf →
    ∃ t, exec .brk s = .next t ∧ HandlerEntered true 0xFFFE 0 { s with pc := s.pc + 1 } t

/-- RTI pulls all eight bits of `P`, then `PC` with no 1 added, and changes nothing else; so it undoes a handler entry:
`PC` and `SP` are back, and so are the six flags other than B and U, I among them (42_control.md R424; 60_exceptions.md
R479, R486). -/
def Obligations.ReturnFromInterrupt : Prop :=
  EncodedAs [0x40] .rti 6 ∧
  (∀ s : State, exec .rti s = .next { s with
    p := s.ram.read (256 + (s.sp + 1).toNat)
    pc := s.ram.read (256 + (s.sp + 3).toNat) ++ s.ram.read (256 + (s.sp + 2).toNat)
    sp := s.sp + 3 }) ∧
  (∀ (brk : Bool) (vector : Word) (extra : Nat) (s t : State), HandlerEntered brk vector extra s t →
    ∃ u, exec .rti t = .next u ∧ u.pc = s.pc ∧ u.sp = s.sp ∧
      FlagsBecome s.p u.p fun f => match f with
        | .b => some brk
        | .u => some true
        | _ => none)

/-! ### The bus -/

/-- Every row of the load partition (20_memory.md R82), and the calls it makes: a device register read answers with the head
of its queue, or the next free value beyond it, and is recorded; a joypad read answers with the bit under the cursor, 1
past the eighth, and advances the cursor where the port is not strobed (20_memory.md R96, R99, R107; log 5, log 6). That a
register read leaves the interrupt flags and the frame counter as they were at once is log 6 (DEDUCED). -/
def Obligations.LoadPartition : Prop :=
  (∀ (a : Word) (s : State),
    (a.toNat ≤ 0x1FFF → load a s = (s.ram.read (a &&& 0x07FF).toNat, s)) ∧
    (0x2000 ≤ a.toNat → a.toNat ≤ 0x3FFF → load a s = ppuRead (BitVec.ofNat 3 a.toNat) s) ∧
    (a = 0x4014 → load a s = (0x00, s)) ∧
    (a = 0x4016 → load a s = (s.joy1.value, { s with joy1 := s.joy1.advance })) ∧
    (a = 0x4017 → load a s = (s.joy2.value, { s with joy2 := s.joy2.advance })) ∧
    (0x4000 ≤ a.toNat → a.toNat ≤ 0x4015 → a ≠ 0x4014 → load a s = apuRead (BitVec.ofNat 5 (a.toNat - 0x4000)) s) ∧
    (0x4018 ≤ a.toNat → a.toNat ≤ 0x401F → load a s = (0x00, s)) ∧
    (0x4020 ≤ a.toNat → a.toNat ≤ 0x7FFF → load a s = (s.ram.read a.toNat, s)) ∧
    (0x8000 ≤ a.toNat → load a s = (s.cart.prg.read (s.mapper.map s.cart.prg16 a), s))) ∧
  (∀ (i : BitVec 3) (s : State),
    let answer (v : Byte) (rest : Inputs) : Byte × State :=
      (v, { s with inputs := rest, ppu := { s.ppu with events := .read s.ppu.clocks i v :: s.ppu.events } })
    (∀ v rest, s.inputs.ppuReads = v :: rest → ppuRead i s = answer v { s.inputs with ppuReads := rest }) ∧
    (s.inputs.ppuReads = [] → ppuRead i s =
      answer (Config.freeRead s.inputs.freeReads) { s.inputs with freeReads := s.inputs.freeReads + 1 })) ∧
  (∀ (i : BitVec 5) (s : State),
    let answer (v : Byte) (rest : Inputs) : Byte × State :=
      (v, { s with inputs := rest, apu := { s.apu with events := .read s.apu.clocks i v :: s.apu.events } })
    (∀ v rest, s.inputs.apuReads = v :: rest → apuRead i s = answer v { s.inputs with apuReads := rest }) ∧
    (s.inputs.apuReads = [] → apuRead i s =
      answer (Config.freeRead s.inputs.freeReads) { s.inputs with freeReads := s.inputs.freeReads + 1 })) ∧
  (∀ j : Joypad,
    (j.cursor < 8 → j.value = if j.buttons.getLsbD j.cursor then 1 else 0) ∧ (8 ≤ j.cursor → j.value = 1) ∧
    j.advance = { j with cursor := if j.latch = false ∧ j.cursor < 8 then j.cursor + 1 else j.cursor })

/-- Every row of the store partition (20_memory.md R83), and the calls it makes: a device register write is recorded, and a
strobe sets both latches to bit 0 and resets the cursor of a strobed port (20_memory.md R96, R99, R106; log 5). That a
register write leaves the interrupt flags and the frame counter as they were at once is log 6 (DEDUCED). -/
def Obligations.StorePartition : Prop :=
  (∀ (a : Word) (v : Byte) (s : State),
    (a.toNat ≤ 0x1FFF → store a v s = { s with ram := s.ram.write (a &&& 0x07FF).toNat v }) ∧
    (0x2000 ≤ a.toNat → a.toNat ≤ 0x3FFF → store a v s = ppuWrite (BitVec.ofNat 3 a.toNat) v s) ∧
    (a = 0x4014 → store a v s = oamDma v s) ∧
    (a = 0x4016 → store a v s = { s with joy1 := s.joy1.strobe v, joy2 := s.joy2.strobe v }) ∧
    (0x4000 ≤ a.toNat → a.toNat ≤ 0x4017 → a ≠ 0x4014 → a ≠ 0x4016 →
      store a v s = apuWrite (BitVec.ofNat 5 (a.toNat - 0x4000)) v s) ∧
    (0x4018 ≤ a.toNat → a.toNat ≤ 0x401F → store a v s = s) ∧
    (0x4020 ≤ a.toNat → a.toNat ≤ 0x7FFF → store a v s = { s with ram := s.ram.write a.toNat v }) ∧
    (0x8000 ≤ a.toNat → store a v s = { s with mapper := s.mapper.store a v })) ∧
  (∀ (i : BitVec 3) (v : Byte) (s : State), ppuWrite i v s =
    { s with ppu := { s.ppu with events := .write s.ppu.clocks i v :: s.ppu.events } }) ∧
  (∀ (i : BitVec 5) (v : Byte) (s : State), apuWrite i v s =
    { s with apu := { s.apu with events := .write s.apu.clocks i v :: s.apu.events } }) ∧
  (∀ (j : Joypad) (v : Byte), j.strobe v =
    { j with latch := decide (v.toNat % 2 = 1), cursor := if v.toNat % 2 = 1 then 0 else j.cursor })

/-- The four aliases of internal RAM, where the zero page and the stack page stand, and the mirrors of the PPU registers,
whose loads and stores make the same call (20_memory.md R86, R88). -/
def Obligations.Mirrors : Prop :=
  (∀ (a : Word) (s : State) (k : Nat), a.toNat ≤ 0x07FF → k ≤ 3 →
    load (a + BitVec.ofNat 16 (k * 0x800)) s = load a s) ∧
  (∀ (a : Word) (v : Byte) (s : State) (j k : Nat), a.toNat ≤ 0x07FF → j ≤ 3 → k ≤ 3 → s.ram.wf →
    (load (a + BitVec.ofNat 16 (k * 0x800)) (store (a + BitVec.ofNat 16 (j * 0x800)) v s)).1 = v) ∧
  (∀ a : Word, a.toNat ≤ 0x01FF → busRegion a = .ram a.toNat) ∧
  (∀ (a : Word) (s : State), 0x2000 ≤ a.toNat → a.toNat ≤ 0x3FFF →
    load a s = load (0x2000 ||| (a &&& 7)) s ∧ ∀ v, store a v s = store (0x2000 ||| (a &&& 7)) v s)

/-- What a bus store changes, part by part, at every address (20_memory.md R83, R95, R110). That a store to a device register
leaves the interrupt flags and the frame counter as they were at once is log 6 (DEDUCED): R96 and R99 leave its effects
external. -/
def Obligations.StoreEffect : Prop :=
  ∀ (ea : Word) (v : Byte) (s : State), s.ram.wf → Stored ea v s (store ea v s)

/-- What a bus load changes: only the devices' side, and nothing at the addresses whose loads have no side effect
(20_memory.md R102, R115). That a load of a device register leaves the interrupt flags and the frame counter as they were
at once is log 6 (DEDUCED): R96 and R99 leave its effects external. -/
def Obligations.LoadEffect : Prop :=
  ∀ (a : Word) (s : State),
    DevicesOnly s (load a s).2 ∧
    (a.toNat ≤ 0x1FFF ∨ a = 0x4014 ∨ 0x4018 ≤ a.toNat → (load a s).2 = s)

/-- OAM DMA from a page whose loads have no side effect: the 256 bytes of the page go to PPU register 4 in increasing
order, 514 stall cycles are added, and nothing else changes (20_memory.md R110, R111). Newest event first. That the 256
writes leave the PPU's interrupt flags and frame counter as they were at once is log 6 (DEDUCED): R96 leaves their effects
external. -/
def Obligations.OamDmaCopies : Prop :=
  ∀ (pg : Byte) (s : State), pg.toNat < 0x20 ∨ 0x41 ≤ pg.toNat →
    store 0x4014 pg s = { s with
      stall := s.stall + 514
      ppu := { s.ppu with
        events := ((List.range 256).map fun i =>
          PpuEvent.write s.ppu.clocks 4 (load (BitVec.ofNat 16 (pg.toNat * 256 + i)) s).1).reverse ++
            s.ppu.events } }

/-- OAM DMA from any page, device pages included: 256 more writes of PPU register 4, 514 stall cycles, the PPU and APU
clocks unmoved, and no change but on the devices' side (20_memory.md R110, R111). -/
def Obligations.OamDmaAnyPage : Prop :=
  ∀ (pg : Byte) (s : State),
    let t := store 0x4014 pg s
    let writes (u : State) := u.ppu.events.countP fun e => match e with
      | .write _ 4 _ => true
      | _ => false
    t.stall = s.stall + 514 ∧ writes t = writes s + 256 ∧ DevicesOnly s { t with stall := s.stall }

/-- Reading a controller after a strobe: held, every read is the A button and the cursor stays 0; released, the eight
buttons in order and then 1; each port moves only its own cursor (20_memory.md R106 to R108). -/
def Obligations.JoypadReads : Prop :=
  ∀ s : State,
    let held := store 0x4016 1 s
    let released := store 0x4016 0 held
    let bit (b : Bool) : Byte := if b then 1 else 0
    (∀ n,
      (load 0x4016 (afterLoads 0x4016 n held)).1 = bit (s.joy1.buttons.getLsbD 0) ∧
      (afterLoads 0x4016 n held).joy1.cursor = 0 ∧
      (load 0x4017 (afterLoads 0x4017 n held)).1 = bit (s.joy2.buttons.getLsbD 0) ∧
      (afterLoads 0x4017 n held).joy2.cursor = 0) ∧
    (∀ n,
      (load 0x4016 (afterLoads 0x4016 n released)).1 = (if n < 8 then bit (s.joy1.buttons.getLsbD n) else 1) ∧
      (load 0x4017 (afterLoads 0x4017 n released)).1 = (if n < 8 then bit (s.joy2.buttons.getLsbD n) else 1)) ∧
    (∀ u : State, (load 0x4016 u).2.joy2 = u.joy2 ∧ (load 0x4017 u).2.joy1 = u.joy1)

/-! ### Mappers -/

/-- Every variant maps every program address into program ROM and every pattern address into character memory
(21_mappers.md R152, R157). -/
def Obligations.MapInBounds : Prop :=
  (∀ (m : Mapper) (prg16 : Nat) (a : Word), 1 ≤ prg16 → 0x8000 ≤ a.toNat → m.map prg16 a < prg16 * 16384) ∧
  (∀ (m : Mapper) (chr8 : Nat) (a : BitVec 13), m.mapChr chr8 a < max chr8 1 * 8192)

/-- NROM's map, with one bank and with two, and the four worked values of each (21_mappers.md R166). -/
def Obligations.NromMap : Prop :=
  (∀ (prg16 : Nat) (a : Word), 0x8000 ≤ a.toNat →
    Mapper.nrom.map prg16 a = (a.toNat - 0x8000) % (prg16 * 16384)) ∧
  (∀ a : Word, 0x8000 ≤ a.toNat → Mapper.nrom.map 1 a = (a &&& 0x3FFF).toNat) ∧
  (∀ a : Word, 0x8000 ≤ a.toNat → Mapper.nrom.map 2 a = (a &&& 0x7FFF).toNat) ∧
  Mapper.nrom.map 1 0x8000 = 0x0000 ∧ Mapper.nrom.map 1 0xBFFF = 0x3FFF ∧
  Mapper.nrom.map 1 0xC000 = 0x0000 ∧ Mapper.nrom.map 1 0xFFFF = 0x3FFF ∧
  Mapper.nrom.map 2 0xC000 = 0x4000 ∧ Mapper.nrom.map 2 0xFFFF = 0x7FFF

/-- NROM, UxROM and CNROM, register by register: NROM ignores a store and switches nothing; any store at 0x8000 and up sets
UxROM's and CNROM's bank; UxROM switches the lower half and fixes the last bank in the upper; CNROM switches the 8 KiB
character bank and maps program ROM as NROM does; none of them has an IRQ counter or controls mirroring, for which they
report the parameter (21_mappers.md R160, R167, R168, R181 to R183, R186, R187). -/
def Obligations.SimpleBankSelect : Prop :=
  ∀ (b v : Byte) (a c : Word) (ch : BitVec 13) (prg16 chr8 : Nat), 1 ≤ prg16 → 0x8000 ≤ a.toNat → 0x8000 ≤ c.toNat →
    Mapper.nrom.store a v = .nrom ∧
    Mapper.nrom.mapChr chr8 ch = ch.toNat ∧
    (Mapper.uxrom b).store a v = .uxrom v ∧
    ((Mapper.uxrom b).store a v).map prg16 c =
      (if c.toNat < 0xC000 then v.toNat % prg16 else prg16 - 1) * 16384 + c.toNat % 16384 ∧
    ((Mapper.uxrom b).store a v).mapChr chr8 ch = ch.toNat ∧
    (Mapper.cnrom b).store a v = .cnrom v ∧
    ((Mapper.cnrom b).store a v).map prg16 c = Mapper.nrom.map prg16 c ∧
    ((Mapper.cnrom b).store a v).mapChr chr8 ch = v.toNat % max chr8 1 * 8192 + ch.toNat ∧
    ∀ m ∈ [Mapper.nrom, .uxrom b, .cnrom b],
      m.driveIrq = (false, m) ∧ m.hasMirroring = false ∧ ∀ dummy : Mirroring, m.mirroringType dummy = dummy

/-- MMC1's sequence: from an empty shift register, five writes with bit 7 clear put their low bits, first bit lowest,
into the register the fifth address selects, change no other and empty the shift register; a write with bit 7 set
empties it at once and sets PRG mode 3 (21_mappers.md R171, R172). And what its registers do: the program bank of each
PRG mode, the character banks of both CHR modes, the mirroring, and no IRQ (R173 to R176). -/
def Obligations.Mmc1Sequence : Prop :=
  (∀ (r : Mmc1) (a1 a2 a3 a4 a5 : Word) (v1 v2 v3 v4 v5 : Byte), r.count = 0 →
    (∀ v ∈ [v1, v2, v3, v4, v5], v.getLsbD 7 = false) → 0x8000 ≤ a5.toNat →
    let t := (((((Mapper.mmc1 r).store a1 v1).store a2 v2).store a3 v3).store a4 v4).store a5 v5
    ∃ w : BitVec 5,
      (w.getLsbD 0 = v1.getLsbD 0 ∧ w.getLsbD 1 = v2.getLsbD 0 ∧ w.getLsbD 2 = v3.getLsbD 0 ∧
        w.getLsbD 3 = v4.getLsbD 0 ∧ w.getLsbD 4 = v5.getLsbD 0) ∧
      t = .mmc1 { shift := 0, count := 0
                  control := if a5.toNat < 0xA000 then w else r.control
                  chr0 := if 0xA000 ≤ a5.toNat ∧ a5.toNat < 0xC000 then w else r.chr0
                  chr1 := if 0xC000 ≤ a5.toNat ∧ a5.toNat < 0xE000 then w else r.chr1
                  prg := if 0xE000 ≤ a5.toNat then w else r.prg }) ∧
  (∀ (r : Mmc1) (a : Word) (v : Byte), v.getLsbD 7 = true →
    (Mapper.mmc1 r).store a v = .mmc1 { r with shift := 0, count := 0, control := r.control ||| 0x0C }) ∧
  (∀ (r : Mmc1) (prg16 : Nat) (a : Word), 0x8000 ≤ a.toNat →
    let mode := r.control.toNat / 4 % 4
    let p := r.prg.toNat % 16
    let bank :=
      if mode ≤ 1 then p / 2 * 2 + (if a.toNat < 0xC000 then 0 else 1)
      else if mode = 2 then (if a.toNat < 0xC000 then 0 else p)
      else if a.toNat < 0xC000 then p else prg16 - 1
    (Mapper.mmc1 r).map prg16 a = bank % prg16 * 16384 + a.toNat % 16384) ∧
  (∀ (r : Mmc1) (chr8 : Nat) (a : BitVec 13),
    let bank :=
      if r.control.toNat / 16 = 0 then r.chr0.toNat / 2 * 2 + (if a.toNat < 0x1000 then 0 else 1)
      else if a.toNat < 0x1000 then r.chr0.toNat else r.chr1.toNat
    (Mapper.mmc1 r).mapChr chr8 a = bank % (2 * max chr8 1) * 4096 + a.toNat % 4096) ∧
  (∀ (r : Mmc1) (dummy : Mirroring),
    (Mapper.mmc1 r).hasMirroring = true ∧
    (Mapper.mmc1 r).mirroringType dummy =
      (if r.control.toNat % 4 = 0 then .singleScreenLower else if r.control.toNat % 4 = 1 then .singleScreenUpper
        else if r.control.toNat % 4 = 2 then .vertical else .horizontal) ∧
    (Mapper.mmc1 r).driveIrq = (false, .mmc1 r))

/-- MMC3's pair: a bank-select write at an even address of 0x8000 to 0x9FFF and a parameter write at an odd one change
only `bank_select` and the addressed bank register (21_mappers.md R197). And the rest of its registers: the writes at
0xA000 and up, the program banks in both orders of the slots, the character banks in both orders, the mirroring (R191 to
R194). -/
def Obligations.Mmc3Pair : Prop :=
  (∀ (r : Mmc3) (even odd : Word) (command v : Byte),
    0x8000 ≤ even.toNat → even.toNat < 0xA000 → even.toNat % 2 = 0 →
    0x8000 ≤ odd.toNat → odd.toNat < 0xA000 → odd.toNat % 2 = 1 →
    ∃ q : Vector Byte 8, ((Mapper.mmc3 r).store even command).store odd v =
        .mmc3 { r with bankSelect := command, r := q } ∧
      ∀ k (h : k < 8), q[k] = if k = command.toNat % 8 then v else r.r[k]) ∧
  (∀ (r : Mmc3) (a : Word) (v : Byte), 0xA000 ≤ a.toNat →
    (Mapper.mmc3 r).store a v = .mmc3 (
      if a.toNat < 0xC000 then
        if a.toNat % 2 = 0 then { r with mirroring := BitVec.ofNat 1 v.toNat } else { r with prgRamProtect := v }
      else if a.toNat < 0xE000 then
        if a.toNat % 2 = 0 then { r with irqLatch := v, irqReload := true } else { r with irqReload := true }
      else { r with irqEnabled := decide (a.toNat % 2 = 1) })) ∧
  (∀ (r : Mmc3) (prg16 : Nat) (a : Word), 0x8000 ≤ a.toNat →
    let swapped := r.bankSelect.getLsbD 6
    let bank :=
      if a.toNat < 0xA000 then (if swapped then 2 * prg16 - 2 else (r.r[6]).toNat)
      else if a.toNat < 0xC000 then (r.r[7]).toNat
      else if a.toNat < 0xE000 then (if swapped then (r.r[6]).toNat else 2 * prg16 - 2)
      else 2 * prg16 - 1
    (Mapper.mmc3 r).map prg16 a = bank % (2 * prg16) * 8192 + a.toNat % 8192) ∧
  (∀ (r : Mmc3) (chr8 : Nat) (a : BitVec 13),
    let banks : List Nat := [(r.r[0]).toNat / 2 * 2, (r.r[0]).toNat / 2 * 2 + 1, (r.r[1]).toNat / 2 * 2,
      (r.r[1]).toNat / 2 * 2 + 1, (r.r[2]).toNat, (r.r[3]).toNat, (r.r[4]).toNat, (r.r[5]).toNat]
    let slot := if r.bankSelect.getLsbD 7 then (a.toNat / 1024 + 4) % 8 else a.toNat / 1024
    ∃ bank, banks[slot]? = some bank ∧
      (Mapper.mmc3 r).mapChr chr8 a = bank % (8 * max chr8 1) * 1024 + a.toNat % 1024) ∧
  (∀ (r : Mmc3) (dummy : Mirroring),
    (Mapper.mmc3 r).hasMirroring = true ∧
    (Mapper.mmc3 r).mirroringType dummy = (if r.mirroring.toNat = 0 then .vertical else .horizontal))

/-- MMC3's scanline counter from an armed reload: it answers true exactly once a period, at the period's last call, when
the IRQ is enabled, and never when it is not; the period is the latch plus 1, and 257 for a latch of 0; the counter
runs the same whether or not the IRQ is enabled (21_mappers.md R195, R196). -/
def Obligations.Mmc3IrqPeriod : Prop :=
  ∀ (r : Mmc3), r.irqReload = true →
    let period := if r.irqLatch = 0 then 257 else r.irqLatch.toNat + 1
    (∀ n, (Mapper.mmc3 r).driveAnswer n = (r.irqEnabled && decide (n % period = period - 1))) ∧
    (∀ (n : Nat) (e : Bool) (q : Mmc3), (Mapper.mmc3 r).afterDrives n = .mmc3 q →
      (Mapper.mmc3 { r with irqEnabled := e }).afterDrives n = .mmc3 { q with irqEnabled := e })

/-- FME-7's down-counter: with the enable bit set, the call after `n` calls from a counter of `n` answers true, and then
every 65 536th; with it clear no call does (21_mappers.md R206, R207). And its registers: the command write, the
parameter write to each of the sixteen commands, the window that ignores a store, the program and character banks, the
mirroring (R201 to R205). -/
def Obligations.Fme7IrqPeriod : Prop :=
  (∀ (r : Fme7) (n : Nat),
    (Mapper.fme7 r).driveAnswer n = (r.irqControl.getLsbD 0 && decide (n % 65536 = r.irqCounter.toNat))) ∧
  (∀ (r : Fme7) (a : Word) (v : Byte), 0x8000 ≤ a.toNat →
    (a.toNat < 0xA000 → (Mapper.fme7 r).store a v = .fme7 { r with command := BitVec.ofNat 4 v.toNat }) ∧
    (0xC000 ≤ a.toNat → (Mapper.fme7 r).store a v = .fme7 r) ∧
    (0xA000 ≤ a.toNat → a.toNat < 0xC000 →
      let c := r.command.toNat
      ∃ (chr : Vector Byte 8) (prg : Vector Byte 4) (counter : Word),
        (Mapper.fme7 r).store a v = .fme7 { r with
          chr := chr, prg := prg, irqCounter := counter
          mirroring := if c = 12 then BitVec.ofNat 2 v.toNat else r.mirroring
          irqControl := if c = 13 then v else r.irqControl } ∧
        (∀ k (h : k < 8), chr[k] = if c = k then v else r.chr[k]) ∧
        (∀ k (h : k < 4), prg[k] = if c = 8 + k then v else r.prg[k]) ∧
        counter.toNat = (if c = 14 then r.irqCounter.toNat / 256 * 256 + v.toNat
          else if c = 15 then v.toNat * 256 + r.irqCounter.toNat % 256 else r.irqCounter.toNat))) ∧
  (∀ (r : Fme7) (prg16 : Nat) (a : Word), 0x8000 ≤ a.toNat →
    let bank :=
      if a.toNat < 0xA000 then (r.prg[1]).toNat
      else if a.toNat < 0xC000 then (r.prg[2]).toNat
      else if a.toNat < 0xE000 then (r.prg[3]).toNat
      else 2 * prg16 - 1
    (Mapper.fme7 r).map prg16 a = bank % (2 * prg16) * 8192 + a.toNat % 8192) ∧
  (∀ (r : Fme7) (chr8 : Nat) (a : BitVec 13),
    ∃ bank, r.chr[a.toNat / 1024]? = some bank ∧
      (Mapper.fme7 r).mapChr chr8 a = bank.toNat % (8 * max chr8 1) * 1024 + a.toNat % 1024) ∧
  (∀ (r : Fme7) (dummy : Mirroring),
    (Mapper.fme7 r).hasMirroring = true ∧
    (Mapper.fme7 r).mirroringType dummy =
      (if r.mirroring.toNat = 0 then .vertical else if r.mirroring.toNat = 1 then .horizontal
        else if r.mirroring.toNat = 2 then .singleScreenLower else .singleScreenUpper))

/-! ### Power-on, load, host -/

/-- Power-on: the registers of 70_reset_and_hazards.md R521, `PC` from the RESET vector through the mapper, and the rest
of the state as R520 gives it. The PPU's frame, clocks and events, the input queues and the last cycle count are the
model's choice (log 5, log 6, log 7, log 9) and are not stated. -/
def Obligations.PowerOn : Prop :=
  ∀ (params : Params) (cart : Cart) (m : Mapper),
    let s := powerOn params cart m
    s.a = 0x00 ∧ s.x = 0x00 ∧ s.y = 0x00 ∧ s.sp = 0xFD ∧ s.p = 0x34 ∧
    (s.flag .u = true ∧ s.flag .b = true ∧ s.flag .i = true ∧ s.flag .n = false ∧ s.flag .v = false ∧
      s.flag .d = false ∧ s.flag .z = false ∧ s.flag .c = false) ∧
    s.pc = cart.prg.read (m.map cart.prg16 0xFFFD) ++ cart.prg.read (m.map cart.prg16 0xFFFC) ∧
    s.ram = params.ramInit ∧ s.mapper = m ∧ s.chrRam = (if cart.chr8 = 0 then some [] else none) ∧
    s.joy1 = ⟨0, 0, false⟩ ∧ s.joy2 = ⟨0, 0, false⟩ ∧
    s.ppu.nmiFlag = false ∧ s.ppu.irqFlag = false ∧ s.apu.irqFlag = false ∧
    s.stall = 0 ∧ s.fault = none ∧ s.powered = true ∧ s.cart = cart ∧ s.params = params

/-- The host's reset: `SP - 3`, I set, `PC` from the RESET vector through the mapper, `stall` 0, and nothing else, a set
fault included, but the devices, whose own reset is external; it is refused before power-on (70_reset_and_hazards.md R522, R523). -/
def Obligations.HostReset : Prop :=
  ∀ (ppu : Ppu) (apu : Apu) (s : State),
    (s.powered = false → resetSession ppu apu s = none) ∧
    (s.powered = true → ∃ p, resetSession ppu apu s = some { s with
        sp := s.sp - 3, p := p, stall := 0, ppu := ppu, apu := apu
        pc := s.cart.prg.read (s.mapper.map s.cart.prg16 0xFFFD) ++
          s.cart.prg.read (s.mapper.map s.cart.prg16 0xFFFC) } ∧
      FlagsBecome s.p p fun f => match f with
        | .i => some true
        | _ => none)

/-- When a load fails and how (21_mappers.md R144, R145), which variant each mapper number selects and with which power-on
registers (R145, R178, R180, R185, R190, R200; 70_reset_and_hazards.md R524), the header's mirroring hint (21_mappers.md
R142), that a loaded cartridge's memories hold the payload (R143), and that session start is the load's error as it is, or
power-on of the loaded cartridge and variant (80_host_and_savestate.md R560). That a malformed image of an unknown number is
reported as malformed is the model's choice (log 14), and that the fixed numbers win over `FME7_MAPPER_ID` too (log 12). -/
def Obligations.CartridgeLoad : Prop :=
  ∀ (params : Params) (image : List Byte),
    let b (k : Nat) : Byte := image.getD k 0
    let prgStart := if (b 6).getLsbD 2 then 528 else 16
    let malformed := image.length < 16 ∨ image.take 4 ≠ [0x4E, 0x45, 0x53, 0x1A] ∨ b 4 = 0 ∨
      image.length < prgStart + (b 4).toNat * 16384 + (b 5).toNat * 8192
    let number : Byte := ((b 7) &&& 0xF0) ||| ((b 6) >>> 4)
    let variant : Option Mapper :=
      if number = 0 then some .nrom
      else if number = 1 then some (.mmc1 ⟨0, 0, 0x0C, 0, 0, 0⟩)
      else if number = 2 then some (.uxrom 0)
      else if number = 3 then some (.cnrom 0)
      else if number = 4 then some (.mmc3 ⟨0, #v[0, 0, 0, 0, 0, 0, 0, 0], 0, 0, 0, 0, false, false⟩)
      else if number = params.fme7MapperId then
        some (.fme7 ⟨0, #v[0, 0, 0, 0, 0, 0, 0, 0], #v[0, 0, 0, 0], 0, 0, 0⟩)
      else none
    (loadCart params image = .error .malformedHeader ↔ malformed) ∧
    (¬malformed → variant = none → loadCart params image = .error (.unsupportedMapper number)) ∧
    (∀ m, ¬malformed → variant = some m →
      ∃ cart, loadCart params image = .ok (cart, m) ∧ CartOk cart ∧
        cart.prg16 = (b 4).toNat ∧ cart.chr8 = (b 5).toNat ∧
        cart.hint = (if (b 6).getLsbD 3 then .fourScreen else if (b 6).getLsbD 0 then .vertical else .horizontal) ∧
        (∀ k < cart.prg16 * 16384, cart.prg.read k = b (prgStart + k)) ∧
        (∀ k < cart.chr8 * 8192, cart.chr.read k = b (prgStart + cart.prg16 * 16384 + k))) ∧
    (∀ e, loadCart params image = .error e → sessionStart params image = .error e) ∧
    (∀ cart m, loadCart params image = .ok (cart, m) → sessionStart params image = .ok (powerOn params cart m))

/-- The frame step: it applies the input, whose every event writes the bit of its button in its port's `buttons`, one event
after the other, and nothing else; then it runs at least one step, until the frame counter is not what it was after the
input, and returns the sum of the steps' cycle counts; a fault of a step ends it with that fault. Both ways round: it answers
so only after such steps, and after such steps, fewer than its bound (log 13), it answers so (80_host_and_savestate.md
R563, R568; 20_memory.md R105). -/
def Obligations.FrameStep : Prop :=
  (∀ (events : List ButtonEvent) (s : State),
    let t := applyInput events s
    t = { s with joy1 := { s.joy1 with buttons := t.joy1.buttons },
                 joy2 := { s.joy2 with buttons := t.joy2.buttons } }) ∧
  (∀ (e : ButtonEvent) (events : List ButtonEvent) (s : State),
    let bit : Nat := match e.button with
      | .a => 0 | .b => 1 | .select => 2 | .start => 3 | .up => 4 | .down => 5 | .left => 6 | .right => 7
    let t := applyInput [e] s
    applyInput (e :: events) s = applyInput events t ∧ applyInput [] s = s ∧
    ∀ k < 8,
      t.joy1.buttons.getLsbD k = (if e.second = false ∧ k = bit then e.held else s.joy1.buttons.getLsbD k) ∧
      t.joy2.buttons.getLsbD k = (if e.second = true ∧ k = bit then e.held else s.joy2.buttons.getLsbD k)) ∧
  (∀ (fuel : Nat) (events : List ButtonEvent) (s t : State) (total : Nat),
    stepFrame fuel events s = .done total t →
      ∃ n cycles u, RunsFor n cycles (applyInput events s) u ∧ StepsTo u t ∧ total = cycles + t.cycles ∧
        t.ppu.frame ≠ s.ppu.frame ∧
        ∀ k ≤ n, ∀ v, StepsIn k (applyInput events s) v → v.ppu.frame = s.ppu.frame) ∧
  (∀ (fuel : Nat) (events : List ButtonEvent) (s t : State) (f : Fault),
    stepFrame fuel events s = .faulted f t →
      ∃ n u, StepsIn n (applyInput events s) u ∧ stepSession u = .faulted f t) ∧
  (∀ (fuel n cycles : Nat) (events : List ButtonEvent) (s u : State),
    RunsFor n cycles (applyInput events s) u → n < fuel →
    (∀ k ≤ n, ∀ v, StepsIn k (applyInput events s) v → v.ppu.frame = s.ppu.frame) →
    (∀ t, StepsTo u t → t.ppu.frame ≠ s.ppu.frame → stepFrame fuel events s = .done (cycles + t.cycles) t) ∧
    (∀ f t, stepSession u = .faulted f t → stepFrame fuel events s = .faulted f t))

/-! ### Save states -/

/-- Decoding an encoded save state gives it back, for every save state the codec can hold; and every snapshot of a sound
state is one, so it comes back whole (80_host_and_savestate.md R578, R583, R585, R588). -/
def Obligations.SaveDecodeAfterEncode : Prop :=
  (∀ (params : Params) (s : SaveState), SaveOk params s →
    decodeSave params (encodeSave params.fme7MapperId s) = .ok s) ∧
  (∀ (dev : DeviceCodec) (s : State) (save : SaveState), StateOk s → snapshot dev s = some save →
    decodeSave s.params (encodeSave s.params.fme7MapperId save) = .ok save)

/-- Whatever the codec accepts encodes back to the same bytes (80_host_and_savestate.md R585, R588). -/
def Obligations.SaveEncodeAfterDecode : Prop :=
  ∀ (params : Params) (bytes : List Byte) (s : SaveState),
    decodeSave params bytes = .ok s → encodeSave params.fme7MapperId s = bytes

/-- The version is checked before anything else, by the codec and by restore (80_host_and_savestate.md R585, R586). -/
def Obligations.VersionChecked : Prop :=
  (∀ (params : Params) (b0 b1 b2 b3 : Byte) (rest : List Byte), b3 ++ b2 ++ b1 ++ b0 ≠ params.saveStateVersion →
    decodeSave params (b0 :: b1 :: b2 :: b3 :: rest) = .error (.versionMismatch (b3 ++ b2 ++ b1 ++ b0))) ∧
  (∀ (params : Params) (bytes : List Byte), bytes.length < 4 → decodeSave params bytes = .error .decodeError) ∧
  (∀ (dev : DeviceCodec) (save : SaveState) (s : State), s.powered = true → save.version ≠ s.params.saveStateVersion →
    restore dev save s = some (.error (.versionMismatch save.version)))

/-- Restoring a snapshot on an instance of the same cartridge succeeds: registers, array, joypads, mapper and character RAM
are the source's, the interrupt flags are too, and so is the frame counter as far as the device's own counter goes;
`fault`, `powered` and the cartridge stay. Given the same device behaviour, the next step is then the source's: the same
fault or refusal, or next states that differ at most in the devices' records. A save state that does not fit, or whose
blob a device rejects, is an error that leaves the state (80_host_and_savestate.md R570, R575, R586 to R589). -/
def Obligations.RestoreAfterSnapshot : Prop :=
  (∀ (dev : DeviceCodec) (s t : State) (save : SaveState), snapshot dev s = some save →
    t.powered = true → t.params = s.params → t.cart = s.cart →
    SameVariant s.mapper t.mapper = true → t.chrRam.isSome = s.chrRam.isSome →
    ∃ u, restore dev save t = some (.ok u) ∧
      u = { t with
        pc := s.pc, sp := s.sp, a := s.a, x := s.x, y := s.y, p := s.p, ram := s.ram, joy1 := s.joy1
        joy2 := s.joy2, mapper := s.mapper, chrRam := s.chrRam, ppu := u.ppu, apu := u.apu, stall := 0 } ∧
      u.ppu.nmiFlag = s.ppu.nmiFlag ∧ u.ppu.irqFlag = s.ppu.irqFlag ∧ u.apu.irqFlag = s.apu.irqFlag ∧
      (s.ppu.frame < dev.frameValues → u.ppu.frame = s.ppu.frame) ∧
      (s.stall = 0 → t.fault = s.fault → t.inputs = s.inputs →
        (∀ f, step s = .fault f → step u = .fault f) ∧
        (∀ r, step s = .refused r → step u = .refused r) ∧
        (∀ v, step s = .next v → ∃ w, step u = .next w ∧ SameCore v w ∧ w.cycles = v.cycles ∧
          (s.ppu.frame < dev.frameValues → w.ppu.frame = v.ppu.frame)))) ∧
  (∀ (dev : DeviceCodec) (save : SaveState) (t : State), t.powered = true →
    save.version = t.params.saveStateVersion →
    mapperTag t.params.fme7MapperId save.mapper ≠ mapperTag t.params.fme7MapperId t.mapper ∨
      save.chrRam.isSome ≠ t.chrRam.isSome ∨ dev.ppuOfBlob save.ppu = none ∨ dev.apuOfBlob save.apu = none →
    restore dev save t = some (.error .decodeError)) ∧
  (∀ (dev : DeviceCodec) (save : SaveState) (t : State), t.powered = false →
    snapshot dev t = none ∧ restore dev save t = none)

/-! ### Invariants and whole-machine rules -/

/-- The invariant holds at reset, and after every session start: parameters in their bounds and an image that loads
(00_scope.md R9; 10_state.md R45, R49, R57; 80_host_and_savestate.md R560). -/
def Obligations.ResetOk : Prop :=
  StateOk State.reset ∧
  ∀ (params : Params) (image : List Byte) (s : State), ParamsOk params → sessionStart params image = .ok s → StateOk s

/-- Every step keeps the invariant: parameters in their bounds, memories in canonical form and in range, cursors 0 to 8,
MMC1's counter 0 to 4, character RAM present exactly when the cartridge has no character ROM, FME-7 only where
its number is its own (log 12), `stall` 0 between steps, the state a fault leaves included (00_scope.md R9; 10_state.md
R45, R49, R51; 21_mappers.md R146, R170). -/
def Obligations.StepKeepsOk : Prop :=
  (∀ s t : State, StateOk s → StepsTo s t → StateOk t) ∧
  (∀ (s t : State) (f : Fault), StateOk s → stepSession s = .faulted f t → StateOk t)

/-- No step changes the cartridge, the parameters, `powered`, a fault mark or the mapper's variant (10_state.md R50, R53
to R55; 21_mappers.md R147, R150). -/
def Obligations.StepKeepsSession : Prop :=
  ∀ s t : State, StepsTo s t → SameSession s t ∧ SameVariant s.mapper t.mapper = true

/-- The bus reads and writes only indices 0x0000 to 0x07FF and 0x4020 to 0x7FFF of the array: no step changes any other
index (10_state.md R48; 20_memory.md R85, R94). -/
def Obligations.StepKeepsOtherIndices : Prop :=
  ∀ (s t : State) (k : Nat), StepsTo s t → (0x0800 ≤ k ∧ k < 0x4020) ∨ 0x8000 ≤ k →
    t.ram.read k = s.ram.read k

/-- Which instructions write `A`, `X`, `Y` and `SP`: no other does (10_state.md R31 to R34). -/
def Obligations.RegisterWriters : Prop :=
  ∀ (i : Instr) (s t : State), i.wf = true → exec i s = .next t →
    (i.kind ∉ [.lda, .pla, .txa, .tya, .adc, .sbc, .and, .ora, .eor] →
      ¬(i.kind ∈ [.asl, .lsr, .rol, .ror] ∧ i.mode = .accumulator) → t.a = s.a) ∧
    (i.kind ∉ [.ldx, .tax, .tsx, .inx, .dex] → t.x = s.x) ∧
    (i.kind ∉ [.ldy, .tay, .iny, .dey] → t.y = s.y) ∧
    (i.kind ∉ [.txs, .pha, .php, .pla, .plp, .jsr, .rts, .rti, .brk] → t.sp = s.sp)

/-- Which instructions write each flag: no other does (10_state.md R37 to R43). -/
def Obligations.FlagWriters : Prop :=
  ∀ (i : Instr) (s t : State), exec i s = .next t →
    (i.kind ∉ [.adc, .sbc, .cmp, .cpx, .cpy, .asl, .lsr, .rol, .ror, .clc, .sec, .plp, .rti] →
      t.flag .c = s.flag .c) ∧
    (i.kind ∉ [.lda, .ldx, .ldy, .tax, .tay, .tsx, .txa, .tya, .pla, .adc, .sbc, .and, .ora, .eor, .cmp, .cpx, .cpy,
        .inc, .dec, .inx, .iny, .dex, .dey, .asl, .lsr, .rol, .ror, .bit, .plp, .rti] →
      t.flag .z = s.flag .z ∧ t.flag .n = s.flag .n) ∧
    (i.kind ∉ [.adc, .sbc, .bit, .clv, .plp, .rti] → t.flag .v = s.flag .v) ∧
    (i.kind ∉ [.sei, .cli, .plp, .rti, .brk] → t.flag .i = s.flag .i) ∧
    (i.kind ∉ [.sed, .cld, .plp, .rti] → t.flag .d = s.flag .d) ∧
    (i.kind ∉ [.brk, .php, .plp, .rti] → t.flag .b = s.flag .b ∧ t.flag .u = s.flag .u)

/-! ### Instructions -/

/-- The effective address of every addressing mode, in numbers, with its wraps and its page-crossing test; that resolving
changes no state but by the pointer reads of the indirect modes; and the operand read: the immediate byte, `A`, or one
bus load of the effective address after the resolver (30_encoding.md R248 to R258, R261; 20_memory.md R114). That the
Immediate byte is already in the term, with no effective address and no load at the read, is log 8 (DEDUCED), where R249
gives `EA <- p` and a load by the instruction; that a pointer read leaves the devices' flags at once is log 6 (DEDUCED). -/
def Obligations.EffectiveAddresses : Prop :=
  (∀ (s : State) (b : Byte) (w : Word),
    resolve .acc s = (⟨.acc, false⟩, s) ∧
    resolve (.imm b) s = (⟨.imm b, false⟩, s) ∧
    (∃ ea, resolve (.zp b) s = (⟨.mem ea, false⟩, s) ∧ ea.toNat = b.toNat) ∧
    (∃ ea, resolve (.zpX b) s = (⟨.mem ea, false⟩, s) ∧ ea.toNat = (b.toNat + s.x.toNat) % 256) ∧
    (∃ ea, resolve (.zpY b) s = (⟨.mem ea, false⟩, s) ∧ ea.toNat = (b.toNat + s.y.toNat) % 256) ∧
    resolve (.abs w) s = (⟨.mem w, false⟩, s) ∧
    (∃ ea, resolve (.absX w) s = (⟨.mem ea, decide (ea.toNat / 256 ≠ w.toNat / 256)⟩, s) ∧
      ea.toNat = (w.toNat + s.x.toNat) % 65536) ∧
    (∃ ea, resolve (.absY w) s = (⟨.mem ea, decide (ea.toNat / 256 ≠ w.toNat / 256)⟩, s) ∧
      ea.toNat = (w.toNat + s.y.toNat) % 65536) ∧
    (∃ next : Word, next.toNat = w.toNat / 256 * 256 + (w.toNat + 1) % 256 ∧
      let lo := load w s
      let hi := load next lo.2
      resolve (.ind w) s = (⟨.mem (hi.1 ++ lo.1), false⟩, hi.2)) ∧
    (∃ ea, resolve (.indX b) s = (⟨.mem ea, false⟩, s) ∧
      ea.toNat = (s.ram.read ((b.toNat + s.x.toNat) % 256)).toNat +
        256 * (s.ram.read ((b.toNat + s.x.toNat + 1) % 256)).toNat) ∧
    (∃ (base : Nat) (ea : Word),
      base = (s.ram.read b.toNat).toNat + 256 * (s.ram.read ((b.toNat + 1) % 256)).toNat ∧
      resolve (.indY b) s = (⟨.mem ea, decide (ea.toNat / 256 ≠ base / 256)⟩, s) ∧
      ea.toNat = (base + s.y.toNat) % 65536)) ∧
  (∀ (o : Operand) (s : State),
    let r := resolve o s
    DevicesOnly s r.2 ∧
    (∀ v, r.1.ref = .imm v → readPlain o s = (v, s)) ∧
    (r.1.ref = .acc → readPlain o s = (s.a, s)) ∧
    (∀ ea, r.1.ref = .mem ea → readPlain o s = load ea r.2))

/-- LDA, LDX, LDY: the register is the operand, N and Z follow it, a crossed page costs one stall, and nothing else
changes but what the operand's bus reads do on the devices' side (40_load_store.md R320 to R322; 30_encoding.md
R260). -/
def Obligations.LoadResults : Prop :=
  ∀ (o : Operand) (s : State),
    let m := readPlain o s
    let stall := s.stall + if (resolve o s).1.crossed then 1 else 0
    DevicesOnly s m.2 ∧ ∃ p, FlagsBecome s.p p (nzOf m.1) ∧
      exec (.lda o) s = .next { m.2 with a := m.1, p := p, stall := stall } ∧
      exec (.ldx o) s = .next { m.2 with x := m.1, p := p, stall := stall } ∧
      exec (.ldy o) s = .next { m.2 with y := m.1, p := p, stall := stall }

/-- STA, STX, STY: one bus store of the register at the effective address, with no read of it; no flag, no register
changes, no byte of the array but the stored one, no page-crossing stall (40_load_store.md R323 to R325; 20_memory.md
R83, R114). -/
def Obligations.StoreResults : Prop :=
  ∀ (o : Operand) (s : State) (ea : Word), s.ram.wf → (resolve o s).1.ref = .mem ea →
    let u := (resolve o s).2
    DevicesOnly s u ∧
    (exec (.sta o) s = .next (store ea s.a u) ∧ Stored ea s.a u (store ea s.a u)) ∧
    (exec (.stx o) s = .next (store ea s.x u) ∧ Stored ea s.x u (store ea s.x u)) ∧
    (exec (.sty o) s = .next (store ea s.y u) ∧ Stored ea s.y u (store ea s.y u))

/-- TAX, TAY, TSX, TXA, TYA copy a register and set N and Z from it; TXS copies and writes no flag; nothing else changes
(40_load_store.md R330 to R335). -/
def Obligations.Transfers : Prop :=
  EncodedAs [0xAA] .tax 2 ∧ EncodedAs [0xA8] .tay 2 ∧ EncodedAs [0xBA] .tsx 2 ∧ EncodedAs [0x8A] .txa 2 ∧
  EncodedAs [0x9A] .txs 2 ∧ EncodedAs [0x98] .tya 2 ∧
  ∀ s : State,
    (∃ p, FlagsBecome s.p p (nzOf s.a) ∧ exec .tax s = .next { s with x := s.a, p := p } ∧
      exec .tay s = .next { s with y := s.a, p := p }) ∧
    (∃ p, FlagsBecome s.p p (nzOf s.sp) ∧ exec .tsx s = .next { s with x := s.sp, p := p }) ∧
    (∃ p, FlagsBecome s.p p (nzOf s.x) ∧ exec .txa s = .next { s with a := s.x, p := p }) ∧
    (∃ p, FlagsBecome s.p p (nzOf s.y) ∧ exec .tya s = .next { s with a := s.y, p := p }) ∧
    exec .txs s = .next { s with sp := s.x }

/-- PHA, PHP, PLA, PLP: the stack byte stands at 0x0100 plus `SP`, a push writes it and then decrements, a pull increments
and then reads, both with the wrap of `SP`; PHP sets B and U in `P` and pushes it so, PLA sets N and Z from the byte, PLP
loads all eight bits; no other byte, flag or register changes (40_load_store.md R340 to R343). -/
def Obligations.StackInstructions : Prop :=
  EncodedAs [0x48] .pha 3 ∧ EncodedAs [0x08] .php 3 ∧ EncodedAs [0x68] .pla 4 ∧ EncodedAs [0x28] .plp 4 ∧
  (∀ s : State, s.ram.wf →
    (∃ m : Memory, exec .pha s = .next { s with ram := m, sp := s.sp - 1 } ∧
      ∀ k, m.read k = if k = 256 + s.sp.toNat then s.a else s.ram.read k) ∧
    (∃ (m : Memory) (p : Byte), exec .php s = .next { s with ram := m, sp := s.sp - 1, p := p } ∧
      FlagsBecome s.p p (fun f => match f with | .b | .u => some true | _ => none) ∧
      ∀ k, m.read k = if k = 256 + s.sp.toNat then p else s.ram.read k)) ∧
  (∀ s : State,
    let v := s.ram.read (256 + (s.sp + 1).toNat)
    (∃ p, exec .pla s = .next { s with sp := s.sp + 1, a := v, p := p } ∧ FlagsBecome s.p p (nzOf v)) ∧
    exec .plp s = .next { s with sp := s.sp + 1, p := v })

/-- ADC and SBC in integers: the result modulo 256; C is the carry out of the unsigned sum, or the absence of an unsigned
borrow; V is that the signed result does not fit; D plays no part; nothing else changes but N, Z and the operand read's
devices' side (41_arith_logic.md R360, R361, R385). -/
def Obligations.AddSubtract : Prop :=
  ∀ (o : Operand) (s : State),
    let m := readPlain o s
    let c : Nat := if s.flag .c then 1 else 0
    let stall := s.stall + if (resolve o s).1.crossed then 1 else 0
    let fits (n : Int) : Bool := decide (-128 ≤ n ∧ n ≤ 127)
    DevicesOnly s m.2 ∧
    (∃ (r p : Byte), exec (.adc o) s = .next { m.2 with a := r, p := p, stall := stall } ∧
      r.toNat = (s.a.toNat + m.1.toNat + c) % 256 ∧
      FlagsBecome s.p p fun f => match f with
        | .c => some (decide (255 < s.a.toNat + m.1.toNat + c))
        | .v => some (!fits (s.a.toInt + m.1.toInt + c))
        | f => nzOf r f) ∧
    (∃ (r p : Byte), exec (.sbc o) s = .next { m.2 with a := r, p := p, stall := stall } ∧
      (r.toNat : Int) = ((s.a.toNat : Int) - m.1.toNat - (1 - c)) % 256 ∧
      FlagsBecome s.p p fun f => match f with
        | .c => some (decide (m.1.toNat + (1 - c) ≤ s.a.toNat))
        | .v => some (!fits (s.a.toInt - m.1.toInt - (1 - c)))
        | f => nzOf r f)

/-- AND, ORA, EOR: `A` is the bitwise result, N and Z follow it, C and V do not change (41_arith_logic.md R362 to R364;
30_encoding.md R260). -/
def Obligations.Logic : Prop :=
  ∀ (o : Operand) (s : State),
    let m := readPlain o s
    let stall := s.stall + if (resolve o s).1.crossed then 1 else 0
    DevicesOnly s m.2 ∧
    (∃ p, FlagsBecome s.p p (nzOf (s.a &&& m.1)) ∧
      exec (.and o) s = .next { m.2 with a := s.a &&& m.1, p := p, stall := stall }) ∧
    (∃ p, FlagsBecome s.p p (nzOf (s.a ||| m.1)) ∧
      exec (.ora o) s = .next { m.2 with a := s.a ||| m.1, p := p, stall := stall }) ∧
    (∃ p, FlagsBecome s.p p (nzOf (s.a ^^^ m.1)) ∧
      exec (.eor o) s = .next { m.2 with a := s.a ^^^ m.1, p := p, stall := stall })

/-- BIT: Z from `A` and the operand, N and V from the operand's bits 7 and 6, no register written
(41_arith_logic.md R365). -/
def Obligations.BitTest : Prop :=
  ∀ (o : Operand) (s : State),
    let m := readPlain o s
    DevicesOnly s m.2 ∧
    ∃ p, exec (.bit o) s = .next { m.2 with p := p } ∧
      FlagsBecome s.p p fun f => match f with
        | .z => some (decide (s.a &&& m.1 = 0))
        | .n => some (m.1.getLsbD 7)
        | .v => some (m.1.getLsbD 6)
        | _ => none

/-- CMP, CPX, CPY: C when the register is not below the operand, unsigned; Z when equal; N is bit 7 of the difference; no
register and no other flag changes; CMP alone takes the page-crossing stall (41_arith_logic.md R366 to R369;
30_encoding.md R260). -/
def Obligations.Compares : Prop :=
  ∀ (o : Operand) (s : State),
    let m := readPlain o s
    let stall := s.stall + if (resolve o s).1.crossed then 1 else 0
    let flags (r : Byte) (f : Flag) : Option Bool := match f with
      | .c => some (decide (m.1.toNat ≤ r.toNat))
      | .z => some (decide (r = m.1))
      | .n => some (decide (128 ≤ (r.toNat + 256 - m.1.toNat) % 256))
      | _ => none
    DevicesOnly s m.2 ∧
    (∃ p, FlagsBecome s.p p (flags s.a) ∧ exec (.cmp o) s = .next { m.2 with p := p, stall := stall }) ∧
    (∃ p, FlagsBecome s.p p (flags s.x) ∧ exec (.cpx o) s = .next { m.2 with p := p }) ∧
    (∃ p, FlagsBecome s.p p (flags s.y) ∧ exec (.cpy o) s = .next { m.2 with p := p })

/-- INC, DEC and the memory forms of ASL, LSR, ROL and ROR: one load then one store of the same address, the result in
numbers, N and Z from it, C as the shift gives it; no register, no other flag and no other byte of the array changes,
and no page-crossing stall (41_arith_logic.md R370, R371, R376 to R380). -/
def Obligations.MemoryModify : Prop :=
  ∀ (o : Operand) (s : State) (ea : Word), s.ram.wf → (resolve o s).1.ref = .mem ea →
    let u := load ea (resolve o s).2
    let v := u.1
    let c : Nat := if s.flag .c then 1 else 0
    let shiftFlags (carry : Bool) (r : Byte) (f : Flag) : Option Bool := match f with
      | .c => some carry
      | f => nzOf r f
    let done (i : Instr) (value : Nat) (flags : Byte → Flag → Option Bool) : Prop :=
      ∃ p r : Byte, r.toNat = value ∧ FlagsBecome s.p p (flags r) ∧
        exec i s = .next { store ea r u.2 with p := p } ∧ Stored ea r u.2 (store ea r u.2)
    DevicesOnly s u.2 ∧
    done (.inc o) ((v.toNat + 1) % 256) nzOf ∧
    done (.dec o) ((v.toNat + 255) % 256) nzOf ∧
    done (.asl o) (v.toNat * 2 % 256) (shiftFlags (v.getLsbD 7)) ∧
    done (.lsr o) (v.toNat / 2) (shiftFlags (v.getLsbD 0)) ∧
    done (.rol o) (v.toNat * 2 % 256 + c) (shiftFlags (v.getLsbD 7)) ∧
    done (.ror o) (v.toNat / 2 + 128 * c) (shiftFlags (v.getLsbD 0))

/-- The accumulator forms of ASL, LSR, ROL and ROR: the same results in `A`, with no bus access
(41_arith_logic.md R376 to R380). -/
def Obligations.AccumulatorShifts : Prop :=
  ∀ s : State,
    let v := s.a
    let c : Nat := if s.flag .c then 1 else 0
    let done (i : Instr) (value : Nat) (carry : Bool) : Prop :=
      ∃ p r : Byte, r.toNat = value ∧ exec i s = .next { s with a := r, p := p } ∧
        FlagsBecome s.p p fun f => match f with
          | .c => some carry
          | f => nzOf r f
    done (.asl .acc) (v.toNat * 2 % 256) (v.getLsbD 7) ∧
    done (.lsr .acc) (v.toNat / 2) (v.getLsbD 0) ∧
    done (.rol .acc) (v.toNat * 2 % 256 + c) (v.getLsbD 7) ∧
    done (.ror .acc) (v.toNat / 2 + 128 * c) (v.getLsbD 0)

/-- INX, INY, DEX, DEY: the register plus or minus 1 with its wrap, N and Z from it, nothing else changed
(41_arith_logic.md R372 to R375). -/
def Obligations.IndexCounts : Prop :=
  EncodedAs [0xE8] .inx 2 ∧ EncodedAs [0xC8] .iny 2 ∧ EncodedAs [0xCA] .dex 2 ∧ EncodedAs [0x88] .dey 2 ∧
  ∀ s : State,
    (∃ p r : Byte, r.toNat = (s.x.toNat + 1) % 256 ∧ FlagsBecome s.p p (nzOf r) ∧
      exec .inx s = .next { s with x := r, p := p }) ∧
    (∃ p r : Byte, r.toNat = (s.y.toNat + 1) % 256 ∧ FlagsBecome s.p p (nzOf r) ∧
      exec .iny s = .next { s with y := r, p := p }) ∧
    (∃ p r : Byte, r.toNat = (s.x.toNat + 255) % 256 ∧ FlagsBecome s.p p (nzOf r) ∧
      exec .dex s = .next { s with x := r, p := p }) ∧
    (∃ p r : Byte, r.toNat = (s.y.toNat + 255) % 256 ∧ FlagsBecome s.p p (nzOf r) ∧
      exec .dey s = .next { s with y := r, p := p })

/-- JMP sets `PC` to the effective address; JSR pushes `PC - 1`, high byte first, and jumps; RTS pulls it and adds 1;
nothing else changes but the pointer read's devices' side and the two stack bytes (42_control.md R420 to R423). -/
def Obligations.Jumps : Prop :=
  ∀ (o : Operand) (target ea : Word) (s : State), s.ram.wf →
    ((resolve o s).1.ref = .mem ea →
      DevicesOnly s (resolve o s).2 ∧ exec (.jmp o) s = .next { (resolve o s).2 with pc := ea }) ∧
    (∃ m : Memory, exec (.jsr target) s = .next { s with pc := target, sp := s.sp - 2, ram := m } ∧
      m.read (256 + s.sp.toNat) ++ m.read (256 + (s.sp - 1).toNat) = s.pc - 1 ∧
      ∀ k, k ≠ 256 + s.sp.toNat → k ≠ 256 + (s.sp - 1).toNat → m.read k = s.ram.read k) ∧
    exec .rts s = .next { s with
      sp := s.sp + 2
      pc := s.ram.read (256 + (s.sp + 2).toNat) ++ s.ram.read (256 + (s.sp + 1).toNat) + 1 }

/-- RTS returns to the instruction after the JSR that pushed, wherever the subroutine has gone meanwhile, if it left `SP`
and the two stack bytes as it found them (42_control.md R422, R423). -/
def Obligations.RtsAfterJsr : Prop :=
  ∀ (target : Word) (s t u : State), s.ram.wf → exec (.jsr target) s = .next t →
    u.sp = t.sp → u.ram.read (256 + s.sp.toNat) = t.ram.read (256 + s.sp.toNat) →
    u.ram.read (256 + (s.sp - 1).toNat) = t.ram.read (256 + (s.sp - 1).toNat) →
    exec .rts u = .next { u with sp := s.sp, pc := s.pc }

/-- The flag instructions write one flag and nothing else; NOP writes nothing (42_control.md R430 to R437). -/
def Obligations.FlagInstructions : Prop :=
  EncodedAs [0x18] .clc 2 ∧ EncodedAs [0xD8] .cld 2 ∧ EncodedAs [0x58] .cli 2 ∧ EncodedAs [0xB8] .clv 2 ∧
  EncodedAs [0x38] .sec 2 ∧ EncodedAs [0xF8] .sed 2 ∧ EncodedAs [0x78] .sei 2 ∧ EncodedAs [0xEA] .nop 2 ∧
  ∀ s : State,
    let writes (i : Instr) (f : Flag) (b : Bool) : Prop :=
      ∃ p, exec i s = .next { s with p := p } ∧ FlagsBecome s.p p fun g => if g = f then some b else none
    writes .clc .c false ∧ writes .cld .d false ∧ writes .cli .i false ∧ writes .clv .v false ∧
    writes .sec .c true ∧ writes .sed .d true ∧ writes .sei .i true ∧
    exec .nop s = .next s

/-- The branches: not taken, nothing changes; taken, `PC` is the next instruction's address plus the signed offset
modulo 65 536, at one stall, and one more when that is in another page (42_control.md R445 to R453). -/
def Obligations.Branches : Prop :=
  (∀ b : Byte, EncodedAs [0x90, b] (.bcc b) 2 ∧ EncodedAs [0xB0, b] (.bcs b) 2 ∧ EncodedAs [0xF0, b] (.beq b) 2 ∧
    EncodedAs [0x30, b] (.bmi b) 2 ∧ EncodedAs [0xD0, b] (.bne b) 2 ∧ EncodedAs [0x10, b] (.bpl b) 2 ∧
    EncodedAs [0x50, b] (.bvc b) 2 ∧ EncodedAs [0x70, b] (.bvs b) 2) ∧
  ∀ (b : Byte) (s : State), ∃ t : Word, (t.toNat : Int) = (s.pc.toNat + b.toInt) % 65536 ∧
    let branches (i : Instr) (cond : Bool) : Prop :=
      exec i s = .next (if cond then
        { s with pc := t, stall := s.stall + 1 + if t.toNat / 256 = s.pc.toNat / 256 then 0 else 1 } else s)
    branches (.bcc b) (s.flag .c == false) ∧ branches (.bcs b) (s.flag .c == true) ∧
    branches (.beq b) (s.flag .z == true) ∧ branches (.bmi b) (s.flag .n == true) ∧
    branches (.bne b) (s.flag .z == false) ∧ branches (.bpl b) (s.flag .n == false) ∧
    branches (.bvc b) (s.flag .v == false) ∧ branches (.bvs b) (s.flag .v == true)
end

