-- ==== Sys2Proof/Laws/Flags.lean ====
section
/-! SUPPORT. The status byte: a written flag reads back, the others are kept. -/

namespace Sys2Proof.Machine

theorem Flag.bit_lt (f : Flag) : f.bit < 8 := by cases f <;> decide

theorem Flag.bit_inj {f g : Flag} (h : f.bit = g.bit) : f = g := by
  cases f <;> cases g <;> first | rfl | simp [Flag.bit] at h

@[simp] theorem getFlag_putFlag (p : Byte) (f g : Flag) (b : Bool) :
    getFlag (putFlag p f b) g = if g = f then b else getFlag p g := by
  cases f <;> cases g <;> cases b <;> simp [getFlag, putFlag, Flag.bit]

@[simp] theorem getFlag_putNZ (p v : Byte) (g : Flag) :
    getFlag (putNZ p v) g = match g with
      | .n => v.getLsbD 7
      | .z => v == 0
      | g => getFlag p g := by
  cases g <;> simp [putNZ]

@[simp] theorem getFlag_putCompare (p r m : Byte) (g : Flag) :
    getFlag (putCompare p r m) g = match g with
      | .c => decide (m.toNat ≤ r.toNat)
      | .z => r == m
      | .n => (r - m).getLsbD 7
      | g => getFlag p g := by
  cases g <;> simp [putCompare]

/-- Two status bytes whose eight flags agree are equal. -/
theorem flags_ext {p q : Byte} (h : ∀ f, getFlag p f = getFlag q f) : p = q := by
  apply BitVec.eq_of_getLsbD_eq
  intro i hi
  have hc := h .c; have hz := h .z; have hi' := h .i; have hd := h .d
  have hb := h .b; have hu := h .u; have hv := h .v; have hn := h .n
  simp only [getFlag, Flag.bit] at *
  interval_cases i <;> assumption

theorem wideSum_le (a m : Byte) (c : Bool) : wideSum a m c ≤ 0x1FF := by
  have := a.isLt; have := m.isLt
  simp only [wideSum, bitValue]; split <;> omega

end Sys2Proof.Machine
end

