-- ==== Sys2Proof/Laws/Memory.lean ====
section
/-! SUPPORT. The laws of Memory: read after write, the canonical form kept by every operation, equality by reads, and
the byte-list conversions. -/

namespace Sys2Proof

@[simp] theorem Memory.read_nil (a : Nat) : Memory.read [] a = Memory.fill := rfl

theorem Memory.read_cons (c : Host.Cell) (m : Memory) (a : Nat) :
    Memory.read (c :: m) a = if c.1 = a then c.2 else Memory.read m a := rfl

theorem Memory.wf_nil : Memory.wf [] := ⟨List.Pairwise.nil, by simp⟩

theorem Memory.wf_tail {c : Host.Cell} {m : Memory} (h : Memory.wf (c :: m)) : Memory.wf m :=
  ⟨(List.pairwise_cons.1 h.1).2, fun d hd => h.2 d (List.mem_cons_of_mem _ hd)⟩

theorem Memory.wf_cons_iff {c : Host.Cell} {m : Memory} :
    Memory.wf (c :: m) ↔ (∀ d ∈ m, c.1 < d.1) ∧ c.2 ≠ Memory.fill ∧ Memory.wf m := by
  simp only [Memory.wf, List.pairwise_cons, List.mem_cons, forall_eq_or_imp]
  tauto

/-- An address no entry lists reads as `fill`. -/
theorem Memory.read_of_not_listed {m : Memory} {a : Nat} (h : ∀ c ∈ m, c.1 ≠ a) :
    m.read a = Memory.fill := by
  induction m with
  | nil => rfl
  | cons c m ih =>
    rw [Memory.read_cons, if_neg (h c (List.mem_cons_self ..))]
    exact ih fun d hd => h d (List.mem_cons_of_mem _ hd)

/-- A listed address of a canonical memory reads as its entry. -/
theorem Memory.read_of_mem {m : Memory} (hwf : m.wf) {c : Host.Cell} (hc : c ∈ m) : m.read c.1 = c.2 := by
  induction m with
  | nil => simp at hc
  | cons d m ih =>
    obtain ⟨hlt, -, hm⟩ := Memory.wf_cons_iff.1 hwf
    rw [Memory.read_cons]
    rcases List.mem_cons.1 hc with rfl | hc
    · simp
    · rw [if_neg (by have := hlt c hc; omega)]
      exact ih hm hc

theorem Memory.read_write_same {m : Memory} (h : m.wf) (a : Nat) (v : Byte) : (m.write a v).read a = v := by
  induction m with
  | nil => simp only [Memory.write]; split <;> simp_all [Memory.read_cons]
  | cons c m ih =>
    obtain ⟨hlt, hne, hm⟩ := Memory.wf_cons_iff.1 h
    have hlate : ∀ b, b ≤ c.1 → Memory.read m b = Memory.fill := fun b hb =>
      Memory.read_of_not_listed fun d hd => by have := hlt d hd; omega
    simp only [Memory.write]
    split_ifs with h1 h2 h3 h4
    · subst h2; rw [Memory.read_cons, if_neg (by omega)]; exact hlate _ h1.le
    · simp [Memory.read_cons]
    · subst h4; exact hlate _ h3.le
    · simp [Memory.read_cons]
    · rw [Memory.read_cons, if_neg (fun h => h3 h.symm)]; exact ih hm

theorem Memory.read_write_other (m : Memory) {a b : Nat} (h : b ≠ a) (v : Byte) :
    (m.write a v).read b = m.read b := by
  induction m with
  | nil => simp only [Memory.write]; split <;> simp [Memory.read_cons, Ne.symm h]
  | cons c m ih =>
    simp only [Memory.write]
    split_ifs with h1 h2 h3 h4
    · rfl
    · rw [Memory.read_cons, if_neg (Ne.symm h)]
    · rw [Memory.read_cons, if_neg (by omega)]
    · rw [Memory.read_cons, Memory.read_cons, if_neg (Ne.symm h), if_neg (by omega)]
    · rw [Memory.read_cons, Memory.read_cons, ih]

theorem Memory.read_write {m : Memory} (h : m.wf) (a b : Nat) (v : Byte) :
    (m.write a v).read b = if b = a then v else m.read b := by
  split_ifs with hb
  · subst hb; exact Memory.read_write_same h b v
  · exact Memory.read_write_other m hb v

theorem Memory.mem_write {m : Memory} {a : Nat} {v : Byte} {c : Host.Cell} (hc : c ∈ m.write a v) :
    c = (a, v) ∧ v ≠ Memory.fill ∨ c ∈ m := by
  induction m with
  | nil => simp only [Memory.write] at hc; split_ifs at hc <;> simp_all
  | cons d m ih =>
    simp only [Memory.write] at hc
    split_ifs at hc with h1 h2 h3 h4
    · exact .inr hc
    · rcases List.mem_cons.1 hc with rfl | hc
      · exact .inl ⟨rfl, h2⟩
      · exact .inr hc
    · exact .inr (List.mem_cons_of_mem _ hc)
    · rcases List.mem_cons.1 hc with rfl | hc
      · exact .inl ⟨rfl, h4⟩
      · exact .inr (List.mem_cons_of_mem _ hc)
    · rcases List.mem_cons.1 hc with rfl | hc
      · exact .inr (List.mem_cons_self ..)
      · exact (ih hc).imp id (List.mem_cons_of_mem _)

/-- A write keeps the canonical form. -/
theorem Memory.write_wf {m : Memory} (h : m.wf) (a : Nat) (v : Byte) : (m.write a v).wf := by
  induction m with
  | nil =>
    simp only [Memory.write]
    split_ifs with hv
    · exact Memory.wf_nil
    · exact Memory.wf_cons_iff.2 ⟨by simp, hv, Memory.wf_nil⟩
  | cons c m ih =>
    obtain ⟨hlt, hne, hm⟩ := Memory.wf_cons_iff.1 h
    simp only [Memory.write]
    split_ifs with h1 h2 h3 h4
    · exact h
    · refine Memory.wf_cons_iff.2 ⟨fun d hd => ?_, h2, h⟩
      rcases List.mem_cons.1 hd with rfl | hd
      · exact h1
      · exact h1.trans (hlt d hd)
    · exact hm
    · exact Memory.wf_cons_iff.2 ⟨fun d hd => h3 ▸ hlt d hd, h4, hm⟩
    · refine Memory.wf_cons_iff.2 ⟨fun d hd => ?_, hne, ih hm⟩
      rcases Memory.mem_write hd with ⟨rfl, -⟩ | hd
      · show c.1 < a; omega
      · exact hlt d hd

/-- A write below a bound keeps the addresses below it. -/
theorem Memory.write_below {m : Memory} {n a : Nat} (h : m.below n) (ha : a < n) (v : Byte) :
    (m.write a v).below n := fun c hc => by
  rcases Memory.mem_write hc with ⟨rfl, -⟩ | hc
  · exact ha
  · exact h c hc

/-- Equal memories are equal data: canonical memories that read alike are the same list. -/
theorem Memory.ext_read {m n : Memory} (hm : m.wf) (hn : n.wf) (h : ∀ a, m.read a = n.read a) : m = n := by
  induction m generalizing n with
  | nil =>
    cases n with
    | nil => rfl
    | cons d n =>
      have := h d.1
      rw [Memory.read_of_mem hn (List.mem_cons_self ..)] at this
      exact absurd this.symm (hn.2 d (List.mem_cons_self ..))
  | cons c m ih =>
    have hc := Memory.read_of_mem hm (List.mem_cons_self (a := c) (l := m))
    cases n with
    | nil => exact absurd ((h c.1).symm.trans hc).symm (hm.2 c (List.mem_cons_self ..))
    | cons d n =>
      have hd := Memory.read_of_mem hn (List.mem_cons_self (a := d) (l := n))
      obtain ⟨hcm, hcv, hm'⟩ := Memory.wf_cons_iff.1 hm
      obtain ⟨hdn, hdv, hn'⟩ := Memory.wf_cons_iff.1 hn
      have haddr : c.1 = d.1 := by
        rcases lt_trichotomy c.1 d.1 with hlt | heq | hgt
        · have : Memory.read (d :: n) c.1 = Memory.fill := Memory.read_of_not_listed fun e he => by
            rcases List.mem_cons.1 he with rfl | he
            · omega
            · have := hdn e he; omega
          exact absurd (hc.symm.trans ((h c.1).trans this)) hcv
        · exact heq
        · have : Memory.read (c :: m) d.1 = Memory.fill := Memory.read_of_not_listed fun e he => by
            rcases List.mem_cons.1 he with rfl | he
            · omega
            · have := hcm e he; omega
          exact absurd (hd.symm.trans ((h d.1).symm.trans this)) hdv
      have hval : c.2 = d.2 := by rw [← hc, h, haddr, hd]
      have hcd : c = d := Prod.ext haddr hval
      subst hcd
      congr 1
      refine ih hm' hn' fun a => ?_
      by_cases ha : c.1 = a
      · subst ha
        rw [Memory.read_of_not_listed fun e he => (hcm e he).ne',
          Memory.read_of_not_listed fun e he => (hdn e he).ne']
      · simpa [Memory.read_cons, ha] using h a

theorem Memory.mem_ofBytesAt {base : Nat} {bytes : List Byte} {c : Host.Cell}
    (h : c ∈ Memory.ofBytesAt base bytes) : base ≤ c.1 ∧ c.1 < base + bytes.length ∧ c.2 ≠ Memory.fill := by
  induction bytes generalizing base with
  | nil => simp [Memory.ofBytesAt] at h
  | cons v rest ih =>
    simp only [Memory.ofBytesAt] at h
    simp only [List.length_cons]
    split_ifs at h with hv
    · have := ih h; exact ⟨by omega, by omega, this.2.2⟩
    · rcases List.mem_cons.1 h with rfl | h
      · exact ⟨le_refl _, by simp, hv⟩
      · have := ih h; exact ⟨by omega, by omega, this.2.2⟩

theorem Memory.ofBytesAt_wf (base : Nat) (bytes : List Byte) : (Memory.ofBytesAt base bytes).wf := by
  induction bytes generalizing base with
  | nil => exact Memory.wf_nil
  | cons v rest ih =>
    simp only [Memory.ofBytesAt]
    split_ifs with hv
    · exact ih _
    · refine Memory.wf_cons_iff.2 ⟨fun d hd => ?_, hv, ih _⟩
      have := (Memory.mem_ofBytesAt hd).1
      show base < d.1; omega

theorem Memory.ofBytes_wf (bytes : List Byte) : (Memory.ofBytes bytes).wf := Memory.ofBytesAt_wf 0 bytes

theorem Memory.ofBytes_below (bytes : List Byte) : (Memory.ofBytes bytes).below bytes.length := fun c hc => by
  have := (Memory.mem_ofBytesAt hc).2.1; omega

theorem Memory.read_ofBytesAt (base : Nat) (bytes : List Byte) (k : Nat) :
    (Memory.ofBytesAt base bytes).read (base + k) = bytes.getD k Memory.fill := by
  induction bytes generalizing base k with
  | nil => simp [Memory.ofBytesAt]
  | cons v rest ih =>
    cases k with
    | zero =>
      simp only [Memory.ofBytesAt]
      split_ifs with hv
      · rw [Memory.read_of_not_listed fun c hc => by have := (Memory.mem_ofBytesAt hc).1; omega]
        simp [hv]
      · simp [Memory.read_cons]
    | succ k =>
      have := ih (base + 1) k
      simp only [Memory.ofBytesAt, List.getD_cons_succ]
      rw [← this]
      have hk : base + (k + 1) = base + 1 + k := by omega
      split_ifs with hv
      · rw [hk]
      · rw [Memory.read_cons, if_neg (by simp), hk]

/-- Reading the memory of a byte list gives the list's bytes, and `fill` past its end. -/
theorem Memory.read_ofBytes (bytes : List Byte) (k : Nat) :
    (Memory.ofBytes bytes).read k = bytes.getD k Memory.fill := by
  have := Memory.read_ofBytesAt 0 bytes k
  rwa [Nat.zero_add] at this

@[simp] theorem Memory.length_toBytes (m : Memory) (n : Nat) : (m.toBytes n).length = n := by
  simp [Memory.toBytes]

/-- A canonical memory below `n` is what its first `n` bytes make. -/
theorem Memory.ofBytes_toBytes {m : Memory} {n : Nat} (h : m.wf) (hb : m.below n) :
    Memory.ofBytes (m.toBytes n) = m := by
  refine Memory.ext_read (Memory.ofBytes_wf _) h fun a => ?_
  rw [Memory.read_ofBytes, List.getD_eq_getElem?_getD]
  by_cases ha : a < n
  · simp [Memory.toBytes, ha]
  · rw [Memory.read_of_not_listed (m := m) fun c hc hca => ha (by have := hb c hc; omega)]
    simp [Memory.toBytes, ha]

/-- The first `n` bytes of the memory of `n` bytes are those bytes. -/
theorem Memory.toBytes_ofBytes (bytes : List Byte) : (Memory.ofBytes bytes).toBytes bytes.length = bytes := by
  refine List.ext_getElem (by simp) fun k h1 h2 => ?_
  simp [Memory.toBytes, Memory.read_ofBytes, List.getD_eq_getElem?_getD, h2]

end Sys2Proof
end

