-- ==== Sys2Proof/Laws/State.lean ====
section
/-! SUPPORT. One lemma per field per named update of State, true by rfl, so that no later proof unfolds a record
update. -/

namespace Sys2Proof.Machine

/-! ### setPc -/

section
variable (s : State) (v : Word)
@[simp] theorem State.setPc_pc : (s.setPc v).pc = v := rfl
@[simp] theorem State.setPc_sp : (s.setPc v).sp = s.sp := rfl
@[simp] theorem State.setPc_a : (s.setPc v).a = s.a := rfl
@[simp] theorem State.setPc_x : (s.setPc v).x = s.x := rfl
@[simp] theorem State.setPc_y : (s.setPc v).y = s.y := rfl
@[simp] theorem State.setPc_p : (s.setPc v).p = s.p := rfl
@[simp] theorem State.setPc_stall : (s.setPc v).stall = s.stall := rfl
@[simp] theorem State.setPc_ram : (s.setPc v).ram = s.ram := rfl
@[simp] theorem State.setPc_joy1 : (s.setPc v).joy1 = s.joy1 := rfl
@[simp] theorem State.setPc_joy2 : (s.setPc v).joy2 = s.joy2 := rfl
@[simp] theorem State.setPc_mapper : (s.setPc v).mapper = s.mapper := rfl
@[simp] theorem State.setPc_chrRam : (s.setPc v).chrRam = s.chrRam := rfl
@[simp] theorem State.setPc_ppu : (s.setPc v).ppu = s.ppu := rfl
@[simp] theorem State.setPc_apu : (s.setPc v).apu = s.apu := rfl
@[simp] theorem State.setPc_powered : (s.setPc v).powered = s.powered := rfl
@[simp] theorem State.setPc_fault : (s.setPc v).fault = s.fault := rfl
@[simp] theorem State.setPc_cart : (s.setPc v).cart = s.cart := rfl
@[simp] theorem State.setPc_params : (s.setPc v).params = s.params := rfl
@[simp] theorem State.setPc_inputs : (s.setPc v).inputs = s.inputs := rfl
@[simp] theorem State.setPc_cycles : (s.setPc v).cycles = s.cycles := rfl
end

/-! ### setSp -/

section
variable (s : State) (v : Byte)
@[simp] theorem State.setSp_pc : (s.setSp v).pc = s.pc := rfl
@[simp] theorem State.setSp_sp : (s.setSp v).sp = v := rfl
@[simp] theorem State.setSp_a : (s.setSp v).a = s.a := rfl
@[simp] theorem State.setSp_x : (s.setSp v).x = s.x := rfl
@[simp] theorem State.setSp_y : (s.setSp v).y = s.y := rfl
@[simp] theorem State.setSp_p : (s.setSp v).p = s.p := rfl
@[simp] theorem State.setSp_stall : (s.setSp v).stall = s.stall := rfl
@[simp] theorem State.setSp_ram : (s.setSp v).ram = s.ram := rfl
@[simp] theorem State.setSp_joy1 : (s.setSp v).joy1 = s.joy1 := rfl
@[simp] theorem State.setSp_joy2 : (s.setSp v).joy2 = s.joy2 := rfl
@[simp] theorem State.setSp_mapper : (s.setSp v).mapper = s.mapper := rfl
@[simp] theorem State.setSp_chrRam : (s.setSp v).chrRam = s.chrRam := rfl
@[simp] theorem State.setSp_ppu : (s.setSp v).ppu = s.ppu := rfl
@[simp] theorem State.setSp_apu : (s.setSp v).apu = s.apu := rfl
@[simp] theorem State.setSp_powered : (s.setSp v).powered = s.powered := rfl
@[simp] theorem State.setSp_fault : (s.setSp v).fault = s.fault := rfl
@[simp] theorem State.setSp_cart : (s.setSp v).cart = s.cart := rfl
@[simp] theorem State.setSp_params : (s.setSp v).params = s.params := rfl
@[simp] theorem State.setSp_inputs : (s.setSp v).inputs = s.inputs := rfl
@[simp] theorem State.setSp_cycles : (s.setSp v).cycles = s.cycles := rfl
end

/-! ### setA -/

section
variable (s : State) (v : Byte)
@[simp] theorem State.setA_pc : (s.setA v).pc = s.pc := rfl
@[simp] theorem State.setA_sp : (s.setA v).sp = s.sp := rfl
@[simp] theorem State.setA_a : (s.setA v).a = v := rfl
@[simp] theorem State.setA_x : (s.setA v).x = s.x := rfl
@[simp] theorem State.setA_y : (s.setA v).y = s.y := rfl
@[simp] theorem State.setA_p : (s.setA v).p = s.p := rfl
@[simp] theorem State.setA_stall : (s.setA v).stall = s.stall := rfl
@[simp] theorem State.setA_ram : (s.setA v).ram = s.ram := rfl
@[simp] theorem State.setA_joy1 : (s.setA v).joy1 = s.joy1 := rfl
@[simp] theorem State.setA_joy2 : (s.setA v).joy2 = s.joy2 := rfl
@[simp] theorem State.setA_mapper : (s.setA v).mapper = s.mapper := rfl
@[simp] theorem State.setA_chrRam : (s.setA v).chrRam = s.chrRam := rfl
@[simp] theorem State.setA_ppu : (s.setA v).ppu = s.ppu := rfl
@[simp] theorem State.setA_apu : (s.setA v).apu = s.apu := rfl
@[simp] theorem State.setA_powered : (s.setA v).powered = s.powered := rfl
@[simp] theorem State.setA_fault : (s.setA v).fault = s.fault := rfl
@[simp] theorem State.setA_cart : (s.setA v).cart = s.cart := rfl
@[simp] theorem State.setA_params : (s.setA v).params = s.params := rfl
@[simp] theorem State.setA_inputs : (s.setA v).inputs = s.inputs := rfl
@[simp] theorem State.setA_cycles : (s.setA v).cycles = s.cycles := rfl
end

/-! ### setX -/

section
variable (s : State) (v : Byte)
@[simp] theorem State.setX_pc : (s.setX v).pc = s.pc := rfl
@[simp] theorem State.setX_sp : (s.setX v).sp = s.sp := rfl
@[simp] theorem State.setX_a : (s.setX v).a = s.a := rfl
@[simp] theorem State.setX_x : (s.setX v).x = v := rfl
@[simp] theorem State.setX_y : (s.setX v).y = s.y := rfl
@[simp] theorem State.setX_p : (s.setX v).p = s.p := rfl
@[simp] theorem State.setX_stall : (s.setX v).stall = s.stall := rfl
@[simp] theorem State.setX_ram : (s.setX v).ram = s.ram := rfl
@[simp] theorem State.setX_joy1 : (s.setX v).joy1 = s.joy1 := rfl
@[simp] theorem State.setX_joy2 : (s.setX v).joy2 = s.joy2 := rfl
@[simp] theorem State.setX_mapper : (s.setX v).mapper = s.mapper := rfl
@[simp] theorem State.setX_chrRam : (s.setX v).chrRam = s.chrRam := rfl
@[simp] theorem State.setX_ppu : (s.setX v).ppu = s.ppu := rfl
@[simp] theorem State.setX_apu : (s.setX v).apu = s.apu := rfl
@[simp] theorem State.setX_powered : (s.setX v).powered = s.powered := rfl
@[simp] theorem State.setX_fault : (s.setX v).fault = s.fault := rfl
@[simp] theorem State.setX_cart : (s.setX v).cart = s.cart := rfl
@[simp] theorem State.setX_params : (s.setX v).params = s.params := rfl
@[simp] theorem State.setX_inputs : (s.setX v).inputs = s.inputs := rfl
@[simp] theorem State.setX_cycles : (s.setX v).cycles = s.cycles := rfl
end

/-! ### setY -/

section
variable (s : State) (v : Byte)
@[simp] theorem State.setY_pc : (s.setY v).pc = s.pc := rfl
@[simp] theorem State.setY_sp : (s.setY v).sp = s.sp := rfl
@[simp] theorem State.setY_a : (s.setY v).a = s.a := rfl
@[simp] theorem State.setY_x : (s.setY v).x = s.x := rfl
@[simp] theorem State.setY_y : (s.setY v).y = v := rfl
@[simp] theorem State.setY_p : (s.setY v).p = s.p := rfl
@[simp] theorem State.setY_stall : (s.setY v).stall = s.stall := rfl
@[simp] theorem State.setY_ram : (s.setY v).ram = s.ram := rfl
@[simp] theorem State.setY_joy1 : (s.setY v).joy1 = s.joy1 := rfl
@[simp] theorem State.setY_joy2 : (s.setY v).joy2 = s.joy2 := rfl
@[simp] theorem State.setY_mapper : (s.setY v).mapper = s.mapper := rfl
@[simp] theorem State.setY_chrRam : (s.setY v).chrRam = s.chrRam := rfl
@[simp] theorem State.setY_ppu : (s.setY v).ppu = s.ppu := rfl
@[simp] theorem State.setY_apu : (s.setY v).apu = s.apu := rfl
@[simp] theorem State.setY_powered : (s.setY v).powered = s.powered := rfl
@[simp] theorem State.setY_fault : (s.setY v).fault = s.fault := rfl
@[simp] theorem State.setY_cart : (s.setY v).cart = s.cart := rfl
@[simp] theorem State.setY_params : (s.setY v).params = s.params := rfl
@[simp] theorem State.setY_inputs : (s.setY v).inputs = s.inputs := rfl
@[simp] theorem State.setY_cycles : (s.setY v).cycles = s.cycles := rfl
end

/-! ### setP -/

section
variable (s : State) (v : Byte)
@[simp] theorem State.setP_pc : (s.setP v).pc = s.pc := rfl
@[simp] theorem State.setP_sp : (s.setP v).sp = s.sp := rfl
@[simp] theorem State.setP_a : (s.setP v).a = s.a := rfl
@[simp] theorem State.setP_x : (s.setP v).x = s.x := rfl
@[simp] theorem State.setP_y : (s.setP v).y = s.y := rfl
@[simp] theorem State.setP_p : (s.setP v).p = v := rfl
@[simp] theorem State.setP_stall : (s.setP v).stall = s.stall := rfl
@[simp] theorem State.setP_ram : (s.setP v).ram = s.ram := rfl
@[simp] theorem State.setP_joy1 : (s.setP v).joy1 = s.joy1 := rfl
@[simp] theorem State.setP_joy2 : (s.setP v).joy2 = s.joy2 := rfl
@[simp] theorem State.setP_mapper : (s.setP v).mapper = s.mapper := rfl
@[simp] theorem State.setP_chrRam : (s.setP v).chrRam = s.chrRam := rfl
@[simp] theorem State.setP_ppu : (s.setP v).ppu = s.ppu := rfl
@[simp] theorem State.setP_apu : (s.setP v).apu = s.apu := rfl
@[simp] theorem State.setP_powered : (s.setP v).powered = s.powered := rfl
@[simp] theorem State.setP_fault : (s.setP v).fault = s.fault := rfl
@[simp] theorem State.setP_cart : (s.setP v).cart = s.cart := rfl
@[simp] theorem State.setP_params : (s.setP v).params = s.params := rfl
@[simp] theorem State.setP_inputs : (s.setP v).inputs = s.inputs := rfl
@[simp] theorem State.setP_cycles : (s.setP v).cycles = s.cycles := rfl
end

/-! ### addStall -/

section
variable (s : State) (v : Nat)
@[simp] theorem State.addStall_pc : (s.addStall v).pc = s.pc := rfl
@[simp] theorem State.addStall_sp : (s.addStall v).sp = s.sp := rfl
@[simp] theorem State.addStall_a : (s.addStall v).a = s.a := rfl
@[simp] theorem State.addStall_x : (s.addStall v).x = s.x := rfl
@[simp] theorem State.addStall_y : (s.addStall v).y = s.y := rfl
@[simp] theorem State.addStall_p : (s.addStall v).p = s.p := rfl
@[simp] theorem State.addStall_stall : (s.addStall v).stall = s.stall + v := rfl
@[simp] theorem State.addStall_ram : (s.addStall v).ram = s.ram := rfl
@[simp] theorem State.addStall_joy1 : (s.addStall v).joy1 = s.joy1 := rfl
@[simp] theorem State.addStall_joy2 : (s.addStall v).joy2 = s.joy2 := rfl
@[simp] theorem State.addStall_mapper : (s.addStall v).mapper = s.mapper := rfl
@[simp] theorem State.addStall_chrRam : (s.addStall v).chrRam = s.chrRam := rfl
@[simp] theorem State.addStall_ppu : (s.addStall v).ppu = s.ppu := rfl
@[simp] theorem State.addStall_apu : (s.addStall v).apu = s.apu := rfl
@[simp] theorem State.addStall_powered : (s.addStall v).powered = s.powered := rfl
@[simp] theorem State.addStall_fault : (s.addStall v).fault = s.fault := rfl
@[simp] theorem State.addStall_cart : (s.addStall v).cart = s.cart := rfl
@[simp] theorem State.addStall_params : (s.addStall v).params = s.params := rfl
@[simp] theorem State.addStall_inputs : (s.addStall v).inputs = s.inputs := rfl
@[simp] theorem State.addStall_cycles : (s.addStall v).cycles = s.cycles := rfl
end

/-! ### setRam -/

section
variable (s : State) (v : Memory)
@[simp] theorem State.setRam_pc : (s.setRam v).pc = s.pc := rfl
@[simp] theorem State.setRam_sp : (s.setRam v).sp = s.sp := rfl
@[simp] theorem State.setRam_a : (s.setRam v).a = s.a := rfl
@[simp] theorem State.setRam_x : (s.setRam v).x = s.x := rfl
@[simp] theorem State.setRam_y : (s.setRam v).y = s.y := rfl
@[simp] theorem State.setRam_p : (s.setRam v).p = s.p := rfl
@[simp] theorem State.setRam_stall : (s.setRam v).stall = s.stall := rfl
@[simp] theorem State.setRam_ram : (s.setRam v).ram = v := rfl
@[simp] theorem State.setRam_joy1 : (s.setRam v).joy1 = s.joy1 := rfl
@[simp] theorem State.setRam_joy2 : (s.setRam v).joy2 = s.joy2 := rfl
@[simp] theorem State.setRam_mapper : (s.setRam v).mapper = s.mapper := rfl
@[simp] theorem State.setRam_chrRam : (s.setRam v).chrRam = s.chrRam := rfl
@[simp] theorem State.setRam_ppu : (s.setRam v).ppu = s.ppu := rfl
@[simp] theorem State.setRam_apu : (s.setRam v).apu = s.apu := rfl
@[simp] theorem State.setRam_powered : (s.setRam v).powered = s.powered := rfl
@[simp] theorem State.setRam_fault : (s.setRam v).fault = s.fault := rfl
@[simp] theorem State.setRam_cart : (s.setRam v).cart = s.cart := rfl
@[simp] theorem State.setRam_params : (s.setRam v).params = s.params := rfl
@[simp] theorem State.setRam_inputs : (s.setRam v).inputs = s.inputs := rfl
@[simp] theorem State.setRam_cycles : (s.setRam v).cycles = s.cycles := rfl
end

/-! ### setJoy1 -/

section
variable (s : State) (v : Joypad)
@[simp] theorem State.setJoy1_pc : (s.setJoy1 v).pc = s.pc := rfl
@[simp] theorem State.setJoy1_sp : (s.setJoy1 v).sp = s.sp := rfl
@[simp] theorem State.setJoy1_a : (s.setJoy1 v).a = s.a := rfl
@[simp] theorem State.setJoy1_x : (s.setJoy1 v).x = s.x := rfl
@[simp] theorem State.setJoy1_y : (s.setJoy1 v).y = s.y := rfl
@[simp] theorem State.setJoy1_p : (s.setJoy1 v).p = s.p := rfl
@[simp] theorem State.setJoy1_stall : (s.setJoy1 v).stall = s.stall := rfl
@[simp] theorem State.setJoy1_ram : (s.setJoy1 v).ram = s.ram := rfl
@[simp] theorem State.setJoy1_joy1 : (s.setJoy1 v).joy1 = v := rfl
@[simp] theorem State.setJoy1_joy2 : (s.setJoy1 v).joy2 = s.joy2 := rfl
@[simp] theorem State.setJoy1_mapper : (s.setJoy1 v).mapper = s.mapper := rfl
@[simp] theorem State.setJoy1_chrRam : (s.setJoy1 v).chrRam = s.chrRam := rfl
@[simp] theorem State.setJoy1_ppu : (s.setJoy1 v).ppu = s.ppu := rfl
@[simp] theorem State.setJoy1_apu : (s.setJoy1 v).apu = s.apu := rfl
@[simp] theorem State.setJoy1_powered : (s.setJoy1 v).powered = s.powered := rfl
@[simp] theorem State.setJoy1_fault : (s.setJoy1 v).fault = s.fault := rfl
@[simp] theorem State.setJoy1_cart : (s.setJoy1 v).cart = s.cart := rfl
@[simp] theorem State.setJoy1_params : (s.setJoy1 v).params = s.params := rfl
@[simp] theorem State.setJoy1_inputs : (s.setJoy1 v).inputs = s.inputs := rfl
@[simp] theorem State.setJoy1_cycles : (s.setJoy1 v).cycles = s.cycles := rfl
end

/-! ### setJoy2 -/

section
variable (s : State) (v : Joypad)
@[simp] theorem State.setJoy2_pc : (s.setJoy2 v).pc = s.pc := rfl
@[simp] theorem State.setJoy2_sp : (s.setJoy2 v).sp = s.sp := rfl
@[simp] theorem State.setJoy2_a : (s.setJoy2 v).a = s.a := rfl
@[simp] theorem State.setJoy2_x : (s.setJoy2 v).x = s.x := rfl
@[simp] theorem State.setJoy2_y : (s.setJoy2 v).y = s.y := rfl
@[simp] theorem State.setJoy2_p : (s.setJoy2 v).p = s.p := rfl
@[simp] theorem State.setJoy2_stall : (s.setJoy2 v).stall = s.stall := rfl
@[simp] theorem State.setJoy2_ram : (s.setJoy2 v).ram = s.ram := rfl
@[simp] theorem State.setJoy2_joy1 : (s.setJoy2 v).joy1 = s.joy1 := rfl
@[simp] theorem State.setJoy2_joy2 : (s.setJoy2 v).joy2 = v := rfl
@[simp] theorem State.setJoy2_mapper : (s.setJoy2 v).mapper = s.mapper := rfl
@[simp] theorem State.setJoy2_chrRam : (s.setJoy2 v).chrRam = s.chrRam := rfl
@[simp] theorem State.setJoy2_ppu : (s.setJoy2 v).ppu = s.ppu := rfl
@[simp] theorem State.setJoy2_apu : (s.setJoy2 v).apu = s.apu := rfl
@[simp] theorem State.setJoy2_powered : (s.setJoy2 v).powered = s.powered := rfl
@[simp] theorem State.setJoy2_fault : (s.setJoy2 v).fault = s.fault := rfl
@[simp] theorem State.setJoy2_cart : (s.setJoy2 v).cart = s.cart := rfl
@[simp] theorem State.setJoy2_params : (s.setJoy2 v).params = s.params := rfl
@[simp] theorem State.setJoy2_inputs : (s.setJoy2 v).inputs = s.inputs := rfl
@[simp] theorem State.setJoy2_cycles : (s.setJoy2 v).cycles = s.cycles := rfl
end

/-! ### setMapper -/

section
variable (s : State) (v : Mapper)
@[simp] theorem State.setMapper_pc : (s.setMapper v).pc = s.pc := rfl
@[simp] theorem State.setMapper_sp : (s.setMapper v).sp = s.sp := rfl
@[simp] theorem State.setMapper_a : (s.setMapper v).a = s.a := rfl
@[simp] theorem State.setMapper_x : (s.setMapper v).x = s.x := rfl
@[simp] theorem State.setMapper_y : (s.setMapper v).y = s.y := rfl
@[simp] theorem State.setMapper_p : (s.setMapper v).p = s.p := rfl
@[simp] theorem State.setMapper_stall : (s.setMapper v).stall = s.stall := rfl
@[simp] theorem State.setMapper_ram : (s.setMapper v).ram = s.ram := rfl
@[simp] theorem State.setMapper_joy1 : (s.setMapper v).joy1 = s.joy1 := rfl
@[simp] theorem State.setMapper_joy2 : (s.setMapper v).joy2 = s.joy2 := rfl
@[simp] theorem State.setMapper_mapper : (s.setMapper v).mapper = v := rfl
@[simp] theorem State.setMapper_chrRam : (s.setMapper v).chrRam = s.chrRam := rfl
@[simp] theorem State.setMapper_ppu : (s.setMapper v).ppu = s.ppu := rfl
@[simp] theorem State.setMapper_apu : (s.setMapper v).apu = s.apu := rfl
@[simp] theorem State.setMapper_powered : (s.setMapper v).powered = s.powered := rfl
@[simp] theorem State.setMapper_fault : (s.setMapper v).fault = s.fault := rfl
@[simp] theorem State.setMapper_cart : (s.setMapper v).cart = s.cart := rfl
@[simp] theorem State.setMapper_params : (s.setMapper v).params = s.params := rfl
@[simp] theorem State.setMapper_inputs : (s.setMapper v).inputs = s.inputs := rfl
@[simp] theorem State.setMapper_cycles : (s.setMapper v).cycles = s.cycles := rfl
end

/-! ### setChrRam -/

section
variable (s : State) (v : Option Memory)
@[simp] theorem State.setChrRam_pc : (s.setChrRam v).pc = s.pc := rfl
@[simp] theorem State.setChrRam_sp : (s.setChrRam v).sp = s.sp := rfl
@[simp] theorem State.setChrRam_a : (s.setChrRam v).a = s.a := rfl
@[simp] theorem State.setChrRam_x : (s.setChrRam v).x = s.x := rfl
@[simp] theorem State.setChrRam_y : (s.setChrRam v).y = s.y := rfl
@[simp] theorem State.setChrRam_p : (s.setChrRam v).p = s.p := rfl
@[simp] theorem State.setChrRam_stall : (s.setChrRam v).stall = s.stall := rfl
@[simp] theorem State.setChrRam_ram : (s.setChrRam v).ram = s.ram := rfl
@[simp] theorem State.setChrRam_joy1 : (s.setChrRam v).joy1 = s.joy1 := rfl
@[simp] theorem State.setChrRam_joy2 : (s.setChrRam v).joy2 = s.joy2 := rfl
@[simp] theorem State.setChrRam_mapper : (s.setChrRam v).mapper = s.mapper := rfl
@[simp] theorem State.setChrRam_chrRam : (s.setChrRam v).chrRam = v := rfl
@[simp] theorem State.setChrRam_ppu : (s.setChrRam v).ppu = s.ppu := rfl
@[simp] theorem State.setChrRam_apu : (s.setChrRam v).apu = s.apu := rfl
@[simp] theorem State.setChrRam_powered : (s.setChrRam v).powered = s.powered := rfl
@[simp] theorem State.setChrRam_fault : (s.setChrRam v).fault = s.fault := rfl
@[simp] theorem State.setChrRam_cart : (s.setChrRam v).cart = s.cart := rfl
@[simp] theorem State.setChrRam_params : (s.setChrRam v).params = s.params := rfl
@[simp] theorem State.setChrRam_inputs : (s.setChrRam v).inputs = s.inputs := rfl
@[simp] theorem State.setChrRam_cycles : (s.setChrRam v).cycles = s.cycles := rfl
end

/-! ### setPpu -/

section
variable (s : State) (v : Ppu)
@[simp] theorem State.setPpu_pc : (s.setPpu v).pc = s.pc := rfl
@[simp] theorem State.setPpu_sp : (s.setPpu v).sp = s.sp := rfl
@[simp] theorem State.setPpu_a : (s.setPpu v).a = s.a := rfl
@[simp] theorem State.setPpu_x : (s.setPpu v).x = s.x := rfl
@[simp] theorem State.setPpu_y : (s.setPpu v).y = s.y := rfl
@[simp] theorem State.setPpu_p : (s.setPpu v).p = s.p := rfl
@[simp] theorem State.setPpu_stall : (s.setPpu v).stall = s.stall := rfl
@[simp] theorem State.setPpu_ram : (s.setPpu v).ram = s.ram := rfl
@[simp] theorem State.setPpu_joy1 : (s.setPpu v).joy1 = s.joy1 := rfl
@[simp] theorem State.setPpu_joy2 : (s.setPpu v).joy2 = s.joy2 := rfl
@[simp] theorem State.setPpu_mapper : (s.setPpu v).mapper = s.mapper := rfl
@[simp] theorem State.setPpu_chrRam : (s.setPpu v).chrRam = s.chrRam := rfl
@[simp] theorem State.setPpu_ppu : (s.setPpu v).ppu = v := rfl
@[simp] theorem State.setPpu_apu : (s.setPpu v).apu = s.apu := rfl
@[simp] theorem State.setPpu_powered : (s.setPpu v).powered = s.powered := rfl
@[simp] theorem State.setPpu_fault : (s.setPpu v).fault = s.fault := rfl
@[simp] theorem State.setPpu_cart : (s.setPpu v).cart = s.cart := rfl
@[simp] theorem State.setPpu_params : (s.setPpu v).params = s.params := rfl
@[simp] theorem State.setPpu_inputs : (s.setPpu v).inputs = s.inputs := rfl
@[simp] theorem State.setPpu_cycles : (s.setPpu v).cycles = s.cycles := rfl
end

/-! ### setApu -/

section
variable (s : State) (v : Apu)
@[simp] theorem State.setApu_pc : (s.setApu v).pc = s.pc := rfl
@[simp] theorem State.setApu_sp : (s.setApu v).sp = s.sp := rfl
@[simp] theorem State.setApu_a : (s.setApu v).a = s.a := rfl
@[simp] theorem State.setApu_x : (s.setApu v).x = s.x := rfl
@[simp] theorem State.setApu_y : (s.setApu v).y = s.y := rfl
@[simp] theorem State.setApu_p : (s.setApu v).p = s.p := rfl
@[simp] theorem State.setApu_stall : (s.setApu v).stall = s.stall := rfl
@[simp] theorem State.setApu_ram : (s.setApu v).ram = s.ram := rfl
@[simp] theorem State.setApu_joy1 : (s.setApu v).joy1 = s.joy1 := rfl
@[simp] theorem State.setApu_joy2 : (s.setApu v).joy2 = s.joy2 := rfl
@[simp] theorem State.setApu_mapper : (s.setApu v).mapper = s.mapper := rfl
@[simp] theorem State.setApu_chrRam : (s.setApu v).chrRam = s.chrRam := rfl
@[simp] theorem State.setApu_ppu : (s.setApu v).ppu = s.ppu := rfl
@[simp] theorem State.setApu_apu : (s.setApu v).apu = v := rfl
@[simp] theorem State.setApu_powered : (s.setApu v).powered = s.powered := rfl
@[simp] theorem State.setApu_fault : (s.setApu v).fault = s.fault := rfl
@[simp] theorem State.setApu_cart : (s.setApu v).cart = s.cart := rfl
@[simp] theorem State.setApu_params : (s.setApu v).params = s.params := rfl
@[simp] theorem State.setApu_inputs : (s.setApu v).inputs = s.inputs := rfl
@[simp] theorem State.setApu_cycles : (s.setApu v).cycles = s.cycles := rfl
end

/-! ### setInputs -/

section
variable (s : State) (v : Inputs)
@[simp] theorem State.setInputs_pc : (s.setInputs v).pc = s.pc := rfl
@[simp] theorem State.setInputs_sp : (s.setInputs v).sp = s.sp := rfl
@[simp] theorem State.setInputs_a : (s.setInputs v).a = s.a := rfl
@[simp] theorem State.setInputs_x : (s.setInputs v).x = s.x := rfl
@[simp] theorem State.setInputs_y : (s.setInputs v).y = s.y := rfl
@[simp] theorem State.setInputs_p : (s.setInputs v).p = s.p := rfl
@[simp] theorem State.setInputs_stall : (s.setInputs v).stall = s.stall := rfl
@[simp] theorem State.setInputs_ram : (s.setInputs v).ram = s.ram := rfl
@[simp] theorem State.setInputs_joy1 : (s.setInputs v).joy1 = s.joy1 := rfl
@[simp] theorem State.setInputs_joy2 : (s.setInputs v).joy2 = s.joy2 := rfl
@[simp] theorem State.setInputs_mapper : (s.setInputs v).mapper = s.mapper := rfl
@[simp] theorem State.setInputs_chrRam : (s.setInputs v).chrRam = s.chrRam := rfl
@[simp] theorem State.setInputs_ppu : (s.setInputs v).ppu = s.ppu := rfl
@[simp] theorem State.setInputs_apu : (s.setInputs v).apu = s.apu := rfl
@[simp] theorem State.setInputs_powered : (s.setInputs v).powered = s.powered := rfl
@[simp] theorem State.setInputs_fault : (s.setInputs v).fault = s.fault := rfl
@[simp] theorem State.setInputs_cart : (s.setInputs v).cart = s.cart := rfl
@[simp] theorem State.setInputs_params : (s.setInputs v).params = s.params := rfl
@[simp] theorem State.setInputs_inputs : (s.setInputs v).inputs = v := rfl
@[simp] theorem State.setInputs_cycles : (s.setInputs v).cycles = s.cycles := rfl
end

/-! ### setFlag -/

section
variable (s : State) (f : Flag) (b : Bool)
@[simp] theorem State.setFlag_pc : (s.setFlag f b).pc = s.pc := rfl
@[simp] theorem State.setFlag_sp : (s.setFlag f b).sp = s.sp := rfl
@[simp] theorem State.setFlag_a : (s.setFlag f b).a = s.a := rfl
@[simp] theorem State.setFlag_x : (s.setFlag f b).x = s.x := rfl
@[simp] theorem State.setFlag_y : (s.setFlag f b).y = s.y := rfl
@[simp] theorem State.setFlag_p : (s.setFlag f b).p = putFlag s.p f b := rfl
@[simp] theorem State.setFlag_stall : (s.setFlag f b).stall = s.stall := rfl
@[simp] theorem State.setFlag_ram : (s.setFlag f b).ram = s.ram := rfl
@[simp] theorem State.setFlag_joy1 : (s.setFlag f b).joy1 = s.joy1 := rfl
@[simp] theorem State.setFlag_joy2 : (s.setFlag f b).joy2 = s.joy2 := rfl
@[simp] theorem State.setFlag_mapper : (s.setFlag f b).mapper = s.mapper := rfl
@[simp] theorem State.setFlag_chrRam : (s.setFlag f b).chrRam = s.chrRam := rfl
@[simp] theorem State.setFlag_ppu : (s.setFlag f b).ppu = s.ppu := rfl
@[simp] theorem State.setFlag_apu : (s.setFlag f b).apu = s.apu := rfl
@[simp] theorem State.setFlag_powered : (s.setFlag f b).powered = s.powered := rfl
@[simp] theorem State.setFlag_fault : (s.setFlag f b).fault = s.fault := rfl
@[simp] theorem State.setFlag_cart : (s.setFlag f b).cart = s.cart := rfl
@[simp] theorem State.setFlag_params : (s.setFlag f b).params = s.params := rfl
@[simp] theorem State.setFlag_inputs : (s.setFlag f b).inputs = s.inputs := rfl
@[simp] theorem State.setFlag_cycles : (s.setFlag f b).cycles = s.cycles := rfl
end

/-! ### setNZ -/

section
variable (s : State) (v : Byte)
@[simp] theorem State.setNZ_pc : (s.setNZ v).pc = s.pc := rfl
@[simp] theorem State.setNZ_sp : (s.setNZ v).sp = s.sp := rfl
@[simp] theorem State.setNZ_a : (s.setNZ v).a = s.a := rfl
@[simp] theorem State.setNZ_x : (s.setNZ v).x = s.x := rfl
@[simp] theorem State.setNZ_y : (s.setNZ v).y = s.y := rfl
@[simp] theorem State.setNZ_p : (s.setNZ v).p = putNZ s.p v := rfl
@[simp] theorem State.setNZ_stall : (s.setNZ v).stall = s.stall := rfl
@[simp] theorem State.setNZ_ram : (s.setNZ v).ram = s.ram := rfl
@[simp] theorem State.setNZ_joy1 : (s.setNZ v).joy1 = s.joy1 := rfl
@[simp] theorem State.setNZ_joy2 : (s.setNZ v).joy2 = s.joy2 := rfl
@[simp] theorem State.setNZ_mapper : (s.setNZ v).mapper = s.mapper := rfl
@[simp] theorem State.setNZ_chrRam : (s.setNZ v).chrRam = s.chrRam := rfl
@[simp] theorem State.setNZ_ppu : (s.setNZ v).ppu = s.ppu := rfl
@[simp] theorem State.setNZ_apu : (s.setNZ v).apu = s.apu := rfl
@[simp] theorem State.setNZ_powered : (s.setNZ v).powered = s.powered := rfl
@[simp] theorem State.setNZ_fault : (s.setNZ v).fault = s.fault := rfl
@[simp] theorem State.setNZ_cart : (s.setNZ v).cart = s.cart := rfl
@[simp] theorem State.setNZ_params : (s.setNZ v).params = s.params := rfl
@[simp] theorem State.setNZ_inputs : (s.setNZ v).inputs = s.inputs := rfl
@[simp] theorem State.setNZ_cycles : (s.setNZ v).cycles = s.cycles := rfl
end

end Sys2Proof.Machine
end

