-- ==== Sys2Proof/Laws/Bus.lean ====
section
/-! SUPPORT. What the bus, the stack and handler entry do, said once: the address partition, a load changes only the
devices' side, a store by region, pushes and pulls as plain updates. -/

namespace Sys2Proof.Machine

/-! ### The partition -/

theorem busRegion_low {a : Word} (h : a.toNat ≤ 0x1FFF) : busRegion a = .ram (a.toNat % 2048) := by
  have : (a &&& 0x07FF).toNat = a.toNat % 2048 := by
    rw [BitVec.toNat_and]; exact Nat.and_two_pow_sub_one_eq_mod a.toNat 11
  rw [busRegion, if_pos h, this]

theorem busRegion_cartRam {a : Word} (h1 : 0x4020 ≤ a.toNat) (h2 : a.toNat ≤ 0x7FFF) :
    busRegion a = .ram a.toNat := by
  have e1 : a ≠ 0x4014 := by rintro rfl; simp at h1
  have e2 : a ≠ 0x4016 := by rintro rfl; simp at h1
  have e3 : a ≠ 0x4017 := by rintro rfl; simp at h1
  simp only [busRegion]
  rw [if_neg (by omega), if_neg (by omega), if_neg e1, if_neg e2, if_neg e3, if_neg (by omega), if_neg (by omega),
    if_pos h2]

theorem busRegion_prg {a : Word} (h : 0x8000 ≤ a.toNat) : busRegion a = .prg := by
  have e1 : a ≠ 0x4014 := by rintro rfl; simp at h
  have e2 : a ≠ 0x4016 := by rintro rfl; simp at h
  have e3 : a ≠ 0x4017 := by rintro rfl; simp at h
  simp only [busRegion]
  rw [if_neg (by omega), if_neg (by omega), if_neg e1, if_neg e2, if_neg e3, if_neg (by omega), if_neg (by omega),
    if_neg (by omega)]

theorem busRegion_ppu {a : Word} (h1 : 0x2000 ≤ a.toNat) (h2 : a.toNat ≤ 0x3FFF) :
    busRegion a = .ppu (a.extractLsb' 0 3) := by
  simp only [busRegion]
  rw [if_neg (by omega), if_pos h2]

/-- The byte-array indices the bus reaches: internal RAM and the cartridge RAM window (10_state.md R48). -/
theorem busRegion_ram_index {a : Word} {k : Nat} (h : busRegion a = .ram k) :
    k < 0x800 ∨ 0x4020 ≤ k ∧ k < 0x8000 := by
  by_cases h1 : a.toNat ≤ 0x1FFF
  · rw [busRegion_low h1] at h
    injection h with h; omega
  · simp only [busRegion, if_neg h1] at h
    split_ifs at h; injection h with h; omega

/-- An address in the last 32 KiB is program ROM. -/
theorem prg_of_busRegion {a : Word} (h : busRegion a = .prg) : 0x8000 ≤ a.toNat := by
  simp only [busRegion] at h
  split_ifs at h; omega

/-- The OAM DMA trigger is the one address 0x4014. -/
theorem busRegion_oamDma {a : Word} : busRegion a = .oamDma ↔ a = 0x4014 := by
  constructor
  · intro h
    simp only [busRegion] at h
    split_ifs at h; assumption
  · rintro rfl; rfl

@[simp] theorem toNat_zext16 (b : Byte) : (zext16 b).toNat = b.toNat := by
  have := b.isLt
  simp [zext16, BitVec.toNat_setWidth]; omega

theorem busRegion_zeroPage (b : Byte) : busRegion (zext16 b) = .ram b.toNat := by
  have := b.isLt
  rw [busRegion_low (by rw [toNat_zext16]; omega), toNat_zext16]
  congr 1; omega

theorem toNat_stackAddr (b : Byte) : (stackAddr b).toNat = 256 + b.toNat := by
  have hb := b.isLt
  have : stackAddr b = 0x0100 + zext16 b := by
    simp only [stackAddr]
    apply BitVec.eq_of_toNat_eq
    rw [BitVec.toNat_or, BitVec.toNat_add, toNat_zext16]
    have h := Nat.two_pow_add_eq_or_of_lt (i := 8) hb 1
    simp only [Nat.reducePow, Nat.mul_one] at h
    show (256 ||| b.toNat) = _
    rw [← h]
    show 256 + b.toNat = (256 + b.toNat) % 2 ^ 16
    omega
  rw [this, BitVec.toNat_add, toNat_zext16]
  show (256 + b.toNat) % 2 ^ 16 = _
  omega

theorem busRegion_stack (b : Byte) : busRegion (stackAddr b) = .ram (256 + b.toNat) := by
  have := b.isLt
  rw [busRegion_low (by rw [toNat_stackAddr]; omega), toNat_stackAddr]
  congr 1; omega

/-! ### Loads -/

section
variable {a : Word} {s : State}

theorem load_ram {k : Nat} (h : busRegion a = .ram k) : load a s = (s.ram.read k, s) := by simp [load, h]

theorem load_prg (h : busRegion a = .prg) : load a s = (s.prgByte a, s) := by simp [load, h]

end

theorem DevicesOnly.refl (s : State) : DevicesOnly s s := ⟨rfl, rfl, rfl, rfl, rfl, rfl, rfl⟩

theorem DevicesOnly.trans {s t u : State} (h1 : DevicesOnly s t) (h2 : DevicesOnly t u) : DevicesOnly s u where
  rest := by rw [h2.rest, h1.rest]
  joy1 := by rw [h2.joy1, h1.joy1]
  joy2 := by rw [h2.joy2, h1.joy2]
  ppu := by rw [h2.ppu, h1.ppu]
  apu := by rw [h2.apu, h1.apu]
  ppuClocks := h2.ppuClocks.trans h1.ppuClocks
  apuClocks := h2.apuClocks.trans h1.apuClocks

section
variable {s t : State} (h : DevicesOnly s t)
include h

theorem DevicesOnly.pc_eq : t.pc = s.pc := by rw [h.rest]
theorem DevicesOnly.sp_eq : t.sp = s.sp := by rw [h.rest]
theorem DevicesOnly.a_eq : t.a = s.a := by rw [h.rest]
theorem DevicesOnly.x_eq : t.x = s.x := by rw [h.rest]
theorem DevicesOnly.y_eq : t.y = s.y := by rw [h.rest]
theorem DevicesOnly.p_eq : t.p = s.p := by rw [h.rest]
theorem DevicesOnly.stall_eq : t.stall = s.stall := by rw [h.rest]
theorem DevicesOnly.ram_eq : t.ram = s.ram := by rw [h.rest]
theorem DevicesOnly.mapper_eq : t.mapper = s.mapper := by rw [h.rest]
theorem DevicesOnly.chrRam_eq : t.chrRam = s.chrRam := by rw [h.rest]
theorem DevicesOnly.powered_eq : t.powered = s.powered := by rw [h.rest]
theorem DevicesOnly.fault_eq : t.fault = s.fault := by rw [h.rest]
theorem DevicesOnly.cart_eq : t.cart = s.cart := by rw [h.rest]
theorem DevicesOnly.params_eq : t.params = s.params := by rw [h.rest]
theorem DevicesOnly.cycles_eq : t.cycles = s.cycles := by rw [h.rest]

theorem DevicesOnly.sameSession : SameSession s t := ⟨h.cart_eq, h.params_eq, h.powered_eq, h.fault_eq⟩

end

theorem drawPpuRead_clocks (d : Inputs) :
    (drawPpuRead d).2.ppuClocks = d.ppuClocks ∧ (drawPpuRead d).2.apuClocks = d.apuClocks := by
  unfold drawPpuRead; split <;> exact ⟨rfl, rfl⟩

theorem drawApuRead_clocks (d : Inputs) :
    (drawApuRead d).2.ppuClocks = d.ppuClocks ∧ (drawApuRead d).2.apuClocks = d.apuClocks := by
  unfold drawApuRead; split <;> exact ⟨rfl, rfl⟩

theorem ppuRead_devicesOnly (i : BitVec 3) (s : State) : DevicesOnly s (ppuRead i s).2 :=
  ⟨rfl, rfl, rfl, rfl, rfl, (drawPpuRead_clocks _).1, (drawPpuRead_clocks _).2⟩

theorem apuRead_devicesOnly (i : BitVec 5) (s : State) : DevicesOnly s (apuRead i s).2 :=
  ⟨rfl, rfl, rfl, rfl, rfl, (drawApuRead_clocks _).1, (drawApuRead_clocks _).2⟩

theorem ppuWrite_devicesOnly (i : BitVec 3) (v : Byte) (s : State) : DevicesOnly s (ppuWrite i v s) :=
  ⟨rfl, rfl, rfl, rfl, rfl, rfl, rfl⟩

theorem apuWrite_devicesOnly (i : BitVec 5) (v : Byte) (s : State) : DevicesOnly s (apuWrite i v s) :=
  ⟨rfl, rfl, rfl, rfl, rfl, rfl, rfl⟩

theorem Joypad.advance_eq (j : Joypad) : j.advance = { j with cursor := j.advance.cursor } := by
  unfold Joypad.advance; split <;> rfl

/-- A bus load changes only the devices' side (20_memory.md R115). -/
theorem load_devicesOnly (a : Word) (s : State) : DevicesOnly s (load a s).2 := by
  unfold load
  split
  · exact DevicesOnly.refl s
  · exact ppuRead_devicesOnly _ s
  · exact DevicesOnly.refl s
  · exact ⟨rfl, Joypad.advance_eq _, rfl, rfl, rfl, rfl, rfl⟩
  · exact ⟨rfl, rfl, Joypad.advance_eq _, rfl, rfl, rfl, rfl⟩
  · exact apuRead_devicesOnly _ s
  · exact DevicesOnly.refl s
  · exact DevicesOnly.refl s

theorem read16_devicesOnly (a : Word) (s : State) : DevicesOnly s (read16 a s).2 :=
  (load_devicesOnly _ _).trans (load_devicesOnly _ _)

theorem read16Wrap_devicesOnly (a : Word) (s : State) : DevicesOnly s (read16Wrap a s).2 :=
  (load_devicesOnly _ _).trans (load_devicesOnly _ _)

/-- A load reads neither the CPU registers nor `stall`: changing them first and last is the same. -/
theorem load_addStall (a : Word) (n : Nat) (s : State) :
    load a (s.addStall n) = ((load a s).1, (load a s).2.addStall n) := by
  unfold load; cases busRegion a <;> rfl

/-! ### OAM DMA -/

theorem oamCopy_devicesOnly (pg : Byte) (n : Nat) (s : State) : DevicesOnly s (oamCopy pg n s) := by
  induction n with
  | zero => exact DevicesOnly.refl s
  | succ n ih => exact (ih.trans (load_devicesOnly _ _)).trans (ppuWrite_devicesOnly _ _ _)

/-! ### Stores, by region -/

section
variable {a : Word} {s : State} (v : Byte)

theorem store_ram {k : Nat} (h : busRegion a = .ram k) : store a v s = s.setRam (s.ram.write k v) := by
  simp [store, h]

theorem store_prg (h : busRegion a = .prg) : store a v s = s.setMapper (s.mapper.store a v) := by
  simp [store, h]

theorem store_oamDma (h : busRegion a = .oamDma) : store a v s = oamDma v s := by simp [store, h]

end

/-- What a store may change besides the devices' side: the byte array, the mapper's registers and `stall`. The CPU
registers, character RAM and the session's constants it leaves alone. -/
theorem store_keeps (a : Word) (v : Byte) (s : State) :
    let t := store a v s
    t = { s with ram := t.ram, joy1 := t.joy1, joy2 := t.joy2, mapper := t.mapper, ppu := t.ppu, apu := t.apu
                 inputs := t.inputs, stall := t.stall } := by
  unfold store
  split
  · rfl
  · rfl
  · have h := oamCopy_devicesOnly v 256 s
    simp only [oamDma]
    rw [h.rest]; rfl
  all_goals rfl

/-- A store changes the byte array at the stored index only, and only when the address is in it. -/
theorem store_ram_read {s : State} (hwf : s.ram.wf) (a : Word) (v : Byte) (k : Nat) :
    (store a v s).ram.read k = if busRegion a = .ram k then v else s.ram.read k := by
  unfold store
  split
  · rename_i j hj
    rw [hj]
    simp only [State.setRam_ram, Memory.read_write hwf, Region.ram.injEq, eq_comm]
  · simp [*, ppuWrite]
  · rename_i h
    simp [h, oamDma, (oamCopy_devicesOnly v 256 s).ram_eq]
  all_goals simp [*, apuWrite]

/-- A store stalls 514 cycles when it starts the OAM DMA, and not at all otherwise (20_memory.md R110). -/
theorem store_stall (a : Word) (v : Byte) (s : State) :
    (store a v s).stall = s.stall + if a = 0x4014 then 514 else 0 := by
  have hdma := busRegion_oamDma (a := a)
  unfold store
  split
  case h_3 h =>
    simp [hdma.1 h, oamDma, (oamCopy_devicesOnly v 256 s).stall_eq]
  all_goals
    rename_i h
    have hne : a ≠ 0x4014 := fun e => by rw [hdma.2 e] at h; cases h
    rw [if_neg hne]
    rfl

/-! ### The stack -/

theorem push_eq (v : Byte) (s : State) :
    push v s = { s with ram := s.ram.write (256 + s.sp.toNat) v, sp := s.sp - 1 } := by
  simp only [push, store_ram v (busRegion_stack s.sp)]
  rfl

theorem pull_eq (s : State) :
    pull s = (s.ram.read (256 + (s.sp + 1).toNat), { s with sp := s.sp + 1 }) := by
  simp only [pull, State.setSp_sp, load_ram (busRegion_stack _)]
  rfl

theorem push16_eq (w : Word) (s : State) :
    push16 w s = { s with
      ram := (s.ram.write (256 + s.sp.toNat) (hiByte w)).write (256 + (s.sp - 1).toNat) (loByte w)
      sp := s.sp - 2 } := by
  simp only [push16, push_eq]
  congr 1
  rw [BitVec.sub_sub]; rfl

theorem pull16_eq (s : State) :
    pull16 s = (joinWord (s.ram.read (256 + (s.sp + 2).toNat)) (s.ram.read (256 + (s.sp + 1).toNat)),
      { s with sp := s.sp + 2 }) := by
  simp only [pull16, pull_eq]
  rw [BitVec.add_assoc]; rfl

/-! ### Vectors, entry and return -/

/-- A vector in program ROM is read without a side effect (60_exceptions.md R481). -/
theorem read16_prg {a : Word} (h1 : 0x8000 ≤ a.toNat) (h2 : a.toNat < 0xFFFF) (s : State) :
    read16 a s = (joinWord (s.prgByte (a + 1)) (s.prgByte a), s) := by
  have : (a + 1).toNat = a.toNat + 1 := by
    rw [BitVec.toNat_add]; show (a.toNat + 1) % 2 ^ 16 = _; omega
  simp only [read16, load_prg (busRegion_prg h1), load_prg (busRegion_prg (a := a + 1) (by omega))]

/-- The status byte handler entry pushes: B as the source has it, U set (60_exceptions.md R480). -/
def entryStatus (brk : Bool) (p : Byte) : Byte := putFlag (putFlag p .b brk) .u true

/-- Handler entry as one update: three stack bytes, `SP - 3`, the status with I set, `PC` from the vector. -/
theorem enterHandler_eq (brk : Bool) {vector : Word} (h1 : 0x8000 ≤ vector.toNat) (h2 : vector.toNat < 0xFFFF)
    (s : State) :
    enterHandler brk vector s = { s with
      ram := ((s.ram.write (256 + s.sp.toNat) (hiByte s.pc)).write (256 + (s.sp - 1).toNat) (loByte s.pc)).write
        (256 + (s.sp - 2).toNat) (entryStatus brk s.p)
      sp := s.sp - 3
      p := putFlag (entryStatus brk s.p) .i true
      pc := joinWord (s.prgByte (vector + 1)) (s.prgByte vector) } := by
  simp only [enterHandler, push16_eq, push_eq, read16_prg h1 h2]
  have : s.sp - 2 - 1 = s.sp - 3 := by rw [BitVec.sub_sub]; rfl
  simp only [State.setFlag, State.setP, State.setPc, State.prgByte, entryStatus, this]

theorem leaveHandler_eq (s : State) :
    leaveHandler s = { s with
      p := s.ram.read (256 + (s.sp + 1).toNat)
      pc := joinWord (s.ram.read (256 + (s.sp + 3).toNat)) (s.ram.read (256 + (s.sp + 2).toNat))
      sp := s.sp + 3 } := by
  have h2 : s.sp + 1 + 1 = s.sp + 2 := by rw [BitVec.add_assoc]; rfl
  have h3 : s.sp + 1 + 2 = s.sp + 3 := by rw [BitVec.add_assoc]; rfl
  simp only [leaveHandler, pull_eq, pull16_eq, State.setP, State.setPc, h2, h3]

end Sys2Proof.Machine
end

