-- ==== Sys2Proof/Laws/Operands.lean ====
section
/-! SUPPORT. What the resolver and the operand accesses do, said once. -/

namespace Sys2Proof.Machine

/-- Resolving an operand changes only the devices' side, and that only through an indirect pointer. -/
theorem resolve_devicesOnly (o : Operand) (s : State) : DevicesOnly s (resolve o s).2 := by
  cases o <;> first | exact DevicesOnly.refl s | exact read16Wrap_devicesOnly _ s

theorem loadRef_devicesOnly (r : Ref) (s : State) : DevicesOnly s (loadRef r s).2 := by
  cases r <;> first | exact DevicesOnly.refl s | exact load_devicesOnly _ s

theorem loadRef_addStall (r : Ref) (n : Nat) (s : State) :
    loadRef r (s.addStall n) = ((loadRef r s).1, (loadRef r s).2.addStall n) := by
  cases r <;> first | rfl | exact load_addStall _ n s

theorem readPlain_devicesOnly (o : Operand) (s : State) : DevicesOnly s (readPlain o s).2 :=
  (resolve_devicesOnly o s).trans (loadRef_devicesOnly _ _)

/-- The stalling read is the plain read, and one stall more where the index crossed a page (30_encoding.md R260). -/
theorem readStalling_eq (o : Operand) (s : State) :
    readStalling o s =
      ((readPlain o s).1, (readPlain o s).2.addStall (if (resolve o s).1.crossed then 1 else 0)) := by
  simp only [readStalling, resolveStalling, readPlain]
  split
  · exact loadRef_addStall _ _ _
  · rfl

/-- A well-formed memory operand resolves to an effective address. -/
theorem resolve_ref_mem {o : Operand} (h : o ≠ .acc) (h' : ∀ v, o ≠ .imm v) (s : State) :
    ∃ ea, (resolve o s).1.ref = .mem ea := by
  cases o <;> first | exact absurd rfl h | exact absurd rfl (h' _) | exact ⟨_, rfl⟩

end Sys2Proof.Machine
end

