-- ==== Sys2Proof/Laws/Invariant.lean ====
section
/-! SUPPORT. Every shared operation keeps DataOk: the memories' canonical form and ranges, the cursors, the mapper's
counters. One lemma per operation; the step's own preservation is left to its statement. -/

namespace Sys2Proof.Machine

/-! ### The mapper -/

theorem SameVariant.refl (m : Mapper) : SameVariant m m = true := by cases m <;> rfl

theorem SameVariant.trans {m n k : Mapper} (h1 : SameVariant m n = true) (h2 : SameVariant n k = true) :
    SameVariant m k = true := by
  cases m <;> cases n <;> cases k <;> first | rfl | simp [SameVariant] at h1 h2

theorem SameVariant.symm {m n : Mapper} (h : SameVariant m n = true) : SameVariant n m = true := by
  cases m <;> cases n <;> first | rfl | simp [SameVariant] at h

theorem Mapper.store_variant (m : Mapper) (a : Word) (v : Byte) : SameVariant m (m.store a v) = true := by
  cases m <;> rfl

theorem Mapper.driveIrq_variant (m : Mapper) : SameVariant m m.driveIrq.2 = true := by cases m <;> rfl

/-- A mapper of the same variant is numbered the same. -/
theorem Fme7Numbered.of_variant {p : Params} {m n : Mapper} (h : Fme7Numbered p m) (hv : SameVariant m n = true) :
    Fme7Numbered p n := by
  rintro ⟨r, rfl⟩
  cases m <;> first | exact h ⟨_, rfl⟩ | simp [SameVariant] at hv

theorem Mmc1.store_legal {r : Mmc1} (h : r.count ≤ 4) (a : Word) (v : Byte) : (r.store a v).count ≤ 4 := by
  unfold Mmc1.store
  split
  · simp
  · dsimp only
    split
    · split <;> simp
    · rename_i h5; simp only; omega

theorem Mapper.store_legal {m : Mapper} (h : m.legal = true) (a : Word) (v : Byte) : (m.store a v).legal = true := by
  cases m <;> first | rfl | exact decide_eq_true (Mmc1.store_legal (of_decide_eq_true h) a v)

theorem Mapper.driveIrq_legal {m : Mapper} (h : m.legal = true) : m.driveIrq.2.legal = true := by
  cases m <;> first | rfl | exact h

theorem bankOffset_lt {size n : Nat} (hs : 0 < size) (hn : 0 < n) (b addr : Nat) :
    bankOffset size n b addr < n * size := by
  have h1 := Nat.mod_lt b hn
  have h2 := Nat.mod_lt addr hs
  unfold bankOffset
  calc b % n * size + addr % size < b % n * size + size := by omega
    _ = (b % n + 1) * size := by ring
    _ ≤ n * size := Nat.mul_le_mul_right _ h1

/-! ### Registers and devices -/

section
variable {s : State} (h : DataOk s)
include h

/-- A record update of fields DataOk does not read. -/
theorem DataOk.of_same {t : State} (h1 : t.ram = s.ram) (h2 : t.cart = s.cart) (h3 : t.chrRam = s.chrRam)
    (h4 : t.joy1.cursor = s.joy1.cursor) (h5 : t.joy2.cursor = s.joy2.cursor) (h6 : t.mapper = s.mapper)
    (h7 : t.params = s.params) : DataOk t where
  params := h7 ▸ h.params
  ramWf := h1 ▸ h.ramWf
  ramBelow := h1 ▸ h.ramBelow
  cart := h2 ▸ h.cart
  chrRamPresent := by rw [h2, h3]; exact h.chrRamPresent
  chrRamOk := by rw [h3]; exact h.chrRamOk
  cursor1 := h4 ▸ h.cursor1
  cursor2 := h5 ▸ h.cursor2
  mapperLegal := h6 ▸ h.mapperLegal
  fme7 := h6 ▸ h7 ▸ h.fme7

theorem DataOk.setPc (v : Word) : DataOk (s.setPc v) := h.of_same rfl rfl rfl rfl rfl rfl rfl
theorem DataOk.setSp (v : Byte) : DataOk (s.setSp v) := h.of_same rfl rfl rfl rfl rfl rfl rfl
theorem DataOk.setA (v : Byte) : DataOk (s.setA v) := h.of_same rfl rfl rfl rfl rfl rfl rfl
theorem DataOk.setX (v : Byte) : DataOk (s.setX v) := h.of_same rfl rfl rfl rfl rfl rfl rfl
theorem DataOk.setY (v : Byte) : DataOk (s.setY v) := h.of_same rfl rfl rfl rfl rfl rfl rfl
theorem DataOk.setP (v : Byte) : DataOk (s.setP v) := h.of_same rfl rfl rfl rfl rfl rfl rfl
theorem DataOk.setFlag (f : Flag) (b : Bool) : DataOk (s.setFlag f b) := h.of_same rfl rfl rfl rfl rfl rfl rfl
theorem DataOk.setNZ (v : Byte) : DataOk (s.setNZ v) := h.of_same rfl rfl rfl rfl rfl rfl rfl
theorem DataOk.addStall (n : Nat) : DataOk (s.addStall n) := h.of_same rfl rfl rfl rfl rfl rfl rfl
theorem DataOk.setPpu (d : Ppu) : DataOk (s.setPpu d) := h.of_same rfl rfl rfl rfl rfl rfl rfl
theorem DataOk.setApu (d : Apu) : DataOk (s.setApu d) := h.of_same rfl rfl rfl rfl rfl rfl rfl
theorem DataOk.setInputs (d : Inputs) : DataOk (s.setInputs d) := h.of_same rfl rfl rfl rfl rfl rfl rfl

theorem DataOk.setMapper {m : Mapper} (hv : SameVariant s.mapper m = true) (hm : m.legal = true) :
    DataOk (s.setMapper m) :=
  { h with mapperLegal := hm, fme7 := h.fme7.of_variant hv }

theorem DataOk.setJoy1 {j : Joypad} (hj : j.cursor ≤ 8) : DataOk (s.setJoy1 j) := { h with cursor1 := hj }

theorem DataOk.setJoy2 {j : Joypad} (hj : j.cursor ≤ 8) : DataOk (s.setJoy2 j) := { h with cursor2 := hj }

theorem DataOk.writeRam {k : Nat} (hk : k < 65536) (v : Byte) : DataOk (s.setRam (s.ram.write k v)) :=
  { h with ramWf := Memory.write_wf h.ramWf k v, ramBelow := Memory.write_below h.ramBelow hk v }

end

theorem Joypad.advance_cursor {j : Joypad} (h : j.cursor ≤ 8) : j.advance.cursor ≤ 8 := by
  unfold Joypad.advance
  split
  · rename_i hc; simp only [Bool.and_eq_true, decide_eq_true_eq] at hc; exact hc.2
  · exact h

theorem Joypad.strobe_cursor {j : Joypad} (h : j.cursor ≤ 8) (v : Byte) : (j.strobe v).cursor ≤ 8 := by
  unfold Joypad.strobe; dsimp only; split <;> simp [h]

/-! ### The bus -/

theorem DataOk.load {s : State} (h : DataOk s) (a : Word) : DataOk (load a s).2 := by
  unfold Machine.load
  split
  · exact h
  · exact (h.setInputs _).setPpu _
  · exact h
  · exact h.setJoy1 (Joypad.advance_cursor h.cursor1)
  · exact h.setJoy2 (Joypad.advance_cursor h.cursor2)
  · exact (h.setInputs _).setApu _
  · exact h
  · exact h

theorem DataOk.oamCopy {s : State} (h : DataOk s) (pg : Byte) (n : Nat) : DataOk (oamCopy pg n s) := by
  induction n with
  | zero => exact h
  | succ n ih => exact (ih.load _).setPpu _

theorem DataOk.store {s : State} (h : DataOk s) (a : Word) (v : Byte) : DataOk (store a v s) := by
  unfold Machine.store
  split
  · rename_i k hk
    exact h.writeRam (by rcases busRegion_ram_index hk with h | h <;> omega) v
  · exact h.setPpu _
  · exact (h.oamCopy v 256).addStall _
  · exact (h.setJoy1 (Joypad.strobe_cursor h.cursor1 v)).setJoy2 (Joypad.strobe_cursor h.cursor2 v)
  · exact h.setApu _
  · exact h.setApu _
  · exact h
  · exact h.setMapper (Mapper.store_variant _ a v) (Mapper.store_legal h.mapperLegal a v)

theorem DataOk.read16 {s : State} (h : DataOk s) (a : Word) : DataOk (read16 a s).2 := (h.load _).load _

theorem DataOk.read16Wrap {s : State} (h : DataOk s) (a : Word) : DataOk (read16Wrap a s).2 := (h.load _).load _

theorem DataOk.push {s : State} (h : DataOk s) (v : Byte) : DataOk (push v s) := (h.store _ _).setSp _

theorem DataOk.push16 {s : State} (h : DataOk s) (w : Word) : DataOk (push16 w s) := (h.push _).push _

theorem DataOk.pull {s : State} (h : DataOk s) : DataOk (pull s).2 := (h.setSp _).load _

theorem DataOk.pull16 {s : State} (h : DataOk s) : DataOk (pull16 s).2 := h.pull.pull

theorem DataOk.enterHandler {s : State} (h : DataOk s) (brk : Bool) (vector : Word) :
    DataOk (enterHandler brk vector s) :=
  ((((((h.setFlag _ _).setFlag _ _).push16 _).push _).setFlag _ _).read16 _).setPc _

theorem DataOk.serviceInterrupt {s : State} (h : DataOk s) (vector : Word) : DataOk (serviceInterrupt vector s) :=
  (h.enterHandler _ _).addStall _

theorem DataOk.leaveHandler {s : State} (h : DataOk s) : DataOk (leaveHandler s) :=
  ((h.pull.setP _).pull16).setPc _

theorem DataOk.interruptPoll {s : State} (h : DataOk s) : DataOk (interruptPoll s) := by
  have h1 : DataOk (pollNmi s) := by
    unfold pollNmi
    split
    · exact (h.setPpu _).serviceInterrupt _
    · exact h
  have hc : DataOk (clearIrqFlags (pollNmi s)) := (h1.setPpu _).setApu _
  have key : ∀ masked : Bool, DataOk (if masked then clearIrqFlags (pollNmi s)
      else Machine.serviceInterrupt irqVector (clearIrqFlags (pollNmi s))) := fun masked => by
    cases masked
    · exact hc.serviceInterrupt _
    · exact hc
  unfold Machine.interruptPoll pollIrq
  split
  · exact key _
  · exact h1

/-! ### Operands -/

theorem DataOk.resolve {s : State} (h : DataOk s) (o : Operand) : DataOk (resolve o s).2 := by
  cases o <;> first | exact h | exact h.read16Wrap _

theorem DataOk.loadRef {s : State} (h : DataOk s) (r : Ref) : DataOk (loadRef r s).2 := by
  cases r <;> first | exact h | exact h.load _

theorem DataOk.storeRef {s : State} (h : DataOk s) (r : Ref) (v : Byte) : DataOk (storeRef r v s) := by
  cases r <;> first | exact h | exact h.setA v | exact h.store _ v

theorem DataOk.readPlain {s : State} (h : DataOk s) (o : Operand) : DataOk (readPlain o s).2 :=
  (h.resolve o).loadRef _

theorem DataOk.readStalling {s : State} (h : DataOk s) (o : Operand) : DataOk (readStalling o s).2 := by
  rw [readStalling_eq]; exact (h.readPlain o).addStall _

theorem DataOk.writeOperand {s : State} (h : DataOk s) (o : Operand) (v : Byte) : DataOk (writeOperand o v s) :=
  (h.resolve o).storeRef _ v

theorem DataOk.modifyOperand {s : State} (h : DataOk s) (o : Operand) (f : Byte → Byte) :
    DataOk (modifyOperand o f s).2 := ((h.resolve o).loadRef _).storeRef _ _

/-! ### Device clocking -/

/-- Applying a function that keeps a property any number of times keeps it. -/
theorem iterate_keeps {P : State → Prop} {f : State → State} (h : ∀ s, P s → P (f s)) :
    ∀ n s, P s → P (iterate f n s)
  | 0, _, hs => hs
  | n + 1, s, hs => iterate_keeps h n (f s) (h s hs)

theorem chrOffset_lt {s : State} (h : DataOk s) (hram : s.chrRam.isSome = true) (addr : BitVec 13) :
    s.mapper.mapChr s.cart.chr8 addr < 8192 := by
  have ha := addr.isLt
  rw [h.chrRamPresent.1 hram]
  cases s.mapper with
  | nrom => exact ha
  | uxrom _ => exact ha
  | mmc1 r => exact bankOffset_lt (size := 4096) (n := 2) (by decide) (by decide) _ _
  | cnrom b => exact bankOffset_lt (size := 8192) (n := 1) (by decide) (by decide) _ _
  | mmc3 r => exact bankOffset_lt (size := 1024) (n := 8) (by decide) (by decide) _ _
  | fme7 r => exact bankOffset_lt (size := 1024) (n := 8) (by decide) (by decide) _ _

theorem DataOk.chrWrite {s : State} (h : DataOk s) (addr : BitVec 13) (v : Byte) : DataOk (chrWrite addr v s) := by
  unfold Machine.chrWrite
  split
  · rename_i m hm
    have hsome : s.chrRam.isSome = true := by rw [hm]; rfl
    have hk := chrOffset_lt h hsome addr
    refine { h with chrRamPresent := by simpa [hm] using h.chrRamPresent, chrRamOk := ?_ }
    · intro m' hm'
      cases hm'
      exact ⟨Memory.write_wf (h.chrRamOk m hm).1 _ _, Memory.write_below (h.chrRamOk m hm).2 hk _⟩
  · exact h

theorem DataOk.ppuAct {s : State} (h : DataOk s) (act : PpuAction) : DataOk (ppuAct act s) := by
  cases act with
  | driveIrqCounter => exact (h.setMapper (Mapper.driveIrq_variant _) (Mapper.driveIrq_legal h.mapperLegal)).setPpu _
  | writeChr addr v => exact h.chrWrite addr v
  | _ => exact h.setPpu _

theorem DataOk.ppuActs (acts : List PpuAction) : ∀ {s : State}, DataOk s → DataOk (ppuActs acts s) := by
  induction acts with
  | nil => exact id
  | cons act rest ih => exact fun h => ih (h.ppuAct act)

theorem DataOk.ppuClock {s : State} (h : DataOk s) : DataOk (ppuClock s) := by
  unfold Machine.ppuClock
  dsimp only
  split
  · exact h.setPpu _
  · exact DataOk.ppuActs _ ((h.setPpu _).setInputs _)

theorem DataOk.apuClock {s : State} (h : DataOk s) : DataOk (apuClock s) := by
  unfold Machine.apuClock
  dsimp only
  split
  · exact h.setApu _
  · split
    · exact ((h.setApu _).setInputs _).setApu _
    · exact ((((h.setApu _).setInputs _).setApu _).load _).setApu _

theorem DataOk.clockDevices {s : State} (h : DataOk s) (n : Nat) : DataOk (clockDevices n s) :=
  iterate_keeps (fun _ hs => (iterate_keeps (fun _ ht => ht.ppuClock) _ _ hs).apuClock) n s h

end Sys2Proof.Machine
end

