-- ==== Sys2Proof/Laws/Clock.lean ====
section
/-! SUPPORT. What clocking the devices does: how far the clocks advance, and what it keeps. -/

namespace Sys2Proof.Machine

/-- What clocking the devices keeps: every register, the byte array, `stall`, the session, the buttons, the mapper's
variant. -/
structure Clocked (s t : State) : Prop where
  rest : t = { s with joy1 := t.joy1, joy2 := t.joy2, mapper := t.mapper, chrRam := t.chrRam, ppu := t.ppu, apu := t.apu,
                      inputs := t.inputs }
  joy1 : t.joy1 = { s.joy1 with cursor := t.joy1.cursor }
  joy2 : t.joy2 = { s.joy2 with cursor := t.joy2.cursor }
  variant : SameVariant s.mapper t.mapper = true

theorem Clocked.refl (s : State) : Clocked s s := ⟨rfl, rfl, rfl, SameVariant.refl _⟩

theorem Clocked.trans {s t u : State} (h1 : Clocked s t) (h2 : Clocked t u) : Clocked s u where
  rest := by rw [h2.rest, h1.rest]
  joy1 := by rw [h2.joy1, h1.joy1]
  joy2 := by rw [h2.joy2, h1.joy2]
  variant := SameVariant.trans h1.variant h2.variant

theorem DevicesOnly.clocked {s t : State} (h : DevicesOnly s t) : Clocked s t where
  rest := by rw [h.rest]
  joy1 := h.joy1
  joy2 := h.joy2
  variant := by rw [h.mapper_eq]; exact SameVariant.refl _

/-- A PPU action keeps both clock counts and the parameters. -/
theorem ppuAct_clocks (act : PpuAction) (s : State) :
    (ppuAct act s).ppu.clocks = s.ppu.clocks ∧ (ppuAct act s).apu = s.apu ∧ (ppuAct act s).params = s.params := by
  cases act with
  | writeChr addr v => simp only [ppuAct, chrWrite]; split <;> exact ⟨rfl, rfl, rfl⟩
  | _ => exact ⟨rfl, rfl, rfl⟩

theorem ppuAct_clocked (act : PpuAction) (s : State) : Clocked s (ppuAct act s) := by
  cases act with
  | writeChr addr v => simp only [ppuAct, chrWrite]; split <;> exact ⟨rfl, rfl, rfl, SameVariant.refl _⟩
  | driveIrqCounter => exact ⟨rfl, rfl, rfl, Mapper.driveIrq_variant _⟩
  | _ => exact ⟨rfl, rfl, rfl, SameVariant.refl _⟩

theorem ppuActs_clocks (acts : List PpuAction) (s : State) :
    (ppuActs acts s).ppu.clocks = s.ppu.clocks ∧ (ppuActs acts s).apu = s.apu ∧
      (ppuActs acts s).params = s.params := by
  induction acts generalizing s with
  | nil => exact ⟨rfl, rfl, rfl⟩
  | cons act rest ih =>
    obtain ⟨h1, h2, h3⟩ := ppuAct_clocks act s
    obtain ⟨k1, k2, k3⟩ := ih (ppuAct act s)
    exact ⟨k1.trans h1, k2.trans h2, k3.trans h3⟩

/-- The actions of a PPU clock run in the queue's order, each on the state the one before left. -/
theorem ppuActs_eq_foldl (acts : List PpuAction) (s : State) :
    ppuActs acts s = acts.foldl (fun u act => ppuAct act u) s := by
  induction acts generalizing s with
  | nil => rfl
  | cons act rest ih => exact ih (ppuAct act s)

theorem ppuActs_clocked (acts : List PpuAction) (s : State) : Clocked s (ppuActs acts s) := by
  induction acts generalizing s with
  | nil => exact Clocked.refl s
  | cons act rest ih => exact (ppuAct_clocked act s).trans (ih _)

/-- One PPU clock is one more PPU clock and no APU clock. -/
theorem ppuClock_clocks (s : State) :
    (ppuClock s).ppu.clocks = s.ppu.clocks + 1 ∧ (ppuClock s).apu = s.apu ∧ (ppuClock s).params = s.params := by
  unfold ppuClock
  dsimp only
  split
  · exact ⟨rfl, rfl, rfl⟩
  · exact ppuActs_clocks _ _

theorem ppuClock_clocked (s : State) : Clocked s (ppuClock s) := by
  unfold ppuClock
  dsimp only
  split
  · exact ⟨rfl, rfl, rfl, SameVariant.refl _⟩
  · refine Clocked.trans ?_ (ppuActs_clocked _ _)
    exact ⟨rfl, rfl, rfl, SameVariant.refl _⟩

theorem deliverSample_clocks (addr : Word) (s : State) :
    (deliverSample addr s).apu.clocks = s.apu.clocks ∧ (deliverSample addr s).ppu.clocks = s.ppu.clocks ∧
      (deliverSample addr s).params = s.params := by
  have h := load_devicesOnly addr s
  refine ⟨?_, ?_, h.params_eq⟩
  · show (load addr s).2.apu.clocks = _
    rw [h.apu]
  · show (load addr s).2.ppu.clocks = _
    rw [h.ppu]

theorem deliverSample_clocked (addr : Word) (s : State) : Clocked s (deliverSample addr s) := by
  refine (load_devicesOnly addr s).clocked.trans ?_
  exact ⟨rfl, rfl, rfl, SameVariant.refl _⟩

/-- One APU clock, its sample fetch included, is one more APU clock and no PPU clock. -/
theorem apuClock_clocks (s : State) :
    (apuClock s).apu.clocks = s.apu.clocks + 1 ∧ (apuClock s).ppu.clocks = s.ppu.clocks ∧
      (apuClock s).params = s.params := by
  unfold apuClock
  dsimp only
  split
  · exact ⟨rfl, rfl, rfl⟩
  · split
    · exact ⟨rfl, rfl, rfl⟩
    · exact deliverSample_clocks _ _

theorem apuClock_clocked (s : State) : Clocked s (apuClock s) := by
  unfold apuClock
  dsimp only
  split
  · exact ⟨rfl, rfl, rfl, SameVariant.refl _⟩
  · split
    · exact ⟨rfl, rfl, rfl, SameVariant.refl _⟩
    · refine Clocked.trans ?_ (deliverSample_clocked _ _)
      exact ⟨rfl, rfl, rfl, SameVariant.refl _⟩

/-- The model's repetition is the library's. -/
theorem iterate_eq (f : State → State) (n : Nat) (s : State) : iterate f n s = f^[n] s := by
  induction n generalizing s with
  | zero => rfl
  | succ n ih => exact ih (f s)

theorem ppuClocks_clocks (n : Nat) (s : State) :
    (iterate ppuClock n s).ppu.clocks = s.ppu.clocks + n ∧ (iterate ppuClock n s).apu = s.apu ∧
      (iterate ppuClock n s).params = s.params := by
  induction n generalizing s with
  | zero => exact ⟨rfl, rfl, rfl⟩
  | succ n ih =>
    obtain ⟨h1, h2, h3⟩ := ppuClock_clocks s
    obtain ⟨k1, k2, k3⟩ := ih (ppuClock s)
    exact ⟨by simp only [iterate]; omega, k2.trans h2, k3.trans h3⟩

theorem clockCycle_clocks (s : State) :
    (clockCycle s).ppu.clocks = s.ppu.clocks + s.params.ppuRatio ∧ (clockCycle s).apu.clocks = s.apu.clocks + 1 ∧
      (clockCycle s).params = s.params := by
  obtain ⟨h1, h2, h3⟩ := ppuClocks_clocks s.params.ppuRatio s
  obtain ⟨k1, k2, k3⟩ := apuClock_clocks (iterate ppuClock s.params.ppuRatio s)
  refine ⟨k2.trans h1, k1.trans (by rw [h2]), k3.trans h3⟩

/-- `ClockDevices(n)` is `n * PPU_RATIO` PPU clocks and `n` APU clocks (31_step.md R298). -/
theorem clockDevices_clocks (n : Nat) (s : State) :
    (clockDevices n s).ppu.clocks = s.ppu.clocks + n * s.params.ppuRatio ∧
      (clockDevices n s).apu.clocks = s.apu.clocks + n := by
  induction n generalizing s with
  | zero => simp [clockDevices, iterate]
  | succ n ih =>
    obtain ⟨h1, h2, h3⟩ := clockCycle_clocks s
    obtain ⟨k1, k2⟩ := ih (clockCycle s)
    simp only [clockDevices, iterate] at *
    rw [k1, k2, h1, h2, h3]
    exact ⟨by ring, by ring⟩

theorem clockCycle_clocked (s : State) : Clocked s (clockCycle s) :=
  (iterate_keeps (P := Clocked s) (fun _ h => h.trans (ppuClock_clocked _)) _ s (Clocked.refl s)).trans
    (apuClock_clocked _)

/-- Repeating a step that keeps the parameters may read them from the start. -/
theorem clockDevices_eq (n : Nat) (s : State) :
    clockDevices n s = (fun u => apuClock (ppuClock^[s.params.ppuRatio] u))^[n] s := by
  induction n generalizing s with
  | zero => rfl
  | succ n ih =>
    have h := ih (clockCycle s)
    rw [(clockCycle_clocks s).2.2] at h
    rw [Function.iterate_succ_apply, ← iterate_eq ppuClock]
    exact h

/-- Clocking the devices changes only the devices' side, the mapper's registers and character RAM. -/
theorem clockDevices_clocked (n : Nat) (s : State) : Clocked s (clockDevices n s) :=
  iterate_keeps (P := Clocked s) (fun _ h => h.trans (clockCycle_clocked _)) n s (Clocked.refl s)

end Sys2Proof.Machine
end

