-- ==== Sys2Proof/Laws/Decode.lean ====
section
/-! SUPPORT. The decoder: the kind, the mode and the well-formedness of what it assembles. -/

namespace Sys2Proof

theorem Op.assemble_kind (op : Op) (opcode b1 b2 : Byte) : (op.assemble opcode b1 b2).kind = op.kind := by
  obtain ⟨kind, mode, cycles⟩ := op
  cases kind <;> rfl

/-- An Operation whose kind offers its mode assembles to an instruction of that mode. -/
theorem Op.assemble_mode {op : Op} (h : op.mode ∈ op.kind.modes) (opcode b1 b2 : Byte) :
    (op.assemble opcode b1 b2).mode = op.mode := by
  obtain ⟨kind, mode, cycles⟩ := op
  cases kind <;> cases mode <;> first | rfl | simp [Kind.modes] at h

/-- Every row of the table offers its mode. -/
theorem decodeOp_modes (b : Byte) : (decodeOp b).mode ∈ (decodeOp b).kind.modes := by revert b; decide

theorem decodeOp_length_le (b : Byte) : (decodeOp b).operandLength ≤ 2 := by revert b; decide

theorem decodeOp_invalid (b : Byte) : (decodeOp b).kind = .invalid → undocumentedBytes.contains b = true := by
  revert b; decide

/-- What the decoder assembles is well-formed. -/
theorem decodeOp_assemble_wf (b b1 b2 : Byte) : ((decodeOp b).assemble b b1 b2).wf = true := by
  have hmode := decodeOp_modes b
  have hk := Op.assemble_kind (decodeOp b) b b1 b2
  have hm := Op.assemble_mode hmode b b1 b2
  have hb : ((decodeOp b).assemble b b1 b2).byteOk = true := by
    have hi := decodeOp_invalid b
    generalize decodeOp b = op at hi
    obtain ⟨kind, mode, cycles⟩ := op
    cases kind <;> first | rfl | exact hi rfl
  simp only [Instr.wf, Instr.modeOk, hk, hm, hb, Bool.and_true]
  exact List.contains_iff_mem.2 hmode

end Sys2Proof
end

