-- ==== Sys2Proof/Laws/Exec.lean ====
section
/-! SUPPORT. The induction over a step, said once: a property that register writes, bus loads, bus stores, interrupt-flag
writes and device clocking keep is kept by every instruction and every step. -/

namespace Sys2Proof.Machine

/-- `P` is kept by everything an instruction does. -/
structure KeptByExec (P : State → Prop) : Prop where
  registers : ∀ s pc sp a x y p stall, P s →
    P { s with pc := pc, sp := sp, a := a, x := x, y := y, p := p, stall := stall }
  load : ∀ s addr, P s → P (load addr s).2
  store : ∀ s addr v, P s → P (store addr v s)

section
variable {P : State → Prop} (K : KeptByExec P) {s : State} (h : P s)
include K h

theorem KeptByExec.setPc (v : Word) : P (s.setPc v) := K.registers s v s.sp s.a s.x s.y s.p s.stall h
theorem KeptByExec.setSp (v : Byte) : P (s.setSp v) := K.registers s s.pc v s.a s.x s.y s.p s.stall h
theorem KeptByExec.setA (v : Byte) : P (s.setA v) := K.registers s s.pc s.sp v s.x s.y s.p s.stall h
theorem KeptByExec.setX (v : Byte) : P (s.setX v) := K.registers s s.pc s.sp s.a v s.y s.p s.stall h
theorem KeptByExec.setY (v : Byte) : P (s.setY v) := K.registers s s.pc s.sp s.a s.x v s.p s.stall h
theorem KeptByExec.setP (v : Byte) : P (s.setP v) := K.registers s s.pc s.sp s.a s.x s.y v s.stall h
theorem KeptByExec.addStall (n : Nat) : P (s.addStall n) := K.registers s s.pc s.sp s.a s.x s.y s.p (s.stall + n) h

theorem KeptByExec.push (v : Byte) : P (push v s) := K.setSp (K.store _ _ _ h) _
theorem KeptByExec.push16 (w : Word) : P (push16 w s) := K.push (K.push h _) _
theorem KeptByExec.pull : P (pull s).2 := K.load _ _ (K.setSp h _)
theorem KeptByExec.pull16 : P (pull16 s).2 := K.pull (K.pull h)
theorem KeptByExec.read16 (a : Word) : P (read16 a s).2 := K.load _ _ (K.load _ _ h)
theorem KeptByExec.read16Wrap (a : Word) : P (read16Wrap a s).2 := K.load _ _ (K.load _ _ h)

theorem KeptByExec.enterHandler (brk : Bool) (vector : Word) : P (enterHandler brk vector s) :=
  K.setPc (K.read16 (K.setP (K.push (K.push16 (K.setP (K.setP h _) _) _) _) _) _) _

theorem KeptByExec.leaveHandler : P (leaveHandler s) := K.setPc (K.pull16 (K.setP (K.pull h) _)) _

theorem KeptByExec.resolve (o : Operand) : P (resolve o s).2 := by
  cases o <;> first | exact h | exact K.read16Wrap h _

theorem KeptByExec.loadRef (r : Ref) : P (loadRef r s).2 := by
  cases r <;> first | exact h | exact K.load _ _ h

theorem KeptByExec.storeRef (r : Ref) (v : Byte) : P (storeRef r v s) := by
  cases r <;> first | exact h | exact K.setA h v | exact K.store _ _ v h

theorem KeptByExec.readPlain (o : Operand) : P (readPlain o s).2 := K.loadRef (K.resolve h o) _

theorem KeptByExec.readStalling (o : Operand) : P (readStalling o s).2 := by
  rw [readStalling_eq]; exact K.addStall (K.readPlain h o) _

theorem KeptByExec.writeOperand (o : Operand) (v : Byte) : P (writeOperand o v s) := K.storeRef (K.resolve h o) _ v

theorem KeptByExec.modifyOperand (o : Operand) (f : Byte → Byte) : P (modifyOperand o f s).2 :=
  K.storeRef (K.loadRef (K.resolve h o) _) _ _

theorem KeptByExec.branch (cond : Bool) (offset : Byte) : P (branch cond offset s) := by
  unfold Machine.branch
  dsimp only
  split
  · split
    · exact K.setPc (K.addStall (K.addStall h _) _) _
    · exact K.setPc (K.addStall h _) _
  · exact h

/-- Every instruction keeps `P`. -/
theorem KeptByExec.exec {i : Instr} {t : State} (ht : exec i s = .next t) : P t := by
  cases i
  case jmp o =>
    simp only [Machine.exec, execJmp] at ht
    split at ht <;> cases ht
    · exact K.setPc (K.resolve h o) _
    · exact K.resolve h o
    · exact K.resolve h o
  case invalid b =>
    simp only [Machine.exec, execInvalid] at ht
    split at ht <;> cases ht
    exact K.setPc h _
  case lda o => cases ht; exact K.setP (K.setA (K.readStalling h o) _) _
  case ldx o => cases ht; exact K.setP (K.setX (K.readStalling h o) _) _
  case ldy o => cases ht; exact K.setP (K.setY (K.readStalling h o) _) _
  case and o => cases ht; exact K.setP (K.setA (K.readStalling h o) _) _
  case ora o => cases ht; exact K.setP (K.setA (K.readStalling h o) _) _
  case eor o => cases ht; exact K.setP (K.setA (K.readStalling h o) _) _
  case adc o => cases ht; exact K.setP (K.setA (K.setP (K.setP (K.readStalling h o) _) _) _) _
  case sbc o => cases ht; exact K.setP (K.setA (K.setP (K.setP (K.readStalling h o) _) _) _) _
  case cmp o => cases ht; exact K.setP (K.readStalling h o) _
  case cpx o => cases ht; exact K.setP (K.readPlain h o) _
  case cpy o => cases ht; exact K.setP (K.readPlain h o) _
  case bit o => cases ht; exact K.setP (K.setP (K.setP (K.readPlain h o) _) _) _
  case sta o => cases ht; exact K.writeOperand h o _
  case stx o => cases ht; exact K.writeOperand h o _
  case sty o => cases ht; exact K.writeOperand h o _
  case inc o => cases ht; exact K.setP (K.modifyOperand h o _) _
  case dec o => cases ht; exact K.setP (K.modifyOperand h o _) _
  case asl o => cases ht; exact K.setP (K.setP (K.modifyOperand h o _) _) _
  case lsr o => cases ht; exact K.setP (K.setP (K.modifyOperand h o _) _) _
  case rol o => cases ht; exact K.setP (K.setP (K.modifyOperand h o _) _) _
  case ror o => cases ht; exact K.setP (K.setP (K.modifyOperand h o _) _) _
  case tax => cases ht; exact K.setP (K.setX h _) _
  case tay => cases ht; exact K.setP (K.setY h _) _
  case tsx => cases ht; exact K.setP (K.setX h _) _
  case txa => cases ht; exact K.setP (K.setA h _) _
  case tya => cases ht; exact K.setP (K.setA h _) _
  case txs => cases ht; exact K.setSp h _
  case inx => cases ht; exact K.setP (K.setX h _) _
  case iny => cases ht; exact K.setP (K.setY h _) _
  case dex => cases ht; exact K.setP (K.setX h _) _
  case dey => cases ht; exact K.setP (K.setY h _) _
  case pha => cases ht; exact K.push h _
  case php => cases ht; exact K.push (K.setP (K.setP h _) _) _
  case pla => cases ht; exact K.setP (K.setA (K.pull h) _) _
  case plp => cases ht; exact K.setP (K.pull h) _
  case jsr w => cases ht; exact K.setPc (K.push16 h _) _
  case rts => cases ht; exact K.setPc (K.pull16 h) _
  case rti => cases ht; exact K.leaveHandler h
  case brk => cases ht; exact K.enterHandler (K.setPc h _) _ _
  case nop => cases ht; exact h
  all_goals first
    | (cases ht; exact K.setP h _)
    | (cases ht; exact K.branch h _ _)

end

/-- `P` is kept by everything a step does. -/
structure KeptByStep (P : State → Prop) : Prop extends KeptByExec P where
  interruptFlags : ∀ s n i j, P s →
    P { s with ppu := { s.ppu with nmiFlag := n, irqFlag := i }, apu := { s.apu with irqFlag := j } }
  clock : ∀ s n, P s → P (clockDevices n s)
  cycles : ∀ s n, P s → P { s with cycles := n }

section
variable {P : State → Prop} (K : KeptByStep P) {s : State} (h : P s)
include K h

theorem KeptByStep.interruptPoll : P (interruptPoll s) := by
  have enter : ∀ {u : State} (v : Word), P u → P (serviceInterrupt v u) := fun v hu =>
    K.toKeptByExec.addStall (K.toKeptByExec.enterHandler hu _ _) _
  have h1 : P (pollNmi s) := by
    unfold pollNmi
    split
    · exact enter _ (K.interruptFlags s false s.ppu.irqFlag s.apu.irqFlag h)
    · exact h
  unfold Machine.interruptPoll pollIrq
  split
  · have h2 : P (clearIrqFlags (pollNmi s)) :=
      K.interruptFlags (pollNmi s) (pollNmi s).ppu.nmiFlag false false h1
    dsimp only
    split_ifs
    · exact h2
    · exact enter _ h2
  · exact h1

theorem KeptByStep.beginStep : P (beginStep s) :=
  K.interruptPoll (K.registers s s.pc s.sp s.a s.x s.y s.p 0 h)

theorem KeptByStep.fetch : P (fetch s).2 := by
  have one : ∀ {u : State}, P u → P (fetchByte u).2 := fun hu => K.toKeptByExec.setPc (K.load _ _ hu) _
  unfold Machine.fetch
  dsimp only
  split
  · exact one h
  · exact one (one h)
  · exact one (one (one h))

theorem KeptByStep.finishStep (n : Nat) : P (finishStep n s) := by
  have h1 := K.clock s (n + s.stall) h
  have h2 := K.registers _ (clockDevices (n + s.stall) s).pc (clockDevices (n + s.stall) s).sp
    (clockDevices (n + s.stall) s).a (clockDevices (n + s.stall) s).x (clockDevices (n + s.stall) s).y
    (clockDevices (n + s.stall) s).p 0 h1
  exact K.cycles _ (n + s.stall) h2

end

/-- What a completed step is: powered, no fault, the fetched instruction completes, and the step's end follows. -/
theorem step_next {s t : State} (h : step s = .next t) :
    s.powered = true ∧ s.fault = none ∧
      ∃ u, exec (fetch (beginStep s)).1.instr (fetch (beginStep s)).2 = .next u ∧
        t = finishStep (fetch (beginStep s)).1.op.baseCycles u := by
  unfold step at h
  split at h
  · cases h
  · rename_i hp
    split at h
    · cases h
    · rename_i hf
      refine ⟨by simpa using hp, by simpa using hf, ?_⟩
      dsimp only at h
      split at h
      · rename_i u hu
        cases h
        exact ⟨u, hu, rfl⟩
      · cases h
      · cases h

/-- Every completed step keeps `P`. -/
theorem KeptByStep.step {P : State → Prop} (K : KeptByStep P) {s t : State} (h : P s) (ht : step s = .next t) : P t := by
  obtain ⟨-, -, u, hu, rfl⟩ := step_next ht
  exact K.finishStep (K.toKeptByExec.exec (K.fetch (K.beginStep h)) hu) _

end Sys2Proof.Machine
end

