-- ==== Sys2Proof/Laws/Handlers.lean ====
section
/-! SUPPORT. What handler entry does, said once as `HandlerEntered`: the three stack bytes are distinct, so each holds
what was pushed. -/

namespace Sys2Proof.Machine

/-- The three stack bytes an entry writes are different bytes. -/
theorem stack_bytes_distinct (sp : Byte) :
    sp.toNat ≠ (sp - 1).toNat ∧ sp.toNat ≠ (sp - 2).toNat ∧ (sp - 1).toNat ≠ (sp - 2).toNat := by
  revert sp; decide

/-- Handler entry through a vector in program ROM, with `extra` stall cycles. -/
theorem enterHandler_entered (brk : Bool) {vector : Word} (extra : Nat) {s : State} (hwf : s.ram.wf)
    (h1 : 0x8000 ≤ vector.toNat) (h2 : vector.toNat < 0xFFFF) :
    HandlerEntered brk vector extra s ((enterHandler brk vector s).addStall extra) := by
  obtain ⟨e1, e2, e3⟩ := stack_bytes_distinct s.sp
  rw [enterHandler_eq brk h1 h2]
  refine ⟨rfl, rfl, ?_, ?_, ?_, ?_, ?_, rfl, rfl⟩
  · intro f; cases f <;> simp [entryStatus, State.addStall]
  · simp only [State.addStall]
    rw [Memory.read_write_other _ (by omega), Memory.read_write_other _ (by omega), Memory.read_write_same hwf]
  · simp only [State.addStall]
    rw [Memory.read_write_other _ (by omega), Memory.read_write_same (Memory.write_wf hwf _ _)]
  · simp only [State.addStall]
    rw [Memory.read_write_same (Memory.write_wf (Memory.write_wf hwf _ _) _ _)]
    intro f; cases f <;> simp [entryStatus]
  · intro k a b c
    simp only [State.addStall]
    rw [Memory.read_write_other _ c, Memory.read_write_other _ b, Memory.read_write_other _ a]

end Sys2Proof.Machine
end

