-- ==== Sys2Proof/Laws/PerInstr.lean ====
section
/-! SUPPORT. The per-instruction family OpcodeTable: the opcode byte the encoder gives a well-formed instruction is the
slot of the decoder's table that holds its kind and mode. -/

namespace Sys2Proof.Laws

/-- The encoder's byte for `i` is the table's slot for its kind and mode. -/
def OpcodeTable.Statement (i : Instr) : Prop :=
  i.wf = true → ∃ b, i.opcode = some b ∧ (decodeOp b).kind = i.kind ∧ (decodeOp b).mode = i.mode

/-- The family's reason: in each mode a kind offers, its encoding and the table agree. -/
theorem opcode_slot (k : Kind) (m : Mode) (hk : k ≠ .invalid) (hm : k.modes.contains m = true) :
    ∃ b, k.opcode m = some b ∧ (decodeOp b).kind = k ∧ (decodeOp b).mode = m := by
  cases k <;> first
    | exact absurd rfl hk
    | (cases m <;> first
        | (exact absurd hm (by decide))
        | exact ⟨_, rfl, by decide, by decide⟩)

theorem undocumented_slot (b : Byte) (h : undocumentedBytes.contains b = true) :
    (decodeOp b).kind = .invalid ∧ (decodeOp b).mode = .immediate := by
  revert b; decide +kernel

/-- The family for an instruction that is not INVALID. -/
theorem OpcodeTable.documented {i : Instr} (hk : i.kind ≠ .invalid) (ho : i.opcode = i.kind.opcode i.mode) :
    OpcodeTable.Statement i := fun hwf => by
  rw [ho]
  exact opcode_slot i.kind i.mode hk (Bool.and_eq_true_iff.1 hwf).1

theorem OpcodeTable.adc (o : Operand) : OpcodeTable.Statement (.adc o) :=
  OpcodeTable.documented Kind.noConfusion rfl
theorem OpcodeTable.and (o : Operand) : OpcodeTable.Statement (.and o) :=
  OpcodeTable.documented Kind.noConfusion rfl
theorem OpcodeTable.asl (o : Operand) : OpcodeTable.Statement (.asl o) :=
  OpcodeTable.documented Kind.noConfusion rfl
theorem OpcodeTable.bcc (offset : Byte) : OpcodeTable.Statement (.bcc offset) :=
  OpcodeTable.documented Kind.noConfusion rfl
theorem OpcodeTable.bcs (offset : Byte) : OpcodeTable.Statement (.bcs offset) :=
  OpcodeTable.documented Kind.noConfusion rfl
theorem OpcodeTable.beq (offset : Byte) : OpcodeTable.Statement (.beq offset) :=
  OpcodeTable.documented Kind.noConfusion rfl
theorem OpcodeTable.bit (o : Operand) : OpcodeTable.Statement (.bit o) :=
  OpcodeTable.documented Kind.noConfusion rfl
theorem OpcodeTable.bmi (offset : Byte) : OpcodeTable.Statement (.bmi offset) :=
  OpcodeTable.documented Kind.noConfusion rfl
theorem OpcodeTable.bne (offset : Byte) : OpcodeTable.Statement (.bne offset) :=
  OpcodeTable.documented Kind.noConfusion rfl
theorem OpcodeTable.bpl (offset : Byte) : OpcodeTable.Statement (.bpl offset) :=
  OpcodeTable.documented Kind.noConfusion rfl
theorem OpcodeTable.brk : OpcodeTable.Statement (.brk) :=
  OpcodeTable.documented Kind.noConfusion rfl
theorem OpcodeTable.bvc (offset : Byte) : OpcodeTable.Statement (.bvc offset) :=
  OpcodeTable.documented Kind.noConfusion rfl
theorem OpcodeTable.bvs (offset : Byte) : OpcodeTable.Statement (.bvs offset) :=
  OpcodeTable.documented Kind.noConfusion rfl
theorem OpcodeTable.clc : OpcodeTable.Statement (.clc) :=
  OpcodeTable.documented Kind.noConfusion rfl
theorem OpcodeTable.cld : OpcodeTable.Statement (.cld) :=
  OpcodeTable.documented Kind.noConfusion rfl
theorem OpcodeTable.cli : OpcodeTable.Statement (.cli) :=
  OpcodeTable.documented Kind.noConfusion rfl
theorem OpcodeTable.clv : OpcodeTable.Statement (.clv) :=
  OpcodeTable.documented Kind.noConfusion rfl
theorem OpcodeTable.cmp (o : Operand) : OpcodeTable.Statement (.cmp o) :=
  OpcodeTable.documented Kind.noConfusion rfl
theorem OpcodeTable.cpx (o : Operand) : OpcodeTable.Statement (.cpx o) :=
  OpcodeTable.documented Kind.noConfusion rfl
theorem OpcodeTable.cpy (o : Operand) : OpcodeTable.Statement (.cpy o) :=
  OpcodeTable.documented Kind.noConfusion rfl
theorem OpcodeTable.dec (o : Operand) : OpcodeTable.Statement (.dec o) :=
  OpcodeTable.documented Kind.noConfusion rfl
theorem OpcodeTable.dex : OpcodeTable.Statement (.dex) :=
  OpcodeTable.documented Kind.noConfusion rfl
theorem OpcodeTable.dey : OpcodeTable.Statement (.dey) :=
  OpcodeTable.documented Kind.noConfusion rfl
theorem OpcodeTable.eor (o : Operand) : OpcodeTable.Statement (.eor o) :=
  OpcodeTable.documented Kind.noConfusion rfl
theorem OpcodeTable.inc (o : Operand) : OpcodeTable.Statement (.inc o) :=
  OpcodeTable.documented Kind.noConfusion rfl
theorem OpcodeTable.inx : OpcodeTable.Statement (.inx) :=
  OpcodeTable.documented Kind.noConfusion rfl
theorem OpcodeTable.iny : OpcodeTable.Statement (.iny) :=
  OpcodeTable.documented Kind.noConfusion rfl
theorem OpcodeTable.jmp (o : Operand) : OpcodeTable.Statement (.jmp o) :=
  OpcodeTable.documented Kind.noConfusion rfl
theorem OpcodeTable.jsr (target : Word) : OpcodeTable.Statement (.jsr target) :=
  OpcodeTable.documented Kind.noConfusion rfl
theorem OpcodeTable.lda (o : Operand) : OpcodeTable.Statement (.lda o) :=
  OpcodeTable.documented Kind.noConfusion rfl
theorem OpcodeTable.ldx (o : Operand) : OpcodeTable.Statement (.ldx o) :=
  OpcodeTable.documented Kind.noConfusion rfl
theorem OpcodeTable.ldy (o : Operand) : OpcodeTable.Statement (.ldy o) :=
  OpcodeTable.documented Kind.noConfusion rfl
theorem OpcodeTable.lsr (o : Operand) : OpcodeTable.Statement (.lsr o) :=
  OpcodeTable.documented Kind.noConfusion rfl
theorem OpcodeTable.nop : OpcodeTable.Statement (.nop) :=
  OpcodeTable.documented Kind.noConfusion rfl
theorem OpcodeTable.ora (o : Operand) : OpcodeTable.Statement (.ora o) :=
  OpcodeTable.documented Kind.noConfusion rfl
theorem OpcodeTable.pha : OpcodeTable.Statement (.pha) :=
  OpcodeTable.documented Kind.noConfusion rfl
theorem OpcodeTable.php : OpcodeTable.Statement (.php) :=
  OpcodeTable.documented Kind.noConfusion rfl
theorem OpcodeTable.pla : OpcodeTable.Statement (.pla) :=
  OpcodeTable.documented Kind.noConfusion rfl
theorem OpcodeTable.plp : OpcodeTable.Statement (.plp) :=
  OpcodeTable.documented Kind.noConfusion rfl
theorem OpcodeTable.rol (o : Operand) : OpcodeTable.Statement (.rol o) :=
  OpcodeTable.documented Kind.noConfusion rfl
theorem OpcodeTable.ror (o : Operand) : OpcodeTable.Statement (.ror o) :=
  OpcodeTable.documented Kind.noConfusion rfl
theorem OpcodeTable.rti : OpcodeTable.Statement (.rti) :=
  OpcodeTable.documented Kind.noConfusion rfl
theorem OpcodeTable.rts : OpcodeTable.Statement (.rts) :=
  OpcodeTable.documented Kind.noConfusion rfl
theorem OpcodeTable.sbc (o : Operand) : OpcodeTable.Statement (.sbc o) :=
  OpcodeTable.documented Kind.noConfusion rfl
theorem OpcodeTable.sec : OpcodeTable.Statement (.sec) :=
  OpcodeTable.documented Kind.noConfusion rfl
theorem OpcodeTable.sed : OpcodeTable.Statement (.sed) :=
  OpcodeTable.documented Kind.noConfusion rfl
theorem OpcodeTable.sei : OpcodeTable.Statement (.sei) :=
  OpcodeTable.documented Kind.noConfusion rfl
theorem OpcodeTable.sta (o : Operand) : OpcodeTable.Statement (.sta o) :=
  OpcodeTable.documented Kind.noConfusion rfl
theorem OpcodeTable.stx (o : Operand) : OpcodeTable.Statement (.stx o) :=
  OpcodeTable.documented Kind.noConfusion rfl
theorem OpcodeTable.sty (o : Operand) : OpcodeTable.Statement (.sty o) :=
  OpcodeTable.documented Kind.noConfusion rfl
theorem OpcodeTable.tax : OpcodeTable.Statement (.tax) :=
  OpcodeTable.documented Kind.noConfusion rfl
theorem OpcodeTable.tay : OpcodeTable.Statement (.tay) :=
  OpcodeTable.documented Kind.noConfusion rfl
theorem OpcodeTable.tsx : OpcodeTable.Statement (.tsx) :=
  OpcodeTable.documented Kind.noConfusion rfl
theorem OpcodeTable.txa : OpcodeTable.Statement (.txa) :=
  OpcodeTable.documented Kind.noConfusion rfl
theorem OpcodeTable.txs : OpcodeTable.Statement (.txs) :=
  OpcodeTable.documented Kind.noConfusion rfl
theorem OpcodeTable.tya : OpcodeTable.Statement (.tya) :=
  OpcodeTable.documented Kind.noConfusion rfl
theorem OpcodeTable.invalid (opcode : Byte) : OpcodeTable.Statement (.invalid opcode) := fun hwf =>
  have h := undocumented_slot opcode (Bool.and_eq_true_iff.1 hwf).2
  ⟨opcode, rfl, h.1, h.2⟩

end Sys2Proof.Laws
end

