-- ==== Sys2Proof/Laws/SameCore.lean ====
section
/-! SUPPORT. States that agree in what the core reads answer alike: every shared operation gives the same values on both
and keeps them agreeing. One lemma per operation, up to `exec`, the poll and the fetch. -/

namespace Sys2Proof.Machine

/-- What a step of the core does not read. -/
structure History where
  cycles : Nat
  frame : Nat
  ppuClocks : Nat
  ppuEvents : List PpuEvent
  apuClocks : Nat
  apuEvents : List ApuEvent

/-- The state with another history. -/
def State.withHistory (s : State) (h : History) : State :=
  { s with
    cycles := h.cycles
    ppu := { s.ppu with frame := h.frame, clocks := h.ppuClocks, events := h.ppuEvents }
    apu := { s.apu with clocks := h.apuClocks, events := h.apuEvents } }

/-- `t` is `s` with another history, and the frame counter is the same if `K`. -/
def Agree (K : Prop) (s t : State) : Prop := ∃ h, t = s.withHistory h ∧ (K → h.frame = s.ppu.frame)

theorem agree_iff {K : Prop} {s t : State} : Agree K s t ↔ SameCore s t ∧ (K → t.ppu.frame = s.ppu.frame) := by
  constructor
  · rintro ⟨h, rfl, hf⟩; exact ⟨rfl, hf⟩
  · rintro ⟨h, hf⟩
    exact ⟨⟨t.cycles, t.ppu.frame, t.ppu.clocks, t.ppu.events, t.apu.clocks, t.apu.events⟩, h, hf⟩

variable {K : Prop} {s t : State}

/-! ### Registers, devices -/

theorem Agree.setPc (a : Agree K s t) (v : Word) : Agree K (s.setPc v) (t.setPc v) := by
  obtain ⟨h, rfl, hf⟩ := a; exact ⟨h, rfl, hf⟩
theorem Agree.setSp (a : Agree K s t) (v : Byte) : Agree K (s.setSp v) (t.setSp v) := by
  obtain ⟨h, rfl, hf⟩ := a; exact ⟨h, rfl, hf⟩
theorem Agree.setA (a : Agree K s t) (v : Byte) : Agree K (s.setA v) (t.setA v) := by
  obtain ⟨h, rfl, hf⟩ := a; exact ⟨h, rfl, hf⟩
theorem Agree.setP (a : Agree K s t) (v : Byte) : Agree K (s.setP v) (t.setP v) := by
  obtain ⟨h, rfl, hf⟩ := a; exact ⟨h, rfl, hf⟩
theorem Agree.addStall (a : Agree K s t) (n : Nat) : Agree K (s.addStall n) (t.addStall n) := by
  obtain ⟨h, rfl, hf⟩ := a; exact ⟨h, rfl, hf⟩

/-- The registers, `stall` and the parameters are the same. -/
theorem Agree.same (a : Agree K s t) : t.pc = s.pc ∧ t.sp = s.sp ∧ t.a = s.a ∧ t.x = s.x ∧ t.y = s.y ∧ t.p = s.p ∧
    t.stall = s.stall ∧ t.params = s.params := by
  obtain ⟨h, rfl, -⟩ := a; exact ⟨rfl, rfl, rfl, rfl, rfl, rfl, rfl, rfl⟩

theorem Agree.setFlag (a : Agree K s t) (f : Flag) (b : Bool) : Agree K (s.setFlag f b) (t.setFlag f b) := by
  obtain ⟨h, rfl, hf⟩ := a; exact ⟨h, rfl, hf⟩

/-! ### The bus -/

theorem Agree.load (a : Agree K s t) (addr : Word) :
    (load addr t).1 = (load addr s).1 ∧ Agree K (load addr s).2 (load addr t).2 := by
  obtain ⟨h, rfl, hf⟩ := a
  unfold Machine.load
  split
  case h_2 i _ =>
    exact ⟨rfl, { h with ppuEvents := .read h.ppuClocks i (drawPpuRead s.inputs).1 :: h.ppuEvents }, rfl, hf⟩
  case h_6 i _ =>
    exact ⟨rfl, { h with apuEvents := .read h.apuClocks i (drawApuRead s.inputs).1 :: h.apuEvents }, rfl, hf⟩
  all_goals exact ⟨rfl, ⟨h, rfl, hf⟩⟩

theorem Agree.ppuWrite (a : Agree K s t) (i : BitVec 3) (v : Byte) : Agree K (ppuWrite i v s) (ppuWrite i v t) := by
  obtain ⟨h, rfl, hf⟩ := a; exact ⟨{ h with ppuEvents := .write h.ppuClocks i v :: h.ppuEvents }, rfl, hf⟩

theorem Agree.apuWrite (a : Agree K s t) (i : BitVec 5) (v : Byte) : Agree K (apuWrite i v s) (apuWrite i v t) := by
  obtain ⟨h, rfl, hf⟩ := a; exact ⟨{ h with apuEvents := .write h.apuClocks i v :: h.apuEvents }, rfl, hf⟩

theorem Agree.oamCopy (a : Agree K s t) (pg : Byte) (n : Nat) : Agree K (oamCopy pg n s) (oamCopy pg n t) := by
  induction n with
  | zero => exact a
  | succ n ih =>
    obtain ⟨h1, h2⟩ := ih.load (joinWord pg (BitVec.ofNat 8 n))
    show Agree K (Machine.ppuWrite 4 _ _) (Machine.ppuWrite 4 _ _)
    rw [h1]
    exact h2.ppuWrite _ _

theorem Agree.store (a : Agree K s t) (addr : Word) (v : Byte) : Agree K (store addr v s) (store addr v t) := by
  unfold Machine.store
  split
  case h_2 => exact a.ppuWrite _ _
  case h_3 => exact (a.oamCopy v 256).addStall _
  case h_5 => exact a.apuWrite _ _
  case h_6 => exact a.apuWrite _ _
  all_goals obtain ⟨h, rfl, hf⟩ := a; exact ⟨h, rfl, hf⟩

/-- Two answers are the same value with agreeing states. -/
def AgreeValue {α : Type} (K : Prop) (x y : α × State) : Prop := y.1 = x.1 ∧ Agree K x.2 y.2

theorem Agree.read16 (a : Agree K s t) (addr : Word) : AgreeValue K (read16 addr s) (read16 addr t) := by
  obtain ⟨h1, h2⟩ := a.load addr
  obtain ⟨h3, h4⟩ := h2.load (addr + 1)
  exact ⟨by simp only [Machine.read16, h1, h3], h4⟩

theorem Agree.read16Wrap (a : Agree K s t) (addr : Word) : AgreeValue K (read16Wrap addr s) (read16Wrap addr t) := by
  obtain ⟨h1, h2⟩ := a.load addr
  obtain ⟨h3, h4⟩ := h2.load (nextInPage addr)
  exact ⟨by simp only [Machine.read16Wrap, h1, h3], h4⟩

theorem Agree.push (a : Agree K s t) (v : Byte) : Agree K (push v s) (push v t) := by
  have h := a.store (stackAddr s.sp) v
  unfold Machine.push
  dsimp only
  rw [a.same.2.1, h.same.2.1]
  exact h.setSp _

theorem Agree.push16 (a : Agree K s t) (w : Word) : Agree K (push16 w s) (push16 w t) := (a.push _).push _

theorem Agree.pull (a : Agree K s t) : AgreeValue K (pull s) (pull t) := by
  unfold Machine.pull
  rw [a.same.2.1]
  exact (a.setSp _).load _

theorem Agree.pull16 (a : Agree K s t) : AgreeValue K (pull16 s) (pull16 t) := by
  obtain ⟨h1, h2⟩ := a.pull
  obtain ⟨h3, h4⟩ := h2.pull
  exact ⟨by simp only [Machine.pull16, h1, h3], h4⟩

theorem Agree.enterHandler (a : Agree K s t) (brk : Bool) (vector : Word) :
    Agree K (enterHandler brk vector s) (enterHandler brk vector t) := by
  have h1 := (a.setFlag .b brk).setFlag .u true
  have h2 := (h1.push16 ((s.setFlag .b brk).setFlag .u true).pc).push ((s.setFlag .b brk).setFlag .u true).p
  obtain ⟨h3, h4⟩ := (h2.setFlag .i true).read16 vector
  unfold Machine.enterHandler
  dsimp only
  rw [h1.same.1, h1.same.2.2.2.2.2.1, h3]
  exact h4.setPc _

theorem Agree.serviceInterrupt (a : Agree K s t) (vector : Word) :
    Agree K (serviceInterrupt vector s) (serviceInterrupt vector t) := by
  unfold Machine.serviceInterrupt
  rw [a.same.2.2.2.2.2.2.2]
  exact (a.enterHandler _ _).addStall _

theorem Agree.leaveHandler (a : Agree K s t) : Agree K (leaveHandler s) (leaveHandler t) := by
  obtain ⟨h1, h2⟩ := a.pull
  obtain ⟨h3, h4⟩ := (h2.setP (Machine.pull s).1).pull16
  unfold Machine.leaveHandler
  dsimp only
  rw [h1, h3]
  exact h4.setPc _

/-! ### Operands -/

theorem Agree.resolve (a : Agree K s t) (o : Operand) : AgreeValue K (resolve o s) (resolve o t) := by
  obtain ⟨-, -, -, hx, hy, -⟩ := a.same
  cases o with
  | ind w =>
    obtain ⟨h1, h2⟩ := a.read16Wrap w
    exact ⟨by simp only [Machine.resolve, h1], h2⟩
  | indX z =>
    obtain ⟨h1, h2⟩ := a.read16Wrap (zext16 (z + s.x))
    exact ⟨by simp only [Machine.resolve, hx, h1], by simpa only [Machine.resolve, hx] using h2⟩
  | indY z =>
    obtain ⟨h1, h2⟩ := a.read16Wrap (zext16 z)
    exact ⟨by simp only [Machine.resolve, hy, h1], h2⟩
  | _ => exact ⟨by simp only [Machine.resolve, hx, hy], a⟩

theorem Agree.loadRef (a : Agree K s t) (r : Ref) : AgreeValue K (loadRef r s) (loadRef r t) := by
  cases r with
  | acc => exact ⟨a.same.2.2.1, a⟩
  | imm v => exact ⟨rfl, a⟩
  | mem ea => exact a.load ea

theorem Agree.storeRef (a : Agree K s t) (r : Ref) (v : Byte) : Agree K (storeRef r v s) (storeRef r v t) := by
  cases r <;> first | exact a | exact a.setA v | exact a.store _ v

theorem Agree.readPlain (a : Agree K s t) (o : Operand) : AgreeValue K (readPlain o s) (readPlain o t) := by
  obtain ⟨h1, h2⟩ := a.resolve o
  unfold Machine.readPlain
  dsimp only
  rw [h1]
  exact h2.loadRef _

theorem Agree.readStalling (a : Agree K s t) (o : Operand) : AgreeValue K (readStalling o s) (readStalling o t) := by
  obtain ⟨h1, h2⟩ := a.readPlain o
  rw [readStalling_eq, readStalling_eq, (a.resolve o).1]
  exact ⟨h1, h2.addStall _⟩

theorem Agree.writeOperand (a : Agree K s t) (o : Operand) (v : Byte) :
    Agree K (writeOperand o v s) (writeOperand o v t) := by
  obtain ⟨h1, h2⟩ := a.resolve o
  unfold Machine.writeOperand
  dsimp only
  rw [h1]
  exact h2.storeRef _ v

theorem Agree.modifyOperand (a : Agree K s t) (o : Operand) (f : Byte → Byte) :
    AgreeValue K (modifyOperand o f s) (modifyOperand o f t) := by
  obtain ⟨h1, h2⟩ := a.resolve o
  obtain ⟨h3, h4⟩ := h2.loadRef (Machine.resolve o s).1.ref
  unfold Machine.modifyOperand
  dsimp only
  rw [h1, h3]
  exact ⟨rfl, h4.storeRef _ _⟩

/-! ### Instructions -/

/-- A function of the state that neither reads nor writes a history. -/
structure Plain (f : State → State) : Prop where
  history : ∀ s h, f (s.withHistory h) = (f s).withHistory h
  frame : ∀ s, (f s).ppu.frame = s.ppu.frame

theorem Agree.map (a : Agree K s t) {f : State → State} (p : Plain f) : Agree K (f s) (f t) := by
  obtain ⟨h, rfl, hf⟩ := a
  exact ⟨h, p.history s h, fun k => (hf k).trans (p.frame s).symm⟩

theorem AgreeValue.map {α : Type} {x y : α × State} (a : AgreeValue K x y) {f : α → State → State}
    (p : ∀ v, Plain (f v)) : Agree K (f x.1 x.2) (f y.1 y.2) := by
  rw [a.1]; exact a.2.map (p _)

theorem Plain.rfl {f : State → State} (h : ∀ s h, f (s.withHistory h) = (f s).withHistory h := by intros; rfl)
    (hf : ∀ s, (f s).ppu.frame = s.ppu.frame := by intros; rfl) : Plain f := ⟨h, hf⟩

theorem plain_branch (cond : State → Bool) (h : ∀ s h, cond (s.withHistory h) = cond s := by intros; rfl)
    (offset : Byte) : Plain fun s => branch (cond s) offset s where
  history s k := by
    rw [h]
    unfold branch
    dsimp only
    split
    · show State.setPc (if (page (s.pc + sext16 offset) != page s.pc) = true then _ else _) _ = _
      split <;> rfl
    · rfl
  frame s := by
    unfold branch
    dsimp only
    split
    · split <;> rfl
    · rfl

/-- Two outcomes of one kind, the next states agreeing. -/
def AgreeOutcome (K : Prop) : Host.Outcome State Fault Refusal → Host.Outcome State Fault Refusal → Prop
  | .next s, .next t => Agree K s t
  | .fault f, .fault g => f = g
  | .refused r, .refused q => r = q
  | _, _ => False

/-- Every instruction does the same on agreeing states. -/
theorem Agree.exec (a : Agree K s t) (i : Instr) : AgreeOutcome K (exec i s) (exec i t) := by
  cases i
  case jmp o =>
    obtain ⟨h1, h2⟩ := a.resolve o
    simp only [Machine.exec, execJmp, h1]
    split
    · exact h2.setPc _
    · exact h2
    · exact h2
  case invalid b =>
    simp only [Machine.exec, execInvalid]
    rw [a.same.1, a.same.2.2.2.2.2.2.2]
    split
    · rfl
    · exact a.setPc _
  case lda o => exact (a.readStalling o).map (f := fun v u => (u.setA v).setNZ v) fun _ => Plain.rfl
  case ldx o => exact (a.readStalling o).map (f := fun v u => (u.setX v).setNZ v) fun _ => Plain.rfl
  case ldy o => exact (a.readStalling o).map (f := fun v u => (u.setY v).setNZ v) fun _ => Plain.rfl
  case and o => exact (a.readStalling o).map (f := fun v u => (u.setA (u.a &&& v)).setNZ (u.a &&& v)) fun _ => Plain.rfl
  case ora o => exact (a.readStalling o).map (f := fun v u => (u.setA (u.a ||| v)).setNZ (u.a ||| v)) fun _ => Plain.rfl
  case eor o => exact (a.readStalling o).map (f := fun v u => (u.setA (u.a ^^^ v)).setNZ (u.a ^^^ v)) fun _ => Plain.rfl
  case adc o =>
    show Agree K _ _
    exact (a.readStalling o).map (f := fun v u => addToA v (adcOverflow u.a v (sumByte u.a v (u.flag .c))) u)
      fun _ => Plain.rfl
  case sbc o =>
    show Agree K _ _
    exact (a.readStalling o).map
      (f := fun v u => addToA (v ^^^ 0xFF) (sbcOverflow u.a v (sumByte u.a (v ^^^ 0xFF) (u.flag .c))) u) fun _ => Plain.rfl
  case cmp o => exact (a.readStalling o).map (f := fun v u => u.setP (putCompare u.p u.a v)) fun _ => Plain.rfl
  case cpx o => exact (a.readPlain o).map (f := fun v u => u.setP (putCompare u.p u.x v)) fun _ => Plain.rfl
  case cpy o => exact (a.readPlain o).map (f := fun v u => u.setP (putCompare u.p u.y v)) fun _ => Plain.rfl
  case bit o =>
    show Agree K _ _
    exact (a.readPlain o).map
      (f := fun v u => ((u.setFlag .z (u.a &&& v == 0)).setFlag .n (v.getLsbD 7)).setFlag .v (v.getLsbD 6)) fun _ => Plain.rfl
  case sta o => simp only [Machine.exec, execSta]; rw [a.same.2.2.1]; exact a.writeOperand o _
  case stx o => simp only [Machine.exec, execStx]; rw [a.same.2.2.2.1]; exact a.writeOperand o _
  case sty o => simp only [Machine.exec, execSty]; rw [a.same.2.2.2.2.1]; exact a.writeOperand o _
  case pha => simp only [Machine.exec, execPha]; rw [a.same.2.2.1]; exact a.push _
  case php =>
    have h := (a.setFlag .b true).setFlag .u true
    simp only [Machine.exec, execPhp]; rw [h.same.2.2.2.2.2.1]; exact h.push _
  case pla => exact a.pull.map (f := fun v u => (u.setA v).setNZ v) fun _ => Plain.rfl
  case plp => exact a.pull.map (f := fun v u => u.setP v) fun _ => Plain.rfl
  case jsr w => simp only [Machine.exec, execJsr]; rw [a.same.1]; exact (a.push16 _).setPc _
  case rts => exact a.pull16.map (f := fun v u => u.setPc (v + 1)) fun _ => Plain.rfl
  case rti => exact a.leaveHandler
  case brk => simp only [Machine.exec, execBrk]; rw [a.same.1]; exact (a.setPc _).enterHandler _ _
  case inc o =>
    show Agree K _ _
    exact (a.modifyOperand o _).map (f := fun v u => u.setNZ (v + 1)) fun _ => Plain.rfl
  case dec o =>
    show Agree K _ _
    exact (a.modifyOperand o _).map (f := fun v u => u.setNZ (v - 1)) fun _ => Plain.rfl
  case asl o =>
    show Agree K _ _
    exact (a.modifyOperand o _).map
      (f := fun v u => (u.setFlag .c (v.getLsbD 7)).setNZ (shiftLeft v)) fun _ => Plain.rfl
  case lsr o =>
    show Agree K _ _
    exact (a.modifyOperand o _).map
      (f := fun v u => (u.setFlag .c (v.getLsbD 0)).setNZ (shiftRight v)) fun _ => Plain.rfl
  case rol o =>
    simp only [Machine.exec, execRol, State.flag]
    rw [a.same.2.2.2.2.2.1]
    show Agree K _ _
    exact (a.modifyOperand o _).map
      (f := fun v u => (u.setFlag .c (v.getLsbD 7)).setNZ (rotateLeft (getFlag s.p .c) v)) fun _ => Plain.rfl
  case ror o =>
    simp only [Machine.exec, execRor, State.flag]
    rw [a.same.2.2.2.2.2.1]
    show Agree K _ _
    exact (a.modifyOperand o _).map
      (f := fun v u => (u.setFlag .c (v.getLsbD 0)).setNZ (rotateRight (getFlag s.p .c) v)) fun _ => Plain.rfl
  case bcc b => exact a.map (plain_branch (fun u => !u.flag .c) (offset := b))
  case bcs b => exact a.map (plain_branch (fun u => u.flag .c) (offset := b))
  case beq b => exact a.map (plain_branch (fun u => u.flag .z) (offset := b))
  case bmi b => exact a.map (plain_branch (fun u => u.flag .n) (offset := b))
  case bne b => exact a.map (plain_branch (fun u => !u.flag .z) (offset := b))
  case bpl b => exact a.map (plain_branch (fun u => !u.flag .n) (offset := b))
  case bvc b => exact a.map (plain_branch (fun u => !u.flag .v) (offset := b))
  case bvs b => exact a.map (plain_branch (fun u => u.flag .v) (offset := b))
  case tax => exact a.map (f := fun u => (u.setX u.a).setNZ u.a) Plain.rfl
  case tay => exact a.map (f := fun u => (u.setY u.a).setNZ u.a) Plain.rfl
  case tsx => exact a.map (f := fun u => (u.setX u.sp).setNZ u.sp) Plain.rfl
  case txa => exact a.map (f := fun u => (u.setA u.x).setNZ u.x) Plain.rfl
  case tya => exact a.map (f := fun u => (u.setA u.y).setNZ u.y) Plain.rfl
  case txs => exact a.map (f := fun u => u.setSp u.x) Plain.rfl
  case inx => exact a.map (f := fun u => (u.setX (u.x + 1)).setNZ (u.x + 1)) Plain.rfl
  case iny => exact a.map (f := fun u => (u.setY (u.y + 1)).setNZ (u.y + 1)) Plain.rfl
  case dex => exact a.map (f := fun u => (u.setX (u.x - 1)).setNZ (u.x - 1)) Plain.rfl
  case dey => exact a.map (f := fun u => (u.setY (u.y - 1)).setNZ (u.y - 1)) Plain.rfl
  case nop => exact a
  all_goals exact a.setFlag _ _

/-! ### The step -/

theorem Agree.interruptPoll (a : Agree K s t) : Agree K (interruptPoll s) (interruptPoll t) := by
  have flags : t.ppu.nmiFlag = s.ppu.nmiFlag := by obtain ⟨h, rfl, -⟩ := a; rfl
  have h1 : Agree K (pollNmi s) (pollNmi t) := by
    unfold pollNmi
    rw [flags]
    split
    · exact (a.map (f := fun u => u.setPpu { u.ppu with nmiFlag := false }) Plain.rfl).serviceInterrupt _
    · exact a
  have irq : (pollNmi t).ppu.irqFlag = (pollNmi s).ppu.irqFlag ∧ (pollNmi t).apu.irqFlag = (pollNmi s).apu.irqFlag := by
    obtain ⟨h, e, -⟩ := h1; rw [e]; exact ⟨rfl, rfl⟩
  have h2 := h1.map (f := clearIrqFlags) Plain.rfl
  have key : ∀ masked : Bool, Agree K
      (if masked then clearIrqFlags (pollNmi s) else Machine.serviceInterrupt irqVector (clearIrqFlags (pollNmi s)))
      (if masked then clearIrqFlags (pollNmi t) else Machine.serviceInterrupt irqVector (clearIrqFlags (pollNmi t))) :=
    fun masked => by
      cases masked
      · exact h2.serviceInterrupt _
      · exact h2
  unfold Machine.interruptPoll pollIrq
  simp only [State.flag, irq.1, irq.2, h2.same.2.2.2.2.2.1, h2.same.2.2.2.2.2.2.2, a.same.2.2.2.2.2.1]
  split
  · exact key _
  · exact h1

theorem Agree.beginStep (a : Agree K s t) : Agree K (beginStep s) (beginStep t) :=
  (a.map (f := fun u => { u with stall := 0 }) Plain.rfl).interruptPoll

theorem Agree.fetchByte (a : Agree K s t) : AgreeValue K (fetchByte s) (fetchByte t) := by
  unfold Machine.fetchByte
  dsimp only
  rw [a.same.1]
  exact ⟨(a.load _).1, (a.load _).2.setPc _⟩

theorem Agree.fetch (a : Agree K s t) : AgreeValue K (fetch s) (fetch t) := by
  obtain ⟨h1, h2⟩ := a.fetchByte
  obtain ⟨h3, h4⟩ := h2.fetchByte
  obtain ⟨h5, h6⟩ := h4.fetchByte
  unfold Machine.fetch
  simp only [h1, h3, h5]
  split
  · exact ⟨rfl, h2⟩
  · exact ⟨rfl, h4⟩
  · exact ⟨rfl, h6⟩

theorem Agree.ppuAct (a : Agree K s t) (act : PpuAction) : Agree K (ppuAct act s) (ppuAct act t) := by
  cases act with
  | advanceFrame =>
    obtain ⟨h, rfl, hf⟩ := a
    exact ⟨{ h with frame := h.frame + 1 }, rfl, fun k => congrArg (· + 1) (hf k)⟩
  | readChr addr =>
    obtain ⟨h, rfl, hf⟩ := a
    exact ⟨{ h with ppuEvents := .chrRead h.ppuClocks addr (chrByte addr s) :: h.ppuEvents }, rfl, hf⟩
  | readMirroring =>
    obtain ⟨h, rfl, hf⟩ := a
    exact ⟨{ h with ppuEvents := (PpuEvent.mirroringRead h.ppuClocks s.mapper.hasMirroring
      (s.mapper.mirroringType s.params.dummyMirroring)) :: h.ppuEvents }, rfl, hf⟩
  | writeChr addr v =>
    obtain ⟨h, rfl, hf⟩ := a
    simp only [Machine.ppuAct, chrWrite, show (s.withHistory h).chrRam = s.chrRam from rfl]
    split <;> exact ⟨h, rfl, hf⟩
  | putNmi b => exact a.map (f := fun u => u.setPpu { u.ppu with nmiFlag := b }) Plain.rfl
  | putIrq b => exact a.map (f := fun u => u.setPpu { u.ppu with irqFlag := b }) Plain.rfl
  | driveIrqCounter => exact a.map (f := driveIrqCounter) Plain.rfl

theorem Agree.ppuActs (acts : List PpuAction) : ∀ {s t : State}, Agree K s t → Agree K (ppuActs acts s) (ppuActs acts t) := by
  induction acts with
  | nil => exact id
  | cons act rest ih => exact fun a => ih (a.ppuAct act)

theorem Agree.ppuClock (a : Agree K s t) : Agree K (ppuClock s) (ppuClock t) := by
  have h1 : Agree K (s.setPpu { s.ppu with clocks := s.ppu.clocks + 1 })
      (t.setPpu { t.ppu with clocks := t.ppu.clocks + 1 }) := by
    obtain ⟨h, rfl, hf⟩ := a
    exact ⟨{ h with ppuClocks := h.ppuClocks + 1 }, rfl, hf⟩
  have inputs : t.inputs = s.inputs := by obtain ⟨h, rfl, -⟩ := a; rfl
  unfold Machine.ppuClock
  simp only [inputs]
  split
  · exact h1
  · exact Agree.ppuActs _ (h1.map (f := fun u => u.setInputs _) Plain.rfl)

theorem Agree.deliverSample (a : Agree K s t) (addr : Word) : Agree K (deliverSample addr s) (deliverSample addr t) := by
  obtain ⟨h1, h, e, hf⟩ := a.load addr
  unfold Machine.deliverSample
  dsimp only
  rw [h1, e]
  exact ⟨{ h with apuEvents := .sample h.apuClocks addr (Machine.load addr s).1 :: h.apuEvents }, rfl, hf⟩

theorem Agree.apuClock (a : Agree K s t) : Agree K (apuClock s) (apuClock t) := by
  have h1 : Agree K (s.setApu { s.apu with clocks := s.apu.clocks + 1 })
      (t.setApu { t.apu with clocks := t.apu.clocks + 1 }) := by
    obtain ⟨h, rfl, hf⟩ := a
    exact ⟨{ h with apuClocks := h.apuClocks + 1 }, rfl, hf⟩
  have inputs : t.inputs = s.inputs := by obtain ⟨h, rfl, -⟩ := a; rfl
  unfold Machine.apuClock
  simp only [inputs]
  split
  · exact h1
  · rename_i tick rest _
    have h2 := h1.map (f := fun u => (u.setInputs { s.inputs with apuClocks := rest }).setApu
      { u.apu with irqFlag := tick.putIrq.getD u.apu.irqFlag }) Plain.rfl
    split
    · exact h2
    · exact h2.deliverSample _

/-- Applying a function that keeps two states agreeing any number of times keeps them agreeing. -/
theorem Agree.iterate {f : State → State} (hf : ∀ {s t : State}, Agree K s t → Agree K (f s) (f t)) :
    ∀ (n : Nat) {s t : State}, Agree K s t → Agree K (iterate f n s) (iterate f n t)
  | 0, _, _, a => a
  | n + 1, _, _, a => Agree.iterate hf n (hf a)

theorem Agree.clockCycle (a : Agree K s t) : Agree K (clockCycle s) (clockCycle t) := by
  unfold Machine.clockCycle
  rw [a.same.2.2.2.2.2.2.2]
  exact (Agree.iterate Agree.ppuClock _ a).apuClock

/-- The end of a step: agreeing states again, and the same cycle count. -/
theorem Agree.finishStep (a : Agree K s t) (n : Nat) :
    Agree K (finishStep n s) (finishStep n t) ∧ (finishStep n t).cycles = (finishStep n s).cycles := by
  have h := Agree.iterate Agree.clockCycle (n + s.stall) a
  unfold Machine.finishStep clockDevices
  dsimp only
  rw [a.same.2.2.2.2.2.2.1]
  obtain ⟨k, e, hf⟩ := h
  rw [e]
  exact ⟨⟨{ k with cycles := n + s.stall }, rfl, hf⟩, rfl⟩

end Sys2Proof.Machine
end

