-- ==== Sys2Proof/Laws/Words.lean ====
section
/-! SUPPORT. The address arithmetic in numbers: bytes of a word, pages, sign extension. -/

namespace Sys2Proof.Machine

@[simp] theorem toNat_joinWord (hi lo : Byte) : (joinWord hi lo).toNat = hi.toNat * 256 + lo.toNat := by
  have := lo.isLt
  simp only [joinWord, BitVec.toNat_append]
  rw [← Nat.shiftLeft_add_eq_or_of_lt (by simpa using this), Nat.shiftLeft_eq]

theorem joinWord_bytes (w : Word) : joinWord (hiByte w) (loByte w) = w := by
  apply BitVec.eq_of_toNat_eq
  have := w.isLt
  simp only [toNat_joinWord, hiByte, loByte, BitVec.extractLsb'_toNat, Nat.shiftRight_eq_div_pow]
  omega

@[simp] theorem hiByte_joinWord (hi lo : Byte) : hiByte (joinWord hi lo) = hi := by
  apply BitVec.eq_of_toNat_eq
  have := hi.isLt; have := lo.isLt
  simp only [hiByte, BitVec.extractLsb'_toNat, toNat_joinWord, Nat.shiftRight_eq_div_pow]
  omega

@[simp] theorem loByte_joinWord (hi lo : Byte) : loByte (joinWord hi lo) = lo := by
  apply BitVec.eq_of_toNat_eq
  have := hi.isLt; have := lo.isLt
  simp only [loByte, BitVec.extractLsb'_toNat, toNat_joinWord, Nat.shiftRight_eq_div_pow]
  omega

@[simp] theorem toNat_loByte (w : Word) : (loByte w).toNat = w.toNat % 256 := by
  simp [loByte, BitVec.extractLsb'_toNat]

/-- The page of an address is its high byte (00_scope.md R17). -/
theorem toNat_page (a : Word) : (page a).toNat = a.toNat / 256 * 256 := by
  have : page a = (a >>> 8) <<< 8 := by
    apply BitVec.eq_of_getLsbD_eq
    intro i hi
    simp only [page, BitVec.getLsbD_and, BitVec.getLsbD_shiftLeft, BitVec.getLsbD_ushiftRight]
    interval_cases i <;> simp [BitVec.getLsbD] <;> intro _ <;> decide
  rw [this]
  have := a.isLt
  simp [BitVec.toNat_shiftLeft, BitVec.toNat_ushiftRight, Nat.shiftRight_eq_div_pow, Nat.shiftLeft_eq]
  omega

/-- Two addresses are in one page exactly when their quotients by 256 agree. -/
theorem page_bne (a b : Word) : (page a != page b) = decide (a.toNat / 256 ≠ b.toNat / 256) := by
  by_cases h : a.toNat / 256 = b.toNat / 256
  · have : page a = page b := BitVec.eq_of_toNat_eq (by rw [toNat_page, toNat_page, h])
    simp [this, h]
  · have : page a ≠ page b := fun e => h (by
      have := congrArg BitVec.toNat e
      rw [toNat_page, toNat_page] at this
      omega)
    simp [this, h]

/-- The address after `a` in its own page (00_scope.md R13). -/
theorem toNat_nextInPage (a : Word) : (nextInPage a).toNat = a.toNat / 256 * 256 + (a.toNat + 1) % 256 := by
  have h1 : nextInPage a = page a + zext16 (loByte (a + 1)) := by
    apply BitVec.eq_of_toNat_eq
    have hl : (zext16 (loByte (a + 1))).toNat < 2 ^ 8 := by
      have := (loByte (a + 1)).isLt
      simp [zext16, BitVec.toNat_setWidth]; omega
    have ha := a.isLt
    rw [nextInPage, BitVec.toNat_or, BitVec.toNat_add, toNat_page,
      show a.toNat / 256 * 256 = (a.toNat / 256) <<< 8 by simp [Nat.shiftLeft_eq],
      ← Nat.shiftLeft_add_eq_or_of_lt hl, Nat.shiftLeft_eq]
    omega
  have h2 : (zext16 (loByte (a + 1))).toNat = (a.toNat + 1) % 256 := by
    have := a.isLt
    simp [zext16, BitVec.toNat_setWidth, BitVec.toNat_add]; omega
  have := a.isLt
  rw [h1, BitVec.toNat_add, toNat_page, h2]
  omega

/-- A word plus a zero-extended byte. -/
theorem toNat_add_zext16 (a : Word) (b : Byte) : (a + zext16 b).toNat = (a.toNat + b.toNat) % 65536 := by
  have : (zext16 b).toNat = b.toNat := by
    have := b.isLt
    simp [zext16, BitVec.toNat_setWidth]; omega
  rw [BitVec.toNat_add, this]

/-- A word plus a sign-extended byte, modulo 65 536. -/
theorem toNat_add_sext16 (a : Word) (b : Byte) : ((a + sext16 b).toNat : Int) = (a.toNat + b.toInt) % 65536 := by
  have h1 : ((sext16 b).toNat : Int) = b.toInt % 65536 := by revert b; decide
  rw [BitVec.toNat_add]
  push_cast
  rw [h1]
  omega

end Sys2Proof.Machine
end

