-- ==== Sys2Proof/Laws/SaveState.lean ====
section
/-! SUPPORT. The save-state codec field by field: each parser gives back what its encoder wrote, whatever follows. -/

namespace Sys2Proof.Machine

theorem parseU16_u16Bytes (w : Word) (rest : List Byte) : parseU16 (u16Bytes w ++ rest) = some (w, rest) := by
  simp only [u16Bytes, List.cons_append, List.nil_append, parseU16, joinWord_bytes]

theorem join_u32Bytes (v : BitVec 32) :
    v.extractLsb' 24 8 ++ v.extractLsb' 16 8 ++ v.extractLsb' 8 8 ++ v.extractLsb' 0 8 = v := by
  apply BitVec.eq_of_getLsbD_eq
  intro i hi
  simp only [BitVec.getLsbD_append, BitVec.getLsbD_extractLsb']
  split_ifs <;> (rw [decide_eq_true (by omega), Bool.true_and]; congr 1; omega)

theorem parseU32_u32Bytes (v : BitVec 32) (rest : List Byte) : parseU32 (u32Bytes v ++ rest) = some (v, rest) := by
  simp only [u32Bytes, List.cons_append, List.nil_append, parseU32, join_u32Bytes]

theorem parseBytes_append (bytes rest : List Byte) {n : Nat} (h : bytes.length = n) :
    parseBytes n (bytes ++ rest) = some (bytes, rest) := by
  subst h
  simp [parseBytes]

theorem parseBlob_blobBytes (b rest : List Byte) (h : b.length < 2 ^ 32) :
    parseBlob (blobBytes b ++ rest) = some (b, rest) := by
  simp only [parseBlob, blobBytes, List.append_assoc, parseU32_u32Bytes, Option.bind_eq_bind, Option.bind_some]
  exact parseBytes_append b rest (by simp only [BitVec.toNat_ofNat]; omega)

theorem parseBool_boolByte (b : Bool) (rest : List Byte) : parseBool (boolByte b :: rest) = some (b, rest) := by
  cases b <;> rfl

theorem parseAtMost_byte {n k : Nat} (hn : n ≤ 255) (h : k ≤ n) (rest : List Byte) :
    parseAtMost n (BitVec.ofNat 8 k :: rest) = some (k, rest) := by
  have : (BitVec.ofNat 8 k).toNat = k := by simp only [BitVec.toNat_ofNat]; omega
  simp only [parseAtMost, this, if_pos h]

theorem parseField_byte {w : Nat} (hw : w ≤ 8) (v : BitVec w) (rest : List Byte) :
    parseField w (v.setWidth 8 :: rest) = some (v, rest) := by
  have h2 : 2 ^ w ≤ 2 ^ 8 := Nat.pow_le_pow_right (by omega) hw
  have hv := v.isLt
  have : (v.setWidth 8).toNat = v.toNat := by rw [BitVec.toNat_setWidth]; exact Nat.mod_eq_of_lt (by omega)
  simp only [parseField, this, if_pos hv]
  congr 2
  apply BitVec.eq_of_toNat_eq
  rw [BitVec.toNat_setWidth, this]
  exact Nat.mod_eq_of_lt hv

theorem toBytes_length (m : Memory) (n : Nat) : (m.toBytes n).length = n := by simp [Memory.toBytes]

/-- The version matches, the fields parse and nothing is left: the codec accepts (80_host_and_savestate.md R585). -/
theorem decodeSave_of_parseSave {params : Params} {rest : List Byte} {s : SaveState}
    (h : parseSave params.fme7MapperId params.saveStateVersion rest = some (s, [])) :
    decodeSave params (u32Bytes params.saveStateVersion ++ rest) = .ok s := by
  simp only [decodeSave, parseU32_u32Bytes, h, ne_eq, not_true_eq_false, if_false]

end Sys2Proof.Machine
end

