-- ==== Sys2Proof/Laws/Session.lean ====
section
/-! SUPPORT. Lemmas about the host's operations between steps: power-on, reset and input. -/

namespace Sys2Proof.Machine

/-- `State.reset` is power-on of the blank cartridge (70_reset_and_hazards.md R520). -/
theorem reset_eq_powerOn : State.reset = powerOn Params.default Cart.blank .nrom := by
  decide +kernel

/-- Power-on is `powerOnBefore` with `PC` from the RESET vector and `powered` set: the vector is read in program ROM,
whose loads have no side effect. -/
theorem powerOn_eq (params : Params) (cart : Cart) (m : Mapper) :
    powerOn params cart m = { powerOnBefore params cart m with
      pc := joinWord (cart.prg.read (m.map cart.prg16 0xFFFD)) (cart.prg.read (m.map cart.prg16 0xFFFC))
      powered := true } := by
  unfold powerOn
  simp only
  rw [read16_prg (by decide) (by decide)]
  rfl

/-- Reset of a powered session as one record update. -/
theorem resetSession_eq (ppu : Ppu) (apu : Apu) {s : State} (h : s.powered = true) :
    resetSession ppu apu s = some { s with
      ppu := ppu
      apu := apu
      sp := s.sp - 3
      p := putFlag s.p .i true
      pc := joinWord (s.prgByte 0xFFFD) (s.prgByte 0xFFFC)
      stall := 0 } := by
  simp only [resetSession, h, if_true]
  rw [read16_prg (by decide) (by decide)]
  simp only [State.setPc, State.setSp, State.setFlag, State.setP, State.prgByte, resetVector, h]
  rfl

/-- `buttons` with one bit written, bit by bit. -/
theorem setButton_getLsbD (buttons : Byte) (button : Button) (held : Bool) {k : Nat} (hk : k < 8) :
    (setButton buttons button held).getLsbD k = if k = button.bit then held else buttons.getLsbD k := by
  have one : ∀ n < 8, ((1#8) <<< n).getLsbD k = decide (k = n) := by
    revert k; decide
  have hb : button.bit < 8 := by cases button <;> decide
  unfold setButton
  split <;> rename_i h
  · rw [BitVec.getLsbD_or, one _ hb, h]
    by_cases e : k = button.bit <;> simp [e]
  · rw [BitVec.getLsbD_and, BitVec.getLsbD_not, one _ hb, eq_false_of_ne_true h]
    by_cases e : k = button.bit <;> simp [e, hk, hb]

/-- One button event leaves everything but `buttons`. -/
theorem applyButton_eq (e : ButtonEvent) (s : State) :
    applyButton e s = { s with
      joy1 := { s.joy1 with buttons := (applyButton e s).joy1.buttons }
      joy2 := { s.joy2 with buttons := (applyButton e s).joy2.buttons } } := by
  unfold applyButton
  split <;> rfl

/-- Input leaves everything but `buttons`. -/
theorem applyInput_eq (events : List ButtonEvent) (s : State) :
    applyInput events s = { s with
      joy1 := { s.joy1 with buttons := (applyInput events s).joy1.buttons }
      joy2 := { s.joy2 with buttons := (applyInput events s).joy2.buttons } } := by
  induction events generalizing s with
  | nil => rfl
  | cons e rest ih =>
    show applyInput rest (applyButton e s) = _
    conv_lhs => rw [ih]
    simp only [applyInput, applyButton]
    split <;> rfl

/-- A completed host step is a completed step. -/
theorem stepSession_ran {s t : State} {c : Nat} : stepSession s = .ran c t ↔ step s = .next t ∧ c = t.cycles := by
  unfold stepSession
  split <;> simp_all
  constructor
  · rintro ⟨rfl, rfl⟩; exact ⟨rfl, rfl⟩
  · rintro ⟨rfl, rfl⟩; exact ⟨rfl, rfl⟩

end Sys2Proof.Machine
end

