-- ==== Sys2Proof/Tests/Slice0.lean ====
section
/-! SUPPORT. Tests: the WellFormed smoke, every documented opcode's word, one step for each instruction, the devices, the
mappers, the host's operations, and a witness for each statement that has hypotheses. Expected values are those of
95_test_vectors.md (the ids in the docstrings) or of the rule a docstring names. -/

namespace Sys2Proof.Machine.Tests

set_option Elab.async false

/-! ### WellFormed: each check refuses an ill-formed term -/

/-- The operand check: one mode of each kind that its rule does not list. -/
theorem test_wf_refuses_modes : ([.adc .acc, .and (.zpY 0x10), .asl (.imm 0x10), .bit (.imm 0x10), .cmp .acc, .cpx (.zpX 0x10),
    .cpy (.absX 0x1234), .dec .acc, .eor (.ind 0x1234), .inc (.absY 0x1234), .jmp (.zp 0x10), .lda (.zpY 0x10),
    .ldx (.zpX 0x10), .ldy (.zpY 0x10), .lsr (.absY 0x1234), .ora .acc, .rol (.zpY 0x10), .ror (.indX 0x10),
    .sbc (.ind 0x1234), .sta (.imm 0x10), .stx (.zpX 0x10), .sty (.absX 0x1234)] : List Instr).all (fun i => !i.modeOk && !i.wf) =
    true := by decide

/-- The INVALID check: a documented byte is no INVALID term. -/
theorem test_wf_refuses_documented_byte :
    (Instr.invalid 0xEA).byteOk = false ∧ (Instr.invalid 0xEA).wf = false ∧ (Instr.invalid 0x02).wf = true := by decide

/-! ### Decoding: words written out from the "Encoding" lines, with their base cycles -/

/-- The word decodes to the instruction with nothing left, has the base cycle count, and is the instruction's encoding. -/
def word (bytes : List Byte) (i : Instr) (cycles : Nat) : Bool :=
  (match decode bytes with
    | .ok (j, []) => j == i
    | _ => false) && (decodeOp (bytes.headD 0)).baseCycles == cycles && encode i == bytes



/-- R320 to R325. -/
theorem test_decode_loads_stores : (
    [word [0xA9, 0x34] (.lda (.imm 0x34)) 2, word [0xA5, 0x34] (.lda (.zp 0x34)) 3,
     word [0xB5, 0x34] (.lda (.zpX 0x34)) 4, word [0xAD, 0x34, 0x12] (.lda (.abs 0x1234)) 4,
     word [0xBD, 0x34, 0x12] (.lda (.absX 0x1234)) 4, word [0xB9, 0x34, 0x12] (.lda (.absY 0x1234)) 4,
     word [0xA1, 0x34] (.lda (.indX 0x34)) 6, word [0xB1, 0x34] (.lda (.indY 0x34)) 5,
     word [0xA2, 0x34] (.ldx (.imm 0x34)) 2, word [0xA6, 0x34] (.ldx (.zp 0x34)) 3,
     word [0xB6, 0x34] (.ldx (.zpY 0x34)) 4, word [0xAE, 0x34, 0x12] (.ldx (.abs 0x1234)) 4,
     word [0xBE, 0x34, 0x12] (.ldx (.absY 0x1234)) 4, word [0xA0, 0x34] (.ldy (.imm 0x34)) 2,
     word [0xA4, 0x34] (.ldy (.zp 0x34)) 3, word [0xB4, 0x34] (.ldy (.zpX 0x34)) 4] ++
    [word [0xAC, 0x34, 0x12] (.ldy (.abs 0x1234)) 4, word [0xBC, 0x34, 0x12] (.ldy (.absX 0x1234)) 4,
     word [0x85, 0x34] (.sta (.zp 0x34)) 3, word [0x95, 0x34] (.sta (.zpX 0x34)) 4,
     word [0x8D, 0x34, 0x12] (.sta (.abs 0x1234)) 4, word [0x9D, 0x34, 0x12] (.sta (.absX 0x1234)) 5,
     word [0x99, 0x34, 0x12] (.sta (.absY 0x1234)) 5, word [0x81, 0x34] (.sta (.indX 0x34)) 6,
     word [0x91, 0x34] (.sta (.indY 0x34)) 6, word [0x86, 0x34] (.stx (.zp 0x34)) 3,
     word [0x96, 0x34] (.stx (.zpY 0x34)) 4, word [0x8E, 0x34, 0x12] (.stx (.abs 0x1234)) 4,
     word [0x84, 0x34] (.sty (.zp 0x34)) 3, word [0x94, 0x34] (.sty (.zpX 0x34)) 4,
     word [0x8C, 0x34, 0x12] (.sty (.abs 0x1234)) 4]).all id = true := by decide +kernel

/-- R330 to R343. -/
theorem test_decode_transfers_stack : (
    [word [0xAA] .tax 2, word [0xA8] .tay 2,
     word [0xBA] .tsx 2, word [0x8A] .txa 2,
     word [0x9A] .txs 2, word [0x98] .tya 2,
     word [0x48] .pha 3, word [0x08] .php 3,
     word [0x68] .pla 4, word [0x28] .plp 4]).all id = true := by decide +kernel

/-- R360 to R365. -/
theorem test_decode_add_logic : (
    [word [0x69, 0x34] (.adc (.imm 0x34)) 2, word [0x65, 0x34] (.adc (.zp 0x34)) 3,
     word [0x75, 0x34] (.adc (.zpX 0x34)) 4, word [0x6D, 0x34, 0x12] (.adc (.abs 0x1234)) 4,
     word [0x7D, 0x34, 0x12] (.adc (.absX 0x1234)) 4, word [0x79, 0x34, 0x12] (.adc (.absY 0x1234)) 4,
     word [0x61, 0x34] (.adc (.indX 0x34)) 6, word [0x71, 0x34] (.adc (.indY 0x34)) 5,
     word [0xE9, 0x34] (.sbc (.imm 0x34)) 2, word [0xE5, 0x34] (.sbc (.zp 0x34)) 3,
     word [0xF5, 0x34] (.sbc (.zpX 0x34)) 4, word [0xED, 0x34, 0x12] (.sbc (.abs 0x1234)) 4,
     word [0xFD, 0x34, 0x12] (.sbc (.absX 0x1234)) 4, word [0xF9, 0x34, 0x12] (.sbc (.absY 0x1234)) 4,
     word [0xE1, 0x34] (.sbc (.indX 0x34)) 6, word [0xF1, 0x34] (.sbc (.indY 0x34)) 5] ++
    [word [0x29, 0x34] (.and (.imm 0x34)) 2, word [0x25, 0x34] (.and (.zp 0x34)) 3,
     word [0x35, 0x34] (.and (.zpX 0x34)) 4, word [0x2D, 0x34, 0x12] (.and (.abs 0x1234)) 4,
     word [0x3D, 0x34, 0x12] (.and (.absX 0x1234)) 4, word [0x39, 0x34, 0x12] (.and (.absY 0x1234)) 4,
     word [0x21, 0x34] (.and (.indX 0x34)) 6, word [0x31, 0x34] (.and (.indY 0x34)) 5,
     word [0x09, 0x34] (.ora (.imm 0x34)) 2, word [0x05, 0x34] (.ora (.zp 0x34)) 3,
     word [0x15, 0x34] (.ora (.zpX 0x34)) 4, word [0x0D, 0x34, 0x12] (.ora (.abs 0x1234)) 4,
     word [0x1D, 0x34, 0x12] (.ora (.absX 0x1234)) 4, word [0x19, 0x34, 0x12] (.ora (.absY 0x1234)) 4,
     word [0x01, 0x34] (.ora (.indX 0x34)) 6, word [0x11, 0x34] (.ora (.indY 0x34)) 5] ++
    [word [0x49, 0x34] (.eor (.imm 0x34)) 2, word [0x45, 0x34] (.eor (.zp 0x34)) 3,
     word [0x55, 0x34] (.eor (.zpX 0x34)) 4, word [0x4D, 0x34, 0x12] (.eor (.abs 0x1234)) 4,
     word [0x5D, 0x34, 0x12] (.eor (.absX 0x1234)) 4, word [0x59, 0x34, 0x12] (.eor (.absY 0x1234)) 4,
     word [0x41, 0x34] (.eor (.indX 0x34)) 6, word [0x51, 0x34] (.eor (.indY 0x34)) 5,
     word [0x24, 0x34] (.bit (.zp 0x34)) 3, word [0x2C, 0x34, 0x12] (.bit (.abs 0x1234)) 4]).all id = true := by decide +kernel

/-- R366 to R368. -/
theorem test_decode_compare : (
    [word [0xC9, 0x34] (.cmp (.imm 0x34)) 2, word [0xC5, 0x34] (.cmp (.zp 0x34)) 3,
     word [0xD5, 0x34] (.cmp (.zpX 0x34)) 4, word [0xCD, 0x34, 0x12] (.cmp (.abs 0x1234)) 4,
     word [0xDD, 0x34, 0x12] (.cmp (.absX 0x1234)) 4, word [0xD9, 0x34, 0x12] (.cmp (.absY 0x1234)) 4,
     word [0xC1, 0x34] (.cmp (.indX 0x34)) 6, word [0xD1, 0x34] (.cmp (.indY 0x34)) 5,
     word [0xE0, 0x34] (.cpx (.imm 0x34)) 2, word [0xE4, 0x34] (.cpx (.zp 0x34)) 3,
     word [0xEC, 0x34, 0x12] (.cpx (.abs 0x1234)) 4, word [0xC0, 0x34] (.cpy (.imm 0x34)) 2,
     word [0xC4, 0x34] (.cpy (.zp 0x34)) 3, word [0xCC, 0x34, 0x12] (.cpy (.abs 0x1234)) 4]).all id = true := by decide +kernel

/-- R370 to R375. -/
theorem test_decode_count : (
    [word [0xE6, 0x34] (.inc (.zp 0x34)) 5, word [0xF6, 0x34] (.inc (.zpX 0x34)) 6,
     word [0xEE, 0x34, 0x12] (.inc (.abs 0x1234)) 6, word [0xFE, 0x34, 0x12] (.inc (.absX 0x1234)) 7,
     word [0xC6, 0x34] (.dec (.zp 0x34)) 5, word [0xD6, 0x34] (.dec (.zpX 0x34)) 6,
     word [0xCE, 0x34, 0x12] (.dec (.abs 0x1234)) 6, word [0xDE, 0x34, 0x12] (.dec (.absX 0x1234)) 7,
     word [0xE8] .inx 2, word [0xC8] .iny 2,
     word [0xCA] .dex 2, word [0x88] .dey 2]).all id = true := by decide +kernel

/-- R376 to R379. -/
theorem test_decode_shift : (
    [word [0x0A] (.asl .acc) 2, word [0x06, 0x34] (.asl (.zp 0x34)) 5,
     word [0x16, 0x34] (.asl (.zpX 0x34)) 6, word [0x0E, 0x34, 0x12] (.asl (.abs 0x1234)) 6,
     word [0x1E, 0x34, 0x12] (.asl (.absX 0x1234)) 7, word [0x4A] (.lsr .acc) 2,
     word [0x46, 0x34] (.lsr (.zp 0x34)) 5, word [0x56, 0x34] (.lsr (.zpX 0x34)) 6,
     word [0x4E, 0x34, 0x12] (.lsr (.abs 0x1234)) 6, word [0x5E, 0x34, 0x12] (.lsr (.absX 0x1234)) 7,
     word [0x2A] (.rol .acc) 2, word [0x26, 0x34] (.rol (.zp 0x34)) 5,
     word [0x36, 0x34] (.rol (.zpX 0x34)) 6, word [0x2E, 0x34, 0x12] (.rol (.abs 0x1234)) 6,
     word [0x3E, 0x34, 0x12] (.rol (.absX 0x1234)) 7, word [0x6A] (.ror .acc) 2] ++
    [word [0x66, 0x34] (.ror (.zp 0x34)) 5, word [0x76, 0x34] (.ror (.zpX 0x34)) 6,
     word [0x6E, 0x34, 0x12] (.ror (.abs 0x1234)) 6, word [0x7E, 0x34, 0x12] (.ror (.absX 0x1234)) 7]).all id = true := by decide +kernel

/-- R420 to R424, R440. -/
theorem test_decode_control : (
    [word [0x4C, 0x34, 0x12] (.jmp (.abs 0x1234)) 3, word [0x6C, 0x34, 0x12] (.jmp (.ind 0x1234)) 5,
     word [0x20, 0x34, 0x12] (.jsr 0x1234) 6, word [0x60] .rts 6,
     word [0x40] .rti 6, word [0x00] .brk 7]).all id = true := by decide +kernel

/-- R430 to R437. -/
theorem test_decode_flags : (
    [word [0x18] .clc 2, word [0xD8] .cld 2,
     word [0x58] .cli 2, word [0xB8] .clv 2,
     word [0x38] .sec 2, word [0xF8] .sed 2,
     word [0x78] .sei 2, word [0xEA] .nop 2]).all id = true := by decide +kernel

/-- R446 to R453. -/
theorem test_decode_branches : (
    [word [0x90, 0x34] (.bcc 0x34) 2, word [0xB0, 0x34] (.bcs 0x34) 2,
     word [0xF0, 0x34] (.beq 0x34) 2, word [0x30, 0x34] (.bmi 0x34) 2,
     word [0xD0, 0x34] (.bne 0x34) 2, word [0x10, 0x34] (.bpl 0x34) 2,
     word [0x50, 0x34] (.bvc 0x34) 2, word [0x70, 0x34] (.bvs 0x34) 2]).all id = true := by decide +kernel

/-- The 105 bytes of 30_encoding.md R262, alone and with bytes after them. -/
theorem test_decode_invalid : undocumentedBytes.length = 105 ∧ undocumentedBytes.all (fun b =>
    (match decode [b, 0x12] with
      | .ok (j, [0x12]) => j == .invalid b
      | _ => false) && decodeOp b == undocumented && encode (.invalid b) == [b]) = true := by decide +kernel

/-- An empty input and one that ends inside an instruction are rejected by name (30_encoding.md R243). -/
theorem test_decode_rejects :
    (match decode [] with | .error e => some e | .ok _ => none) = some .noBytes ∧
    (match decode [0xAD, 0x00] with | .error e => some e | .ok _ => none) = some (.operandMissing 0xAD) := by decide +kernel

/-- A table word reaches the decoder with its operand bytes zero. -/
theorem test_table_word :
    decodeTableWord 8 0xEA = some .nop ∧ decodeTableWord 8 0xBD = some (.lda (.absX 0x0000)) ∧
    decodeTableWord 8 0x02 = some (.invalid 0x02) := by decide +kernel

/-- A placed table word is what the first step after reset runs: INX (41_arith_logic.md R372). -/
theorem test_fetch_word : (match step (State.reset.withFetchWord 8 0xE8) with
    | .next t => t.x == 0x01 && t.cycles == 2 && t.pc == State.reset.pc + 1
    | _ => false) = true := by decide +kernel

/-! ### One step: the vectors of 95_test_vectors.md -/

/-- PRG ROM of the vectors' cartridge (95_test_vectors.md section 0), one 16 KiB bank, as far as a vector reads it: NOP
at the handler addresses 0x9000 and 0xA000, the vectors NMI 0x9000, RESET 0x8000, IRQ/BRK 0xA000, and `code` at `pc`. -/
def testPrg (pc : Word) (code : List Byte) : Memory :=
  let base := [(0x1000, (0xEA : Byte)), (0x2000, 0xEA), (0x3FFB, 0x90), (0x3FFD, 0x80), (0x3FFF, 0xA0)]
  (code.zipIdx.map fun (v, k) => ((pc.toNat + k) % 16384, v)).foldl (fun m (c : Host.Cell) => m.write c.1 c.2) base

/-- A vector's start state: power-on, then the registers and RAM bytes of its `start` column. -/
def testState (pc : Word) (code : List Byte) (a x y sp p : Byte) (ram : List Host.Cell) : State :=
  { State.reset with
    pc := pc, a := a, x := x, y := y, sp := sp, p := p
    ram := ram.foldl (fun m c => m.write c.1 c.2) []
    cart := { Cart.blank with prg := testPrg pc code } }

/-- The step completes with these registers, cycle count and RAM bytes. -/
def runsTo (s : State) (a x y sp p : Byte) (pc : Word) (cycles : Nat) (ram : List Host.Cell) : Bool :=
  match step s with
  | .next t => decide (t.a = a ∧ t.x = x ∧ t.y = y ∧ t.sp = sp ∧ t.p = p ∧ t.pc = pc ∧ t.cycles = cycles) &&
      ram.all fun c => t.ram.read c.1 == c.2
  | _ => false

/-- AM1, AM15. -/
theorem test_mode_immediate_relative :
    (runsTo (testState 0x8000 [0xA9, 0x42] 0x00 0x00 0x00 0xFD 0x24 []) 0x42 0x00 0x00 0xFD 0x24 0x8002 2 [] &&
     runsTo (testState 0x80F0 [0xD0, 0x7F] 0x00 0x00 0x00 0xFD 0x24 []) 0x00 0x00 0x00 0xFD 0x24 0x8171 4 []) = true := by
  decide +kernel

/-- AM2, AM3, AM4, AM16. -/
theorem test_mode_zero_page :
    (runsTo (testState 0x8000 [0xA5, 0x10] 0x00 0x00 0x00 0xFD 0x24 [(0x0010, 0x99)]) 0x99 0x00 0x00 0xFD 0xA4 0x8002 3 [] &&
     runsTo (testState 0x8000 [0xB5, 0xFF] 0x00 0x01 0x00 0xFD 0x24 [(0x0000, 0x11)]) 0x11 0x01 0x00 0xFD 0x24 0x8002 4 [] &&
     runsTo (testState 0x8000 [0xB6, 0xFF] 0x00 0x00 0x02 0xFD 0x24 [(0x0001, 0x22)]) 0x00 0x22 0x02 0xFD 0x24 0x8002 4 [] &&
     runsTo (testState 0x8000 [0x95, 0x80] 0x99 0x90 0x00 0xFD 0x24 []) 0x99 0x90 0x00 0xFD 0x24 0x8002 4 [(0x0010, 0x99)]) = true := by
  decide +kernel

/-- AM5, AM6, AM8, AM9, AM17. -/
theorem test_mode_absolute :
    (runsTo (testState 0x8000 [0xAD, 0x34, 0x12] 0x00 0x00 0x00 0xFD 0x24 [(0x0234, 0x77)]) 0x77 0x00 0x00 0xFD 0x24 0x8003 4 [] &&
     runsTo (testState 0x8000 [0xBD, 0xF0, 0x02] 0x00 0x20 0x00 0xFD 0x24 [(0x0310, 0x05)]) 0x05 0x20 0x00 0xFD 0x24 0x8003 5 [] &&
     runsTo (testState 0x8000 [0x9D, 0xF0, 0x02] 0x5A 0x20 0x00 0xFD 0x24 []) 0x5A 0x20 0x00 0xFD 0x24 0x8003 5 [(0x0310, 0x5A)] &&
     runsTo (testState 0x8000 [0xBD, 0xFF, 0xFF] 0x00 0x01 0x00 0xFD 0x24 [(0x0000, 0x33)]) 0x33 0x01 0x00 0xFD 0x24 0x8003 5 [] &&
     runsTo (testState 0x8000 [0xB9, 0x80, 0x02] 0x00 0x00 0x80 0xFD 0x24 [(0x0300, 0x01)]) 0x01 0x00 0x80 0xFD 0x24 0x8003 5 []) = true := by
  decide +kernel

/-- AM10, AM11, AM12, AM13. -/
theorem test_mode_indirect :
    (runsTo (testState 0x8000 [0xA1, 0xFF] 0x00 0x00 0x00 0xFD 0x24 [(0x00FF, 0x00), (0x0000, 0x03), (0x0300, 0x44)]) 0x44 0x00 0x00 0xFD 0x24 0x8002 6 [] &&
     runsTo (testState 0x8000 [0xB1, 0x10] 0x00 0x00 0x20 0xFD 0x24 [(0x0010, 0xF0), (0x0011, 0x02), (0x0310, 0x55)]) 0x55 0x00 0x20 0xFD 0x24 0x8002 6 [] &&
     runsTo (testState 0x8000 [0xB1, 0xFF] 0x00 0x00 0x01 0xFD 0x24 [(0x00FF, 0x00), (0x0000, 0x03), (0x0301, 0x66)]) 0x66 0x00 0x01 0xFD 0x24 0x8002 5 [] &&
     runsTo (testState 0x8000 [0x6C, 0xFF, 0x02] 0x00 0x00 0x00 0xFD 0x24 [(0x02FF, 0x34), (0x0200, 0x12), (0x0300, 0x56)]) 0x00 0x00 0x00 0xFD 0x24 0x1234 5 []) = true := by
  decide +kernel

/-- LS1, LS24. -/
theorem test_lda :
    (runsTo (testState 0x8000 [0xA9, 0x00] 0x55 0x00 0x00 0xFD 0x24 []) 0x00 0x00 0x00 0xFD 0x26 0x8002 2 [] &&
     runsTo (testState 0x8000 [0xAD, 0x00, 0xC0] 0x00 0x00 0x00 0xFD 0x24 []) 0xAD 0x00 0x00 0xFD 0xA4 0x8003 4 []) = true := by
  decide +kernel

/-- LS3. -/
theorem test_ldx :
    (runsTo (testState 0x8000 [0xA2, 0xFF] 0x00 0x00 0x00 0xFD 0x24 []) 0x00 0xFF 0x00 0xFD 0xA4 0x8002 2 []) = true := by
  decide +kernel

/-- LS4. -/
theorem test_ldy :
    (runsTo (testState 0x8000 [0xA0, 0x01] 0x00 0x00 0x00 0xFD 0xA6 []) 0x00 0x00 0x01 0xFD 0x24 0x8002 2 []) = true := by
  decide +kernel

/-- LS5, LS23. -/
theorem test_sta :
    (runsTo (testState 0x8000 [0x8D, 0x01, 0x08] 0x42 0x00 0x00 0xFD 0x24 []) 0x42 0x00 0x00 0xFD 0x24 0x8003 4 [(0x0001, 0x42)] &&
     runsTo (testState 0x8000 [0x8D, 0x20, 0x40] 0x9C 0x00 0x00 0xFD 0x24 []) 0x9C 0x00 0x00 0xFD 0x24 0x8003 4 [(0x4020, 0x9C)]) = true := by
  decide +kernel

/-- LS7. -/
theorem test_stx :
    (runsTo (testState 0x8000 [0x96, 0xF0] 0x00 0x07 0x21 0xFD 0x24 []) 0x00 0x07 0x21 0xFD 0x24 0x8002 4 [(0x0011, 0x07)]) = true := by
  decide +kernel

/-- LS8. -/
theorem test_sty :
    (runsTo (testState 0x8000 [0x8C, 0x00, 0x60] 0x00 0x00 0x3C 0xFD 0x24 []) 0x00 0x00 0x3C 0xFD 0x24 0x8003 4 [(0x6000, 0x3C)]) = true := by
  decide +kernel

/-- LS9. -/
theorem test_tax :
    (runsTo (testState 0x8000 [0xAA] 0x80 0x00 0x00 0xFD 0x24 []) 0x80 0x80 0x00 0xFD 0xA4 0x8001 2 []) = true := by
  decide +kernel

/-- LS10. -/
theorem test_tay :
    (runsTo (testState 0x8000 [0xA8] 0x00 0x00 0x05 0xFD 0x24 []) 0x00 0x00 0x00 0xFD 0x26 0x8001 2 []) = true := by
  decide +kernel

/-- LS11. -/
theorem test_tsx :
    (runsTo (testState 0x8000 [0xBA] 0x00 0x00 0x00 0x00 0x24 []) 0x00 0x00 0x00 0x00 0x26 0x8001 2 []) = true := by
  decide +kernel

/-- LS12. -/
theorem test_txa :
    (runsTo (testState 0x8000 [0x8A] 0xFF 0x7F 0x00 0xFD 0x24 []) 0x7F 0x7F 0x00 0xFD 0x24 0x8001 2 []) = true := by
  decide +kernel

/-- LS13. -/
theorem test_txs :
    (runsTo (testState 0x8000 [0x9A] 0x00 0x00 0x00 0xFD 0x24 []) 0x00 0x00 0x00 0x00 0x24 0x8001 2 []) = true := by
  decide +kernel

/-- LS14. -/
theorem test_tya :
    (runsTo (testState 0x8000 [0x98] 0x00 0x00 0xC0 0xFD 0x24 []) 0xC0 0x00 0xC0 0xFD 0xA4 0x8001 2 []) = true := by
  decide +kernel

/-- LS15. -/
theorem test_pha :
    (runsTo (testState 0x8000 [0x48] 0x5A 0x00 0x00 0x00 0x24 []) 0x5A 0x00 0x00 0xFF 0x24 0x8001 3 [(0x0100, 0x5A)]) = true := by
  decide +kernel

/-- LS16. -/
theorem test_pla :
    (runsTo (testState 0x8000 [0x68] 0x00 0x00 0x00 0xFF 0x24 [(0x0100, 0x80)]) 0x80 0x00 0x00 0x00 0xA4 0x8001 4 []) = true := by
  decide +kernel

/-- LS17. -/
theorem test_php :
    (runsTo (testState 0x8000 [0x08] 0x00 0x00 0x00 0xFD 0x00 []) 0x00 0x00 0x00 0xFC 0x30 0x8001 3 [(0x01FD, 0x30)]) = true := by
  decide +kernel

/-- LS18. -/
theorem test_plp :
    (runsTo (testState 0x8000 [0x28] 0x00 0x00 0x00 0xFC 0x34 [(0x01FD, 0xC3)]) 0x00 0x00 0x00 0xFD 0xC3 0x8001 4 []) = true := by
  decide +kernel

/-- ADC-7F+01+0, ADC-D. -/
theorem test_adc :
    (runsTo (testState 0x8000 [0x69, 0x01] 0x7F 0x00 0x00 0xFD 0x24 []) 0x80 0x00 0x00 0xFD 0xE4 0x8002 2 [] &&
     runsTo (testState 0x8000 [0x69, 0x05] 0x09 0x00 0x00 0xFD 0x2C []) 0x0E 0x00 0x00 0xFD 0x2C 0x8002 2 []) = true := by
  decide +kernel

/-- SBC-50-30-C0, SBC-80-01-C1. -/
theorem test_sbc :
    (runsTo (testState 0x8000 [0xE9, 0x30] 0x50 0x00 0x00 0xFD 0x24 []) 0x1F 0x00 0x00 0xFD 0x25 0x8002 2 [] &&
     runsTo (testState 0x8000 [0xE9, 0x01] 0x80 0x00 0x00 0xFD 0x25 []) 0x7F 0x00 0x00 0xFD 0x65 0x8002 2 []) = true := by
  decide +kernel

/-- AND1, AND2. -/
theorem test_and :
    (runsTo (testState 0x8000 [0x29, 0x0F] 0xF0 0x00 0x00 0xFD 0xE5 []) 0x00 0x00 0x00 0xFD 0x67 0x8002 2 [] &&
     runsTo (testState 0x8000 [0x29, 0xC0] 0x81 0x00 0x00 0xFD 0x24 []) 0x80 0x00 0x00 0xFD 0xA4 0x8002 2 []) = true := by
  decide +kernel

/-- ORA1. -/
theorem test_ora :
    (runsTo (testState 0x8000 [0x09, 0x01] 0x80 0x00 0x00 0xFD 0x24 []) 0x81 0x00 0x00 0xFD 0xA4 0x8002 2 []) = true := by
  decide +kernel

/-- EOR2. -/
theorem test_eor :
    (runsTo (testState 0x8000 [0x49, 0x80] 0x01 0x00 0x00 0xFD 0x24 []) 0x81 0x00 0x00 0xFD 0xA4 0x8002 2 []) = true := by
  decide +kernel

/-- BIT1, BIT2. -/
theorem test_bit :
    (runsTo (testState 0x8000 [0x24, 0x10] 0x01 0x00 0x00 0xFD 0x24 [(0x0010, 0xC0)]) 0x01 0x00 0x00 0xFD 0xE6 0x8002 3 [] &&
     runsTo (testState 0x8000 [0x2C, 0x00, 0x03] 0xFF 0x00 0x00 0xFD 0xE4 [(0x0300, 0x3F)]) 0xFF 0x00 0x00 0xFD 0x24 0x8003 4 []) = true := by
  decide +kernel

/-- CMP-10-20, CMP-10-10. -/
theorem test_cmp :
    (runsTo (testState 0x8000 [0xC9, 0x20] 0x10 0x00 0x00 0xFD 0x24 []) 0x10 0x00 0x00 0xFD 0xA4 0x8002 2 [] &&
     runsTo (testState 0x8000 [0xC9, 0x10] 0x10 0x00 0x00 0xFD 0x24 []) 0x10 0x00 0x00 0xFD 0x27 0x8002 2 []) = true := by
  decide +kernel

/-- CPX1, CPX2. -/
theorem test_cpx :
    (runsTo (testState 0x8000 [0xE0, 0x06] 0x00 0x05 0x00 0xFD 0x24 []) 0x00 0x05 0x00 0xFD 0xA4 0x8002 2 [] &&
     runsTo (testState 0x8000 [0xE4, 0x10] 0x00 0x40 0x00 0xFD 0x24 [(0x0010, 0x40)]) 0x00 0x40 0x00 0xFD 0x27 0x8002 3 []) = true := by
  decide +kernel

/-- CPY1. -/
theorem test_cpy :
    (runsTo (testState 0x8000 [0xC0, 0x00] 0x00 0x00 0x80 0xFD 0x24 []) 0x00 0x00 0x80 0xFD 0xA5 0x8002 2 []) = true := by
  decide +kernel

/-- INC1, INC2. -/
theorem test_inc :
    (runsTo (testState 0x8000 [0xE6, 0x10] 0x00 0x00 0x00 0xFD 0x24 [(0x0010, 0xFF)]) 0x00 0x00 0x00 0xFD 0x26 0x8002 5 [(0x0010, 0x00)] &&
     runsTo (testState 0x8000 [0xFE, 0xFF, 0x02] 0x00 0x01 0x00 0xFD 0x24 [(0x0300, 0x7F)]) 0x00 0x01 0x00 0xFD 0xA4 0x8003 7 [(0x0300, 0x80)]) = true := by
  decide +kernel

/-- DEC1, DEC2. -/
theorem test_dec :
    (runsTo (testState 0x8000 [0xC6, 0x10] 0x00 0x00 0x00 0xFD 0x24 [(0x0010, 0x00)]) 0x00 0x00 0x00 0xFD 0xA4 0x8002 5 [(0x0010, 0xFF)] &&
     runsTo (testState 0x8000 [0xD6, 0xFF] 0x00 0x02 0x00 0xFD 0x24 [(0x0001, 0x01)]) 0x00 0x02 0x00 0xFD 0x26 0x8002 6 [(0x0001, 0x00)]) = true := by
  decide +kernel

/-- INX. -/
theorem test_inx :
    (runsTo (testState 0x8000 [0xE8] 0x00 0xFF 0x00 0xFD 0x24 []) 0x00 0x00 0x00 0xFD 0x26 0x8001 2 []) = true := by
  decide +kernel

/-- INY. -/
theorem test_iny :
    (runsTo (testState 0x8000 [0xC8] 0x00 0x00 0x7F 0xFD 0x24 []) 0x00 0x00 0x80 0xFD 0xA4 0x8001 2 []) = true := by
  decide +kernel

/-- DEX. -/
theorem test_dex :
    (runsTo (testState 0x8000 [0xCA] 0x00 0x00 0x00 0xFD 0x24 []) 0x00 0xFF 0x00 0xFD 0xA4 0x8001 2 []) = true := by
  decide +kernel

/-- DEY. -/
theorem test_dey :
    (runsTo (testState 0x8000 [0x88] 0x00 0x00 0x01 0xFD 0x24 []) 0x00 0x00 0x00 0xFD 0x26 0x8001 2 []) = true := by
  decide +kernel

/-- ASL-A, ASL-m. -/
theorem test_asl :
    (runsTo (testState 0x8000 [0x0A] 0x81 0x00 0x00 0xFD 0x24 []) 0x02 0x00 0x00 0xFD 0x25 0x8001 2 [] &&
     runsTo (testState 0x8000 [0x06, 0x10] 0x00 0x00 0x00 0xFD 0x24 [(0x0010, 0x80)]) 0x00 0x00 0x00 0xFD 0x27 0x8002 5 [(0x0010, 0x00)]) = true := by
  decide +kernel

/-- LSR-A, LSR-m. -/
theorem test_lsr :
    (runsTo (testState 0x8000 [0x4A] 0x01 0x00 0x00 0xFD 0x24 []) 0x00 0x00 0x00 0xFD 0x27 0x8001 2 [] &&
     runsTo (testState 0x8000 [0x4E, 0x00, 0x03] 0x00 0x00 0x00 0xFD 0x24 [(0x0300, 0xFE)]) 0x00 0x00 0x00 0xFD 0x24 0x8003 6 [(0x0300, 0x7F)]) = true := by
  decide +kernel

/-- ROL-A, ROL-C. -/
theorem test_rol :
    (runsTo (testState 0x8000 [0x2A] 0x80 0x00 0x00 0xFD 0x24 []) 0x00 0x00 0x00 0xFD 0x27 0x8001 2 [] &&
     runsTo (testState 0x8000 [0x2A] 0x40 0x00 0x00 0xFD 0x25 []) 0x81 0x00 0x00 0xFD 0xA4 0x8001 2 []) = true := by
  decide +kernel

/-- ROR-A, ROR-m. -/
theorem test_ror :
    (runsTo (testState 0x8000 [0x6A] 0x01 0x00 0x00 0xFD 0x25 []) 0x80 0x00 0x00 0xFD 0xA5 0x8001 2 [] &&
     runsTo (testState 0x8000 [0x66, 0x10] 0x00 0x00 0x00 0xFD 0x24 [(0x0010, 0x01)]) 0x00 0x00 0x00 0xFD 0x27 0x8002 5 [(0x0010, 0x00)]) = true := by
  decide +kernel

/-- JMP1, JMP2. -/
theorem test_jmp :
    (runsTo (testState 0x8000 [0x4C, 0x00, 0xC0] 0x00 0x00 0x00 0xFD 0x24 []) 0x00 0x00 0x00 0xFD 0x24 0xC000 3 [] &&
     runsTo (testState 0x8000 [0x6C, 0x00, 0x03] 0x00 0x00 0x00 0xFD 0x24 [(0x0300, 0xCD), (0x0301, 0xAB)]) 0x00 0x00 0x00 0xFD 0x24 0xABCD 5 []) = true := by
  decide +kernel

/-- JSR1, JSR2. -/
theorem test_jsr :
    (runsTo (testState 0x8000 [0x20, 0x00, 0x90] 0x00 0x00 0x00 0xFD 0x24 []) 0x00 0x00 0x00 0xFB 0x24 0x9000 6 [(0x01FD, 0x80), (0x01FC, 0x02)] &&
     runsTo (testState 0x8000 [0x20, 0x00, 0x90] 0x00 0x00 0x00 0x00 0x24 []) 0x00 0x00 0x00 0xFE 0x24 0x9000 6 [(0x0100, 0x80), (0x01FF, 0x02)]) = true := by
  decide +kernel

/-- RTS1, RTS2. -/
theorem test_rts :
    (runsTo (testState 0x8000 [0x60] 0x00 0x00 0x00 0xFB 0x24 [(0x01FC, 0x02), (0x01FD, 0x80)]) 0x00 0x00 0x00 0xFD 0x24 0x8003 6 [] &&
     runsTo (testState 0x8000 [0x60] 0x00 0x00 0x00 0xFB 0x24 [(0x01FC, 0xFF), (0x01FD, 0xFF)]) 0x00 0x00 0x00 0xFD 0x24 0x0000 6 []) = true := by
  decide +kernel

/-- RTI1. -/
theorem test_rti :
    (runsTo (testState 0x8000 [0x40] 0x00 0x00 0x00 0xFA 0x34 [(0x01FB, 0x21), (0x01FC, 0x00), (0x01FD, 0x80)]) 0x00 0x00 0x00 0xFD 0x21 0x8000 6 []) = true := by
  decide +kernel

/-- CLC. -/
theorem test_clc :
    (runsTo (testState 0x8000 [0x18] 0x00 0x00 0x00 0xFD 0x25 []) 0x00 0x00 0x00 0xFD 0x24 0x8001 2 []) = true := by
  decide +kernel

/-- CLD. -/
theorem test_cld :
    (runsTo (testState 0x8000 [0xD8] 0x00 0x00 0x00 0xFD 0x2C []) 0x00 0x00 0x00 0xFD 0x24 0x8001 2 []) = true := by
  decide +kernel

/-- CLI. -/
theorem test_cli :
    (runsTo (testState 0x8000 [0x58] 0x00 0x00 0x00 0xFD 0x24 []) 0x00 0x00 0x00 0xFD 0x20 0x8001 2 []) = true := by
  decide +kernel

/-- CLV. -/
theorem test_clv :
    (runsTo (testState 0x8000 [0xB8] 0x00 0x00 0x00 0xFD 0x64 []) 0x00 0x00 0x00 0xFD 0x24 0x8001 2 []) = true := by
  decide +kernel

/-- SEC. -/
theorem test_sec :
    (runsTo (testState 0x8000 [0x38] 0x00 0x00 0x00 0xFD 0x24 []) 0x00 0x00 0x00 0xFD 0x25 0x8001 2 []) = true := by
  decide +kernel

/-- SED. -/
theorem test_sed :
    (runsTo (testState 0x8000 [0xF8] 0x00 0x00 0x00 0xFD 0x24 []) 0x00 0x00 0x00 0xFD 0x2C 0x8001 2 []) = true := by
  decide +kernel

/-- SEI. -/
theorem test_sei :
    (runsTo (testState 0x8000 [0x78] 0x00 0x00 0x00 0xFD 0x20 []) 0x00 0x00 0x00 0xFD 0x24 0x8001 2 []) = true := by
  decide +kernel

/-- NOP. -/
theorem test_nop :
    (runsTo (testState 0x8000 [0xEA] 0x00 0x00 0x00 0xFD 0xFF []) 0x00 0x00 0x00 0xFD 0xFF 0x8001 2 []) = true := by
  decide +kernel

/-- BRK2. -/
theorem test_brk :
    (runsTo (testState 0x8000 [0x00, 0xFF] 0x00 0x00 0x00 0xFD 0xC7 []) 0x00 0x00 0x00 0xFA 0xF7 0xA000 7 [(0x01FB, 0xF7)]) = true := by
  decide +kernel

/-- BCC-t, BCC-n. -/
theorem test_bcc :
    (runsTo (testState 0x8000 [0x90, 0x10] 0x00 0x00 0x00 0xFD 0x24 []) 0x00 0x00 0x00 0xFD 0x24 0x8012 3 [] &&
     runsTo (testState 0x8000 [0x90, 0x10] 0x00 0x00 0x00 0xFD 0x25 []) 0x00 0x00 0x00 0xFD 0x25 0x8002 2 []) = true := by
  decide +kernel

/-- BCS-t, BCS-n. -/
theorem test_bcs :
    (runsTo (testState 0x8000 [0xB0, 0x10] 0x00 0x00 0x00 0xFD 0x25 []) 0x00 0x00 0x00 0xFD 0x25 0x8012 3 [] &&
     runsTo (testState 0x8000 [0xB0, 0x10] 0x00 0x00 0x00 0xFD 0x24 []) 0x00 0x00 0x00 0xFD 0x24 0x8002 2 []) = true := by
  decide +kernel

/-- BEQ-t, BEQ-n. -/
theorem test_beq :
    (runsTo (testState 0x8000 [0xF0, 0x00] 0x00 0x00 0x00 0xFD 0x26 []) 0x00 0x00 0x00 0xFD 0x26 0x8002 3 [] &&
     runsTo (testState 0x8000 [0xF0, 0x00] 0x00 0x00 0x00 0xFD 0x24 []) 0x00 0x00 0x00 0xFD 0x24 0x8002 2 []) = true := by
  decide +kernel

/-- BMI-t, BMI-x. -/
theorem test_bmi :
    (runsTo (testState 0x8010 [0x30, 0xF0] 0x00 0x00 0x00 0xFD 0xA4 []) 0x00 0x00 0x00 0xFD 0xA4 0x8002 3 [] &&
     runsTo (testState 0x8000 [0x30, 0xF0] 0x00 0x00 0x00 0xFD 0xA4 []) 0x00 0x00 0x00 0xFD 0xA4 0x7FF2 4 []) = true := by
  decide +kernel

/-- BNE-t, BNE-x. -/
theorem test_bne :
    (runsTo (testState 0x8005 [0xD0, 0xFB] 0x00 0x00 0x00 0xFD 0x24 []) 0x00 0x00 0x00 0xFD 0x24 0x8002 3 [] &&
     runsTo (testState 0x80FD [0xD0, 0x10] 0x00 0x00 0x00 0xFD 0x24 []) 0x00 0x00 0x00 0xFD 0x24 0x810F 4 []) = true := by
  decide +kernel

/-- BPL-t, BPL-n. -/
theorem test_bpl :
    (runsTo (testState 0x8000 [0x10, 0x7F] 0x00 0x00 0x00 0xFD 0x24 []) 0x00 0x00 0x00 0xFD 0x24 0x8081 3 [] &&
     runsTo (testState 0x8000 [0x10, 0x7F] 0x00 0x00 0x00 0xFD 0xA4 []) 0x00 0x00 0x00 0xFD 0xA4 0x8002 2 []) = true := by
  decide +kernel

/-- BVC-t. -/
theorem test_bvc :
    (runsTo (testState 0x8000 [0x50, 0x00] 0x00 0x00 0x00 0xFD 0x24 []) 0x00 0x00 0x00 0xFD 0x24 0x8002 3 []) = true := by
  decide +kernel

/-- BVS-t, BVS-n. -/
theorem test_bvs :
    (runsTo (testState 0x8000 [0x70, 0x7F] 0x00 0x00 0x00 0xFD 0x64 []) 0x00 0x00 0x00 0xFD 0x64 0x8081 3 [] &&
     runsTo (testState 0x8000 [0x70, 0x7F] 0x00 0x00 0x00 0xFD 0x24 []) 0x00 0x00 0x00 0xFD 0x24 0x8002 2 []) = true := by
  decide +kernel

/-- INV-F. -/
theorem test_invalid_fault :
    stepSession (testState 0x8000 [0x02] 0x00 0x00 0x00 0xFD 0x24 []) =
      .faulted (.invalidOpcode 0x02 0x8000) { testState 0x8000 [0x02] 0x00 0x00 0x00 0xFD 0x24 [] with
        pc := 0x8001, fault := some (.invalidOpcode 0x02 0x8000) } := by
  decide +kernel

/-- INV-N2. -/
theorem test_invalid_nop_log :
    runsTo { testState 0x8000 [0x02] 0x00 0x00 0x00 0xFD 0x24 [] with
      params := { Params.default with invalidPolicy := .nopLog, invalidNopAdvance := .two } }
      0x00 0x00 0x00 0xFD 0x24 0x8002 1 [] = true := by
  decide +kernel

/-! ### Interrupts -/

/-- A NOP at 0x8000 with the three interrupt flags as given. -/
def interruptState (p : Byte) (nmi ppuIrq apuIrq : Bool) (params : Params) : State :=
  { testState 0x8000 [0xEA] 0x00 0x00 0x00 0xFD p [] with
    ppu := { ppuPowerOn with nmiFlag := nmi, irqFlag := ppuIrq }
    apu := { apuPowerOn with irqFlag := apuIrq }
    params := params }

/-- INT1, INT2, INT9. -/
theorem test_nmi :
    (runsTo (interruptState 0x20 true false false Params.default) 0x00 0x00 0x00 0xFA 0x24 0x9001 9 [(0x01FD, 0x80), (0x01FC, 0x00), (0x01FB, 0x20)] &&
     runsTo (interruptState 0x24 true false false Params.default) 0x00 0x00 0x00 0xFA 0x24 0x9001 9 [(0x01FD, 0x80), (0x01FC, 0x00), (0x01FB, 0x24)] &&
     runsTo (interruptState 0x20 true false false { Params.default with intEntryCycles := 0 }) 0x00 0x00 0x00 0xFA 0x24 0x9001 2 [(0x01FD, 0x80), (0x01FC, 0x00), (0x01FB, 0x20)]) = true := by
  decide +kernel

/-- INT3, INT4, INT5, INT10. -/
theorem test_irq :
    (runsTo (interruptState 0x20 false true false Params.default) 0x00 0x00 0x00 0xFA 0x24 0xA001 9 [(0x01FD, 0x80), (0x01FC, 0x00), (0x01FB, 0x20)] &&
     runsTo (interruptState 0x20 false false true Params.default) 0x00 0x00 0x00 0xFA 0x24 0xA001 9 [(0x01FD, 0x80), (0x01FC, 0x00), (0x01FB, 0x20)] &&
     runsTo (interruptState 0x24 false true true Params.default) 0x00 0x00 0x00 0xFD 0x24 0x8001 2 [(0x01FD, 0x00), (0x01FC, 0x00), (0x01FB, 0x00)] &&
     runsTo (interruptState 0xDB false true false Params.default) 0x00 0x00 0x00 0xFA 0xEF 0xA001 9 [(0x01FD, 0x80), (0x01FC, 0x00), (0x01FB, 0xEB)]) = true := by
  decide +kernel

/-- INT6, INT7, INT8. -/
theorem test_nmi_and_irq :
    (runsTo (interruptState 0x20 true true false Params.default) 0x00 0x00 0x00 0xF7 0x24 0xA001 16 [(0x01FD, 0x80), (0x01FC, 0x00), (0x01FB, 0x20), (0x01FA, 0x90), (0x01F9, 0x00), (0x01F8, 0x24)] &&
     runsTo (interruptState 0x20 true true false { Params.default with irqMaskSample := .afterNmi }) 0x00 0x00 0x00 0xFA 0x24 0x9001 9 [(0x01FD, 0x80), (0x01FC, 0x00), (0x01FB, 0x20)] &&
     runsTo (interruptState 0x24 true false true Params.default) 0x00 0x00 0x00 0xFA 0x24 0x9001 9 [(0x01FD, 0x80), (0x01FC, 0x00), (0x01FB, 0x24)]) = true := by
  decide +kernel

/-- A masked IRQ request is discarded: both flags are clear after the poll (INT5, 60_exceptions.md R475). -/
theorem test_masked_irq_lost :
    (interruptPoll (interruptState 0x24 false true true Params.default)).ppu.irqFlag = false ∧
    (interruptPoll (interruptState 0x24 false true true Params.default)).apu.irqFlag = false := by decide +kernel

/-! ### Bus and devices -/

/-- LS6, LS22: a store to a device register is a recorded event. -/
theorem test_register_stores :
    (store 0x200E 0x42 State.reset).ppu.events = [.write 0 6 0x42] ∧
    (store 0x4017 0x40 State.reset).apu.events = [.write 0 0x17 0x40] := by decide +kernel

/-- JOY1: nine reads of 0x4016 after a strobe with A, Select and Right held. -/
theorem test_joypad_reads :
    let s := store 0x4016 0 (store 0x4016 1 { State.reset with joy1 := ⟨0x85, 3, false⟩ })
    ((List.range 9).map fun n => (load 0x4016 (afterLoads 0x4016 n s)).1) =
      [0x01, 0x00, 0x01, 0x00, 0x00, 0x00, 0x00, 0x01, 0x01] ∧ (afterLoads 0x4016 9 s).joy1.cursor = 8 := by
  decide +kernel

/-- RAM1: a store through a mirror is seen at the base address and is no byte of its own. -/
theorem test_ram_mirror :
    (load 0x0007 (store 0x1807 0x77 State.reset)).1 = 0x77 ∧ (store 0x1807 0x77 State.reset).ram = [(0x0007, 0x77)] := by
  decide +kernel

/-- PPU1: a PPU mirror reads register 2, and the read takes the queued byte (20_memory.md R87; log 6). -/
theorem test_ppu_mirror_read :
    (load 0x3F02 { State.reset with inputs := { inputsEmpty with ppuReads := [0x5A] } }).1 = 0x5A ∧
    (load 0x3F02 { State.reset with inputs := { inputsEmpty with ppuReads := [0x5A] } }).2.ppu.events =
      [.read 0 2 0x5A] := by decide +kernel

/-- DMA1: the page's bytes reach PPU register 4 in order, newest first, at 514 stall cycles. -/
theorem test_oam_dma :
    let s := { State.reset with ram := [(0x0200, 0x03), (0x0201, 0x0A), (0x02FF, 0xFC)] }
    (store 0x4014 0x02 s).stall = 514 ∧ (store 0x4014 0x02 s).ppu.events.length = 256 ∧
    (store 0x4014 0x02 s).ppu.events.head? = some (.write 0 4 0xFC) ∧
    (store 0x4014 0x02 s).ppu.events.getLast? = some (.write 0 4 0x03) := by decide +kernel

/-- A step clocks `PPU_RATIO` PPU clocks and one APU clock a cycle (31_step.md R298); what a clock sets is polled at the
next step (20_memory.md R118). -/
theorem test_clocking : (match step { testState 0x8000 [0xEA] 0 0 0 0xFD 0x34 [] with
      inputs := { inputsEmpty with ppuClocks := [[], [.putNmi true], [.advanceFrame]] } } with
    | .next t => decide (t.ppu.clocks = 6 ∧ t.apu.clocks = 2 ∧ t.ppu.nmiFlag = true ∧ t.ppu.frame = 1 ∧ t.pc = 0x8001)
    | _ => false) = true := by decide +kernel

/-! ### Mappers -/

/-- The answers of `n` calls of `drive_irq_counter`. -/
def answers (n : Nat) (m : Mapper) : List Bool := (List.range n).map fun k => m.driveAnswer k

/-- MMC1-1: five writes, the last to 0xE000, commit `prg` 3. -/
theorem test_mmc1_sequence :
    ([1, 1, 0, 0, 0] : List Byte).foldl (fun m v => m.store 0xE000 v) (Mapper.mmc1 Mmc1.powerOn) =
      .mmc1 { Mmc1.powerOn with prg := 3 } ∧
    (Mapper.mmc1 { Mmc1.powerOn with prg := 3 }).map 8 0x8000 = 0x0C000 ∧
    (Mapper.mmc1 { Mmc1.powerOn with prg := 3 }).map 8 0xC000 = 0x1C000 := by decide +kernel

/-- MMC1-2, MMC1-3. -/
theorem test_mmc1_control :
    ([(0x8000, 0), (0xA000, 0), (0xC000, 0), (0xE000, 1), (0x9FFF, 0)] : List (Word × Byte)).foldl
      (fun m c => m.store c.1 c.2) (Mapper.mmc1 Mmc1.powerOn) = .mmc1 { Mmc1.powerOn with control := 0x08 } ∧
    (Mapper.mmc1 { Mmc1.powerOn with control := 0x08 }).mirroringType .vertical = .singleScreenLower ∧
    (Mapper.mmc1 { Mmc1.powerOn with control := 0x08, prg := 5 }).map 8 0xC000 = 0x14000 ∧
    (Mapper.mmc1 { Mmc1.powerOn with control := 0, count := 2, shift := 3 }).store 0x8000 0x80 =
      .mmc1 { Mmc1.powerOn with control := 0x0C } := by decide +kernel

/-- MMC1-4. -/
theorem test_mmc1_chr :
    let r := { Mmc1.powerOn with control := 0x10, chr0 := 3, chr1 := 5 }
    (Mapper.mmc1 r).mapChr 4 0x0123 = 0x3123 ∧ (Mapper.mmc1 r).mapChr 4 0x1123 = 0x5123 ∧
    (Mapper.mmc1 { r with control := 0 }).mapChr 4 0x0123 = 0x2123 ∧
    (Mapper.mmc1 { r with control := 0 }).mapChr 4 0x1123 = 0x3123 := by decide +kernel

/-- UxROM, CNROM. -/
theorem test_uxrom_cnrom :
    ((Mapper.uxrom 0).store 0x8000 5).map 4 0x8000 = 0x4000 ∧ ((Mapper.uxrom 0).store 0x8000 5).map 4 0xC000 = 0xC000 ∧
    ((Mapper.cnrom 0).store 0x8000 3).mapChr 2 0x0123 = 0x2123 ∧ ((Mapper.cnrom 0).store 0x8000 3).map 1 0xC000 = 0 := by
  decide +kernel

/-- MMC3-1, MMC3-2. -/
theorem test_mmc3_prg :
    let m := ((Mapper.mmc3 Mmc3.powerOn).store 0x8000 0x06).store 0x8001 0x03
    ([0x8000, 0xA000, 0xC000, 0xE000].map fun a => m.map 4 a) = [0x6000, 0x0000, 0xC000, 0xE000] ∧
    ([0x8000, 0xC000].map fun a => (m.store 0x8000 0x46).map 4 a) = [0xC000, 0x6000] := by decide +kernel

/-- MMC3-3. -/
theorem test_mmc3_chr :
    let m := Mapper.mmc3 { Mmc3.powerOn with r := #v[5, 0, 9, 0, 0, 0, 0, 0] }
    ([0x0000, 0x0400, 0x1000].map fun a => m.mapChr 2 a) = [0x1000, 0x1400, 0x2400] ∧
    ([0x1000, 0x0000].map fun a => (m.store 0x8000 0x80).mapChr 2 a) = [0x1000, 0x2400] := by decide +kernel

/-- MMC3-4, MMC3-5, MMC3-7. -/
theorem test_mmc3_irq :
    let m := (Mapper.mmc3 Mmc3.powerOn).store 0xC000 3
    answers 8 (m.store 0xE001 0) = [false, false, false, true, false, false, false, true] ∧
    answers 8 m = List.replicate 8 false ∧
    answers 7 ((((Mapper.mmc3 Mmc3.powerOn).store 0xC000 5).store 0xE001 0).afterDrives 2 |>.store 0xC001 0) =
      [false, false, false, false, false, true, false] := by decide +kernel

/-- FME7-1, FME7-2. -/
theorem test_fme7 :
    let set (m : Mapper) (c : Byte × Byte) : Mapper := (m.store 0x8000 c.1).store 0xA000 c.2
    answers 4 (([(0xE, 2), (0xF, 0), (0xD, 1)] : List (Byte × Byte)).foldl set (.fme7 Fme7.powerOn)) =
      [false, false, true, false] ∧
    (let m := ([(0x9, 0x05), (0xA, 0x0A), (0x3, 0x21)] : List (Byte × Byte)).foldl set (.fme7 Fme7.powerOn);
      ([0x8000, 0xA000, 0xC000, 0xE000].map fun a => m.map 4 a) = [0xA000, 0x4000, 0x0000, 0xE000] ∧
      m.mapChr 2 0x0C00 = 0x0400) := by decide +kernel

/-! ### Power-on, reset, load, save states -/

/-- PWR1, PWR2: the RESET vector through NROM, and through MMC1's fixed last bank. -/
theorem test_power_on :
    (powerOn Params.default { Cart.blank with prg := [(0x3FFC, 0x23), (0x3FFD, 0xC1)] } .nrom).pc = 0xC123 ∧
    (powerOn Params.default { Cart.blank with prg16 := 8, prg := [(0x1FFFD, 0xE0)] } (.mmc1 Mmc1.powerOn)).pc = 0xE000 := by
  decide +kernel

/-- RST1, RST2. -/
theorem test_reset :
    let s := { testState 0x8123 [] 0x01 0x02 0x03 0x01 0xC3 [(5, 9)] with fault := some (.invalidOpcode 0x02 0x8000) }
    resetSession s.ppu s.apu s = some { s with sp := 0xFE, p := 0xC7, pc := 0x8000 } := by decide +kernel

/-- LOAD: a 3-byte image, a bad magic, a bank missing. -/
theorem test_load_errors :
    (match loadCart Params.default [0x4E, 0x45, 0x53] with | .error e => some e | .ok _ => none) =
      some .malformedHeader ∧
    (match loadCart Params.default (List.replicate 16 0x4E) with | .error e => some e | .ok _ => none) =
      some .malformedHeader ∧
    (match loadCart Params.default ([0x4E, 0x45, 0x53, 0x1A, 1, 0, 0x70, 0] ++ List.replicate 8 0) with
      | .error e => some e | .ok _ => none) = some .malformedHeader := by decide +kernel

/-- SS3, SS4: a version one higher, fewer than four bytes, and too few bytes for a field. -/
theorem test_save_errors :
    (match decodeSave Params.default [2, 0, 0, 0] with | .error e => some e | .ok _ => none) =
      some (.versionMismatch 2) ∧
    (match decodeSave Params.default [1, 0, 0] with | .error e => some e | .ok _ => none) = some .decodeError ∧
    (match decodeSave Params.default [1, 0, 0, 0, 0] with | .error e => some e | .ok _ => none) = some .decodeError := by
  decide +kernel

/-- SS2, SS5, SS6: MMC1's fields in mid-sequence, an unknown tag, and an illegal write counter. -/
theorem test_save_mapper :
    mapperBytes (.mmc1 { Mmc1.powerOn with shift := 24, count := 2 }) = [24, 2, 12, 0, 0, 0] ∧
    parseMapper 69 1 [24, 2, 12, 0, 0, 0] = some (.mmc1 { Mmc1.powerOn with shift := 24, count := 2 }, []) ∧
    parseMapper 69 5 [24, 2, 12, 0, 0, 0] = none ∧ parseMapper 69 1 [24, 5, 12, 0, 0, 0] = none := by decide +kernel

/-! ### Witnesses: a concrete input that meets the hypotheses of each statement that has some -/

/-- Whether an outcome is a next state. -/
def isNext {σ φ ρ : Type} : Host.Outcome σ φ ρ → Bool
  | .next _ => true
  | _ => false

theorem next_of_isNext {σ φ ρ : Type} {o : Host.Outcome σ φ ρ} (h : isNext o = true) : ∃ t, o = .next t := by
  cases o <;> simp_all [isNext]

/-- A powered state that is not the reset state: code at 0x8000, every register and the stack in use. -/
def busyState (code : List Byte) : State := testState 0x8000 code 0x12 0x34 0x56 0xFD 0x34 [(0x0010, 0x80), (0x01FE, 0x07)]

theorem witness_DecodeAfterEncode : (Instr.lda (.absX 0xFFFF)).wf = true ∧ (Instr.invalid 0xFF).wf = true := by
  decide +kernel

theorem witness_EncodeAfterDecode : ∃ i rest, decode [0xBD, 0xFF, 0xFF, 0x60] = .ok (i, rest) :=
  ⟨.lda (.absX 0xFFFF), [0x60], by decide +kernel⟩

theorem witness_StepRunsDecoded : Enabled (busyState [0xA5, 0x10]) := by unfold Enabled; decide +kernel

theorem witness_StepGate :
    (∃ s : State, s.powered = false) ∧
    ∃ s : State, s.powered = true ∧ s.fault.isSome = true :=
  ⟨⟨unpowered Params.default, rfl⟩, ⟨{ State.reset with fault := some (.invalidOpcode 0x02 0x8000) }, rfl, rfl⟩⟩

theorem witness_DeviceActions :
    (∃ s : State, s.chrRam = none) ∧ ∃ (s : State) (m : Memory), s.chrRam = some m ∧ m.wf :=
  ⟨⟨State.reset, rfl⟩, ⟨{ State.reset with chrRam := some [(0x1FFF, 0x01)] }, [(0x1FFF, 0x01)], rfl, by decide⟩⟩

/-- Empty and non-empty queues of clocks, every shape of an APU tick, and both kinds of character memory to read. -/
theorem witness_DeviceActions_queues :
    (∃ s : State, s.inputs.ppuClocks = [] ∧ s.inputs.apuClocks = []) ∧
    (∃ (s : State) (acts : List PpuAction) (rest : List (List PpuAction)), s.inputs.ppuClocks = acts :: rest) ∧
    (∀ tick ∈ ([⟨none, none⟩, ⟨some true, none⟩, ⟨none, some 0x8000⟩, ⟨some false, some 0xFFFF⟩] : List ApuTick),
      ∃ s : State, s.inputs.apuClocks = tick :: []) ∧
    (∃ (s : State) (chr : Memory), s.chrRam = some chr) ∧ ∃ (s : State) (chr : Memory), s.chrRam = none ∧ s.cart.chr = chr :=
  ⟨⟨State.reset, rfl, rfl⟩,
    ⟨{ State.reset with inputs := { inputsEmpty with ppuClocks := [[.advanceFrame, .putNmi true], []] } }, _, _, rfl⟩,
    fun tick _ => ⟨{ State.reset with inputs := { inputsEmpty with apuClocks := [tick] } }, rfl⟩,
    ⟨{ State.reset with chrRam := some [(0x1FFF, 0x01)] }, _, rfl⟩, ⟨State.reset, _, rfl, rfl⟩⟩

theorem witness_OnlyInvalidFails : (Instr.sta (.indY 0xFF)).kind ≠ .invalid := by decide

theorem witness_InvalidOpcode :
    (∃ s : State, s.params.invalidPolicy = .fault) ∧ ∃ s : State, s.params.invalidPolicy = .nopLog :=
  ⟨⟨State.reset, rfl⟩, ⟨{ State.reset with params := { Params.default with invalidPolicy := .nopLog } }, rfl⟩⟩

theorem witness_FaultedStep : ∃ s : State, Enabled s ∧ s.params.invalidPolicy = .fault ∧
    (decodeOp (load (beginStep s).pc (beginStep s)).1).kind = .invalid :=
  ⟨busyState [0x02], by unfold Enabled; decide +kernel⟩

/-- The state with the three interrupt flags and `P` as given. -/
def flagged (nmi ppuIrq apuIrq : Bool) (p : Byte) : State :=
  { busyState [0xEA] with
    p := p
    ppu := { ppuPowerOn with nmiFlag := nmi, irqFlag := ppuIrq }
    apu := { apuPowerOn with irqFlag := apuIrq } }

theorem witness_InterruptPoll :
    (flagged true true true 0x20).ram.wf ∧
    ((flagged false false false 0x20).ppu.irqFlag || (flagged false false false 0x20).apu.irqFlag) = false ∧
    ((flagged false false true 0x24).ppu.irqFlag || (flagged false false true 0x24).apu.irqFlag) = true ∧
    (flagged false false true 0x24).flag .i = true ∧ (flagged false true false 0x20).flag .i = false ∧
    ((flagged true true false 0x20).params.irqMaskSample = .stepStart ∧ (flagged true true false 0x20).flag .i = false) ∧
    ¬((flagged true true false 0x24).params.irqMaskSample = .stepStart ∧ (flagged true true false 0x24).flag .i = false) := by
  decide +kernel

theorem witness_BrkEntry : (busyState [0x00]).ram.wf := by decide +kernel

theorem witness_ReturnFromInterrupt : ∃ t, HandlerEntered true 0xFFFE 0 (busyState [0x00]) t :=
  ⟨_, enterHandler_entered true 0 (by decide +kernel) (by decide) (by decide)⟩

/-- Which clauses of LoadPartition an address falls under. -/
def loadClauses (a : Word) : List Nat :=
  (([a.toNat ≤ 0x1FFF, 0x2000 ≤ a.toNat ∧ a.toNat ≤ 0x3FFF, a = 0x4014, a = 0x4016, a = 0x4017,
    0x4000 ≤ a.toNat ∧ a.toNat ≤ 0x4015 ∧ a ≠ 0x4014, 0x4018 ≤ a.toNat ∧ a.toNat ≤ 0x401F,
    0x4020 ≤ a.toNat ∧ a.toNat ≤ 0x7FFF, 0x8000 ≤ a.toNat] : List Bool).zipIdx.filter fun c => c.1).map Prod.snd

/-- At the ends of every row exactly that row's clause applies (20_memory.md R82). -/
theorem witness_LoadPartition :
    ([0x0000, 0x1FFF, 0x2000, 0x3FFF, 0x4000, 0x4013, 0x4014, 0x4015, 0x4016, 0x4017, 0x4018, 0x401F, 0x4020, 0x7FFF,
      0x8000, 0xFFFF].map loadClauses) =
    [[0], [0], [1], [1], [5], [5], [2], [5], [3], [4], [6], [6], [7], [7], [8], [8]] := by decide +kernel

/-- Register reads with a queued answer and beyond the queue, and cursors at both sides of the last button. -/
theorem witness_LoadPartition_reads :
    (∃ (s : State) (v w : Byte) (ppu apu : List Byte), s.inputs.ppuReads = v :: ppu ∧ s.inputs.apuReads = w :: apu) ∧
    (∃ s : State, s.inputs.ppuReads = [] ∧ s.inputs.apuReads = []) ∧
    (⟨0x80, 7, false⟩ : Joypad).cursor < 8 ∧ 8 ≤ (⟨0x80, 8, false⟩ : Joypad).cursor :=
  ⟨⟨{ State.reset with inputs := { inputsEmpty with ppuReads := [0x80, 0x00], apuReads := [0x40] } }, _, _, _, _, rfl, rfl⟩,
    ⟨State.reset, rfl, rfl⟩, by decide, by decide⟩

/-- Which clauses of StorePartition an address falls under. -/
def storeClauses (a : Word) : List Nat :=
  (([a.toNat ≤ 0x1FFF, 0x2000 ≤ a.toNat ∧ a.toNat ≤ 0x3FFF, a = 0x4014, a = 0x4016,
    0x4000 ≤ a.toNat ∧ a.toNat ≤ 0x4017 ∧ a ≠ 0x4014 ∧ a ≠ 0x4016, 0x4018 ≤ a.toNat ∧ a.toNat ≤ 0x401F,
    0x4020 ≤ a.toNat ∧ a.toNat ≤ 0x7FFF, 0x8000 ≤ a.toNat] : List Bool).zipIdx.filter fun c => c.1).map Prod.snd

/-- At the ends of every row exactly that row's clause applies (20_memory.md R83). -/
theorem witness_StorePartition :
    ([0x0000, 0x1FFF, 0x2000, 0x3FFF, 0x4000, 0x4013, 0x4014, 0x4015, 0x4016, 0x4017, 0x4018, 0x401F, 0x4020, 0x7FFF,
      0x8000, 0xFFFF].map storeClauses) =
    [[0], [0], [1], [1], [4], [4], [2], [4], [3], [4], [5], [5], [6], [6], [7], [7]] := by decide +kernel

theorem witness_Mirrors : (0x07FF : Word).toNat ≤ 0x07FF ∧ (busyState []).ram.wf ∧ (0x01FF : Word).toNat ≤ 0x01FF ∧
    0x2000 ≤ (0x3FFF : Word).toNat ∧ (0x3FFF : Word).toNat ≤ 0x3FFF := by decide +kernel

theorem witness_StoreEffect : (busyState []).ram.wf := by decide +kernel

theorem witness_LoadEffect :
    ([0x0000, 0x1FFF, 0x4014, 0x4018, 0xFFFF].all fun a : Word => a.toNat ≤ 0x1FFF ∨ a = 0x4014 ∨ 0x4018 ≤ a.toNat) := by
  decide

theorem witness_OamDmaCopies :
    ([0x00, 0x1F, 0x41, 0xFF].all fun pg : Byte => pg.toNat < 0x20 ∨ 0x41 ≤ pg.toNat) = true := by decide

theorem witness_MapInBounds : 1 ≤ 1 ∧ 0x8000 ≤ (0x8000 : Word).toNat ∧ 0x8000 ≤ (0xFFFF : Word).toNat := by decide

theorem witness_NromMap : 0x8000 ≤ (0x8000 : Word).toNat ∧ 0x8000 ≤ (0xFFFF : Word).toNat := by decide

/-- Both halves of program ROM at their ends. -/
theorem witness_SimpleBankSelect :
    1 ≤ 1 ∧ 0x8000 ≤ (0x8000 : Word).toNat ∧ (0xBFFF : Word).toNat < 0xC000 ∧ ¬(0xC000 : Word).toNat < 0xC000 := by decide

/-- The fifth address at both ends of each of the four ranges, and a reset write. -/
theorem witness_Mmc1Sequence :
    Mmc1.powerOn.count = 0 ∧ (∀ v ∈ [(0x00 : Byte), 0x01, 0x7F, 0x02, 0x03], v.getLsbD 7 = false) ∧
    ([0x8000, 0x9FFF, 0xA000, 0xBFFF, 0xC000, 0xDFFF, 0xE000, 0xFFFF].all fun a : Word => 0x8000 ≤ a.toNat) = true ∧
    (0x80 : Byte).getLsbD 7 = true := by decide

theorem witness_Mmc3Pair :
    0x8000 ≤ (0x8000 : Word).toNat ∧ (0x9FFE : Word).toNat < 0xA000 ∧ (0x9FFE : Word).toNat % 2 = 0 ∧
    (0x9FFF : Word).toNat < 0xA000 ∧ (0x9FFF : Word).toNat % 2 = 1 ∧
    ([0xA000, 0xBFFF, 0xC000, 0xDFFF, 0xE000, 0xFFFF].all fun a : Word => 0xA000 ≤ a.toNat) = true ∧
    ([0x8000, 0x9FFF, 0xA000, 0xFFFF].all fun a : Word => 0x8000 ≤ a.toNat) = true := by decide

/-- At the ends of FME-7's three windows exactly that window's clause applies (21_mappers.md R201). -/
theorem witness_Fme7IrqPeriod :
    ([0x8000, 0x9FFF, 0xA000, 0xBFFF, 0xC000, 0xFFFF].map fun a : Word =>
      ([a.toNat < 0xA000, 0xC000 ≤ a.toNat, 0xA000 ≤ a.toNat ∧ a.toNat < 0xC000] : List Bool)) =
    [[true, false, false], [true, false, false], [false, false, true], [false, false, true], [false, true, false],
      [false, true, false]] ∧ 0x8000 ≤ (0x8000 : Word).toNat := by decide +kernel

/-- An armed reload with latch 0, 1 and 255, and a state after some calls. -/
theorem witness_Mmc3IrqPeriod :
    ([0x00, 0x01, 0xFF].all fun l : Byte => ((Mmc3.powerOn.store 0xC000 l).irqReload && (Mmc3.powerOn.store 0xC000 l).irqLatch == l)) ∧
    ∃ q, (Mapper.mmc3 (Mmc3.powerOn.store 0xC000 3)).afterDrives 2 = .mmc3 q := ⟨by decide, _, rfl⟩

theorem witness_HostReset : (unpowered Params.default).powered = false ∧ State.reset.powered = true := ⟨rfl, rfl⟩

/-- The smallest NROM image: a header, one program bank of zeros, and `extra` bytes more or less. -/
def smallImage (flags6 flags7 : Byte) (payload : Nat) : List Byte :=
  [0x4E, 0x45, 0x53, 0x1A, 0x01, 0x00, flags6, flags7, 0, 0, 0, 0, 0, 0, 0, 0] ++ List.replicate payload 0

theorem smallImage_length (flags6 flags7 : Byte) (payload : Nat) : (smallImage flags6 flags7 payload).length = 16 + payload := by
  simp only [smallImage, List.length_append, List.length_replicate, List.length_cons, List.length_nil]

/-- A small image with its payload is not malformed, and one short by a byte is. -/
theorem smallImage_formed (flags7 : Byte) :
    ¬((smallImage 0x00 flags7 16384).length < 16 ∨ (smallImage 0x00 flags7 16384).take 4 ≠ [0x4E, 0x45, 0x53, 0x1A] ∨
      (smallImage 0x00 flags7 16384).getD 4 0 = 0 ∨ (smallImage 0x00 flags7 16384).length <
        16 + ((smallImage 0x00 flags7 16384).getD 4 0).toNat * 16384 +
          ((smallImage 0x00 flags7 16384).getD 5 0).toNat * 8192) ∧
    (smallImage 0x00 flags7 16383).length < 16 + ((smallImage 0x00 flags7 16383).getD 4 0).toNat * 16384 +
      ((smallImage 0x00 flags7 16383).getD 5 0).toNat * 8192 := by
  have h4 (n : Nat) : (smallImage 0x00 flags7 n).getD 4 0 = 1 := rfl
  have h5 (n : Nat) : (smallImage 0x00 flags7 n).getD 5 0 = 0 := rfl
  have ht (n : Nat) : (smallImage 0x00 flags7 n).take 4 = [0x4E, 0x45, 0x53, 0x1A] := rfl
  rw [h4, h4, h5, h5, ht, smallImage_length, smallImage_length]
  exact ⟨by decide, by decide⟩

/-- A malformed image, and well-formed ones with a known mapper number (0) and with an unknown one (0x10). -/
theorem witness_CartridgeLoad :
    (smallImage 0x00 0x00 16383).length < 16 + ((smallImage 0x00 0x00 16383).getD 4 0).toNat * 16384 +
      ((smallImage 0x00 0x00 16383).getD 5 0).toNat * 8192 ∧
    (∀ flags7 : Byte, ¬((smallImage 0x00 flags7 16384).length < 16 ∨
      (smallImage 0x00 flags7 16384).take 4 ≠ [0x4E, 0x45, 0x53, 0x1A] ∨ (smallImage 0x00 flags7 16384).getD 4 0 = 0 ∨
      (smallImage 0x00 flags7 16384).length < 16 + ((smallImage 0x00 flags7 16384).getD 4 0).toNat * 16384 +
        ((smallImage 0x00 flags7 16384).getD 5 0).toNat * 8192)) ∧
    (((smallImage 0x00 0x00 16384).getD 7 0 &&& 0xF0) ||| ((smallImage 0x00 0x00 16384).getD 6 0 >>> 4) : Byte) = 0 ∧
    (((smallImage 0x00 0x10 16384).getD 7 0 &&& 0xF0) ||| ((smallImage 0x00 0x10 16384).getD 6 0 >>> 4) : Byte) = 0x10 :=
  ⟨(smallImage_formed 0x00).2, fun flags7 => (smallImage_formed flags7).1, rfl, rfl⟩

/-- The mapper numbers of 21_mappers.md R145 and two others. -/
theorem test_mapper_numbers :
    ([0, 1, 2, 3, 4, 69, 5, 0x10].map fun number : Byte => (Mapper.ofId 69 number).map (mapperTag 69)) =
      [some 0, some 1, some 2, some 3, some 4, some 69, none, none] := by decide +kernel

/-- A load that fails; one that succeeds is in `witness_ResetOk`. -/
theorem witness_CartridgeLoad_error : ∃ e, loadCart Params.default [] = .error e := ⟨.malformedHeader, rfl⟩

/-- A load that succeeds, of parameters in their bounds; so `sessionStart` does too. -/
theorem witness_ResetOk : ∃ (params : Params) (image : List Byte) (s : State),
    ParamsOk params ∧ sessionStart params image = .ok s := by
  refine ⟨Params.default, smallImage 0x00 0x00 16384, ?_⟩
  have h : ∃ c, loadCart Params.default (smallImage 0x00 0x00 16384) = .ok c := by
    unfold loadCart
    rw [smallImage_length, if_neg (by decide), if_neg (show ¬(smallImage 0x00 0x00 16384).take 4 ≠ imageMagic from
      fun h => h rfl)]
    refine ⟨_, (if_neg (show ¬((smallImage 0x00 0x00 16384).getD 4 0).toNat = 0 from fun h => ?_)).trans
      ((if_neg ?_).trans rfl)⟩
    · exact absurd (show (1 : Nat) = 0 from h) (by decide)
    · exact show ¬(16 + 16384 < 16 + 16384) from Nat.lt_irrefl _
  obtain ⟨c, hc⟩ := h
  exact ⟨powerOn Params.default c.1 c.2, ⟨by decide, by decide, by decide⟩, by simp only [sessionStart, hc]⟩

/-- Whether the host's step faults. -/
def isFaulted : StepResult → Bool
  | .faulted _ _ => true
  | _ => false

theorem faulted_of_isFaulted {r : StepResult} (h : isFaulted r = true) : ∃ f t, r = .faulted f t := by
  cases r <;> simp_all [isFaulted]

theorem witness_FrameStep : (∃ total t,
    stepFrame 1 [] { busyState [0xEA] with inputs := { inputsEmpty with ppuClocks := [[.advanceFrame]] } } = .done total t) ∧
    ∃ f t, stepFrame 1 [] (busyState [0x02]) = .faulted f t := by
  obtain ⟨f, t, h⟩ := faulted_of_isFaulted (r := stepSession (busyState [0x02])) (by decide +kernel)
  refine ⟨?_, f, t, by simp only [stepFrame, frameLoop, applyInput, h]⟩
  have h : (match stepFrame 1 [] { busyState [0xEA] with inputs := { inputsEmpty with ppuClocks := [[.advanceFrame]] } } with
      | .done _ _ => true
      | _ => false) = true := by decide +kernel
  split at h
  · exact ⟨_, _, by assumption⟩
  · simp at h

/-- Whether the first step completes on the same frame, and `last` holds of the state it leaves. -/
def quietThen (s : State) (last : State → Bool) : Bool :=
  match step s with
  | .next u => decide (u.ppu.frame = s.ppu.frame) && last u
  | _ => false

theorem runsFor_of_quietThen {s : State} {last : State → Bool} (h : quietThen s last = true) :
    ∃ (c : Nat) (u : State), RunsFor 1 c (applyInput [] s) u ∧
      (∀ k ≤ 1, ∀ v, StepsIn k (applyInput [] s) v → v.ppu.frame = s.ppu.frame) ∧ last u = true := by
  unfold quietThen at h
  split at h
  · rename_i u hu
    simp only [Bool.and_eq_true, decide_eq_true_eq] at h
    refine ⟨_, u, ⟨u, 0, hu, ⟨rfl, rfl⟩, rfl⟩, ?_, h.2⟩
    rintro (_ | _ | k) hk v hv
    · cases hv; rfl
    · obtain ⟨w, hw, rfl⟩ := hv
      cases hu.symm.trans hw; exact h.1
    · omega
  · cases h

/-- A second step that changes the frame counter, its NOPs taking six PPU clocks each, and one that faults. -/
theorem witness_FrameStep_converse :
    (∃ (s u t : State) (c : Nat), RunsFor 1 c (applyInput [] s) u ∧
      (∀ k ≤ 1, ∀ v, StepsIn k (applyInput [] s) v → v.ppu.frame = s.ppu.frame) ∧
      StepsTo u t ∧ t.ppu.frame ≠ s.ppu.frame) ∧
    ∃ (s u t : State) (c : Nat) (f : Fault), RunsFor 1 c (applyInput [] s) u ∧
      (∀ k ≤ 1, ∀ v, StepsIn k (applyInput [] s) v → v.ppu.frame = s.ppu.frame) ∧ stepSession u = .faulted f t := by
  constructor
  · obtain ⟨c, u, h1, h2, h3⟩ := runsFor_of_quietThen
      (s := { busyState [0xEA, 0xEA] with
        inputs := { inputsEmpty with ppuClocks := [[], [], [], [], [], [], [.advanceFrame]] } })
      (last := fun u => match step u with | .next t => decide (t.ppu.frame ≠ 0) | _ => false) (by decide +kernel)
    split at h3
    · rename_i t ht
      exact ⟨_, u, t, c, h1, h2, ht, of_decide_eq_true h3⟩
    · cases h3
  · obtain ⟨c, u, h1, h2, h3⟩ := runsFor_of_quietThen (s := busyState [0xEA, 0x02])
      (last := fun u => isFaulted (stepSession u)) (by decide +kernel)
    obtain ⟨f, t, h⟩ := faulted_of_isFaulted h3
    exact ⟨_, u, t, c, f, h1, h2, h⟩

/-- A save state of an FME-7 cartridge with character RAM. -/
def sampleSave : SaveState :=
  { version := 1, pc := 0x8000, sp := 0xFD, a := 0x42, x := 0, y := 0, p := 0x34, ram := [(0x0300, 0x99)]
    joy1 := ⟨0x81, 3, false⟩, joy2 := ⟨0, 8, true⟩, ppu := [0x01, 0x00], apu := [0x00], mapper := .fme7 Fme7.powerOn
    chrRam := some [(0x1FFF, 0x07)] }

theorem witness_SaveDecodeAfterEncode : SaveOk Params.default sampleSave where
  version := rfl
  ramWf := by decide
  ramBelow := by decide
  cursor1 := by decide
  cursor2 := by decide
  ppuBlob := by decide
  apuBlob := by decide
  mapperLegal := rfl
  fme7 := fun _ => by decide
  chrRam := fun m h => by cases h; decide

/-- The device stubs of 95_test_vectors.md section 0: blobs `[nmi_flag, irq_flag]` and `[irq_flag]`, and a frame counter
that never advances. -/
def stubCodec : DeviceCodec where
  ppuBlob d := [boolByte d.nmiFlag, boolByte d.irqFlag]
  ppuOfBlob
    | [n, i] => some { ppuPowerOn with nmiFlag := n == 1, irqFlag := i == 1 }
    | _ => none
  apuBlob d := [boolByte d.irqFlag]
  apuOfBlob
    | [i] => some { apuPowerOn with irqFlag := i == 1 }
    | _ => none
  frameValues := 1
  ppuBlob_length _ := by simp
  apuBlob_length _ := by simp
  ppu_back d := ⟨_, rfl, by cases d.nmiFlag <;> rfl, by cases d.irqFlag <;> rfl, fun h => (Nat.lt_one_iff.1 h).symm⟩
  apu_back d := ⟨_, rfl, by cases d.irqFlag <;> rfl⟩

/-- SS7, SS8: a save state of an MMC1 session is refused by an NROM session, and one of another version by any. -/
theorem test_restore_errors :
    restore stubCodec { sampleSave with ppu := [0, 0], apu := [0], mapper := .mmc1 Mmc1.powerOn } State.reset =
      some (.error .decodeError) ∧
    restore stubCodec { sampleSave with version := 2 } State.reset = some (.error (.versionMismatch 2)) := ⟨rfl, rfl⟩

theorem witness_VersionChecked :
    (0x00 : Byte) ++ (0x00 : Byte) ++ (0x00 : Byte) ++ (0x02 : Byte) ≠ Params.default.saveStateVersion ∧
    ([0x01, 0x00, 0x00] : List Byte).length < 4 ∧
    State.reset.powered = true ∧ ({ sampleSave with version := 2 } : SaveState).version ≠ State.reset.params.saveStateVersion := by
  decide

/-- A powered source whose step completes and a fresh instance of its cartridge; save states that do not fit in each of
the four ways; a session without power. -/
theorem witness_RestoreAfterSnapshot :
    (∃ (s t v : State) (save : SaveState), snapshot stubCodec s = some save ∧ t.powered = true ∧ t.params = s.params ∧
      t.cart = s.cart ∧ SameVariant s.mapper t.mapper = true ∧ t.chrRam.isSome = s.chrRam.isSome ∧
      s.ppu.frame < stubCodec.frameValues ∧ s.stall = 0 ∧ t.fault = s.fault ∧ t.inputs = s.inputs ∧ step s = .next v) ∧
    State.reset.powered = true ∧ sampleSave.version = State.reset.params.saveStateVersion ∧
    mapperTag State.reset.params.fme7MapperId sampleSave.mapper ≠
      mapperTag State.reset.params.fme7MapperId State.reset.mapper ∧
    sampleSave.chrRam.isSome ≠ State.reset.chrRam.isSome ∧ stubCodec.ppuOfBlob [] = none ∧ stubCodec.apuOfBlob [] = none ∧
    (unpowered Params.default).powered = false := by
  obtain ⟨v, h⟩ := next_of_isNext (o := step (busyState [0xEA])) (by decide +kernel)
  exact ⟨⟨busyState [0xEA], powerOn Params.default (busyState [0xEA]).cart .nrom, v, _, rfl, rfl, rfl, rfl, rfl, rfl,
    by decide, rfl, rfl, rfl, h⟩, rfl, rfl, by decide, by decide, rfl, rfl, rfl⟩

/-- A sound state with an MMC1 cartridge, character RAM, memory in use and counters at their limits. -/
def soundState (code : List Byte) : State :=
  { busyState code with
    ram := [(0x0010, 0x80), (0xFFFF, 0x01)]
    cart := { (busyState code).cart with chr8 := 0 }
    chrRam := some [(0x1FFF, 0x07)]
    mapper := .mmc1 { Mmc1.powerOn with count := 4 }
    joy1 := ⟨0x01, 8, false⟩ }

theorem soundState_ok : ∀ code ∈ [[(0xEA : Byte)], [0x02]], StateOk (soundState code) := fun code hc => {
  data :=
    { params := ⟨by exact (by decide : 1 ≤ 3), by exact (by decide : Memory.wf []), by exact (by decide : Memory.below [] 65536)⟩
      ramWf := by exact (by decide : Memory.wf [(0x0010, 0x80), (0xFFFF, 0x01)])
      ramBelow := by exact (by decide : Memory.below [(0x0010, 0x80), (0xFFFF, 0x01)] 65536)
      cart := by fin_cases hc <;> exact ⟨by decide, by decide, by decide, by decide, by decide⟩
      chrRamPresent := by exact (by decide : (some ()).isSome = true ↔ 0 = 0)
      chrRamOk := fun m h => by cases h; decide
      cursor1 := Nat.le_refl 8
      cursor2 := Nat.zero_le 8
      mapperLegal := rfl
      fme7 := fun ⟨r, h⟩ => by cases h }
  stall := rfl }

/-- A sound state whose snapshot the codec can hold. -/
theorem witness_SaveDecodeAfterEncode_snapshot :
    ∃ s save, StateOk s ∧ snapshot stubCodec s = some save := ⟨_, _, soundState_ok [0xEA] (by simp), rfl⟩

theorem witness_StepKeepsOk : (∃ s t, StateOk s ∧ StepsTo s t) ∧ ∃ s t f, StateOk s ∧ stepSession s = .faulted f t := by
  obtain ⟨t, h⟩ := next_of_isNext (o := step (soundState [0xEA])) (by decide +kernel)
  obtain ⟨f, u, hu⟩ := faulted_of_isFaulted (r := stepSession (soundState [0x02])) (by decide +kernel)
  exact ⟨⟨_, t, soundState_ok [0xEA] (by simp), h⟩, _, u, f, soundState_ok [0x02] (by simp), hu⟩

theorem witness_StepKeepsSession : ∃ s t, StepsTo s t := by
  obtain ⟨t, h⟩ := next_of_isNext (o := step (soundState [0xEA])) (by decide +kernel)
  exact ⟨_, t, h⟩

theorem witness_StepKeepsOtherIndices : (∃ s t, StepsTo s t) ∧
    ([0x0800, 0x401F, 0x8000].all fun k : Nat => (0x0800 ≤ k ∧ k < 0x4020) ∨ 0x8000 ≤ k) = true :=
  ⟨witness_StepKeepsSession, by decide⟩

theorem witness_RegisterWriters : ∃ t,
    (Instr.inc (.zpX 0xFF)).wf = true ∧ exec (.inc (.zpX 0xFF)) (busyState []) = .next t ∧
    (Instr.inc (.zpX 0xFF)).kind ∉ [.lda, .pla, .txa, .tya, .adc, .sbc, .and, .ora, .eor] ∧
    ¬((Instr.inc (.zpX 0xFF)).kind ∈ [.asl, .lsr, .rol, .ror] ∧ (Instr.inc (.zpX 0xFF)).mode = .accumulator) ∧
    (Instr.inc (.zpX 0xFF)).kind ∉ [.ldx, .tax, .tsx, .inx, .dex] ∧
    (Instr.inc (.zpX 0xFF)).kind ∉ [.ldy, .tay, .iny, .dey] ∧
    (Instr.inc (.zpX 0xFF)).kind ∉ [.txs, .pha, .php, .pla, .plp, .jsr, .rts, .rti, .brk] :=
  ⟨_, by decide, rfl, by decide, by decide, by decide, by decide, by decide⟩

theorem witness_FlagWriters : ∃ t, exec (.sta (.abs 0x0300)) (busyState []) = .next t ∧
    (Instr.sta (.abs 0x0300)).kind ∉ [.adc, .sbc, .cmp, .cpx, .cpy, .asl, .lsr, .rol, .ror, .clc, .sec, .plp, .rti] ∧
    (Instr.sta (.abs 0x0300)).kind ∉ [.lda, .ldx, .ldy, .tax, .tay, .tsx, .txa, .tya, .pla, .adc, .sbc, .and, .ora,
      .eor, .cmp, .cpx, .cpy, .inc, .dec, .inx, .iny, .dex, .dey, .asl, .lsr, .rol, .ror, .bit, .plp, .rti] ∧
    (Instr.sta (.abs 0x0300)).kind ∉ [.adc, .sbc, .bit, .clv, .plp, .rti] ∧
    (Instr.sta (.abs 0x0300)).kind ∉ [.sei, .cli, .plp, .rti, .brk] ∧
    (Instr.sta (.abs 0x0300)).kind ∉ [.sed, .cld, .plp, .rti] ∧
    (Instr.sta (.abs 0x0300)).kind ∉ [.brk, .php, .plp, .rti] :=
  ⟨_, rfl, by decide, by decide, by decide, by decide, by decide, by decide⟩

theorem witness_EffectiveAddresses :
    (resolve (.imm 0x80) (busyState [])).1.ref = .imm 0x80 ∧ (resolve .acc (busyState [])).1.ref = .acc ∧
    (resolve (.absX 0xFFFF) (busyState [])).1.ref = .mem 0x0033 := by decide +kernel

/-- Effective addresses at the ends of the regions a store tells apart: the array, the OAM DMA trigger, the strobe, the
mapper. -/
theorem witness_StoreResults : (busyState []).ram.wf ∧
    ([0x0000, 0x1FFF, 0x4014, 0x4016, 0x4020, 0x7FFF, 0x8000, 0xFFFF].all fun a : Word =>
      (resolve (.abs a) (busyState [])).1.ref == .mem a) = true := by decide +kernel

theorem witness_StackInstructions : (busyState []).ram.wf := by decide +kernel

theorem witness_MemoryModify : (busyState []).ram.wf ∧
    ([0x0000, 0x1FFF, 0x4014, 0x4016, 0x4020, 0x7FFF, 0x8000, 0xFFFF].all fun a : Word =>
      (resolve (.abs a) (busyState [])).1.ref == .mem a) = true := by decide +kernel

theorem witness_Jumps : (busyState []).ram.wf ∧ (resolve (.ind 0x02FF) (busyState [])).1.ref = .mem 0x0000 := by
  decide +kernel

/-- A subroutine that returns at once, with a stack pointer that wraps. -/
theorem witness_RtsAfterJsr : ∃ (s t u : State), s.ram.wf ∧ s.sp = 0x00 ∧ exec (.jsr 0x9000) s = .next t ∧ u.sp = t.sp ∧
    u.ram.read (256 + s.sp.toNat) = t.ram.read (256 + s.sp.toNat) ∧
    u.ram.read (256 + (s.sp - 1).toNat) = t.ram.read (256 + (s.sp - 1).toNat) :=
  ⟨(busyState []).setSp 0x00, _, _, by decide +kernel, rfl, rfl, rfl, rfl, rfl⟩

/-- A save state with both joypads in use, empty blobs, NROM and no character RAM. -/
theorem witness_SaveEncodeAfterDecode : ∃ bytes s, decodeSave Params.default bytes = .ok s := by
  refine ⟨u32Bytes Params.default.saveStateVersion ++ ([0x00, 0x80, 0xFD, 0x00, 0x00, 0x00, 0x34] ++ (List.replicate 65536 0x00 ++
    [0x81, 0x03, 0x00, 0x00, 0x08, 0x01, 0, 0, 0, 0, 0, 0, 0, 0, 0, 0, 0, 0, 0])), ?_⟩
  have h := fun rest => parseBytes_append (List.replicate 65536 0x00) rest List.length_replicate
  generalize List.replicate 65536 (0x00 : Byte) = ram at *
  obtain ⟨s, hs⟩ : ∃ s, parseSave Params.default.fme7MapperId Params.default.saveStateVersion (
      [0x00, 0x80, 0xFD, 0x00, 0x00, 0x00, 0x34] ++ (ram ++
      [0x81, 0x03, 0x00, 0x00, 0x08, 0x01, 0, 0, 0, 0, 0, 0, 0, 0, 0, 0, 0, 0, 0])) = some (s, []) := by
    refine ⟨⟨1, 0x8000, 0xFD, 0, 0, 0, 0x34, Memory.ofBytes ram, ⟨0x81, 3, false⟩, ⟨0, 8, true⟩, [], [], .nrom, none⟩, ?_⟩
    unfold parseSave
    iterate 6 refine (Option.bind_some _ _).trans ?_
    refine (congrArg (Option.bind · _) (h _)).trans ?_
    rfl
  exact ⟨s, decodeSave_of_parseSave (params := Params.default) hs⟩

end Sys2Proof.Machine.Tests
end

/-! PROOFS of the scope family (00_scope.md R9): the invariant holds at session start, and every step keeps it. -/

namespace Sys2Proof

/-- The memory of the first `n` bytes of a list lies below `n`. -/
theorem Memory.ofBytes_take_below (bytes : List Byte) (n : Nat) : (Memory.ofBytes (bytes.take n)).below n :=
  fun c hc => (Memory.ofBytes_below _ c hc).trans_le (List.length_take_le n bytes)

end Sys2Proof

namespace Sys2Proof.Machine

/-! ### The step -/

/-- `DataOk` is kept by everything a step does. -/
theorem DataOk.keptByStep : KeptByStep DataOk where
  registers _ _ _ _ _ _ _ _ h := h.of_same rfl rfl rfl rfl rfl rfl rfl
  load _ a h := h.load a
  store _ a v h := h.store a v
  interruptFlags _ _ _ _ h := h.of_same rfl rfl rfl rfl rfl rfl rfl
  clock _ n h := h.clockDevices n
  cycles _ _ h := h.of_same rfl rfl rfl rfl rfl rfl rfl

/-- The end of a step resets `stall` (10_state.md R45). -/
@[simp] theorem finishStep_stall (n : Nat) (s : State) : (finishStep n s).stall = 0 := rfl

theorem step_stall {s t : State} (h : step s = .next t) : t.stall = 0 := by
  obtain ⟨-, -, u, -, rfl⟩ := step_next h
  exact finishStep_stall _ u

/-- The state a fault leaves is the fetched one with the mark set and `stall` 0 (31_step.md R301; log 10). -/
theorem stepSession_faulted {s t : State} {f : Fault} (h : stepSession s = .faulted f t) :
    t = { (fetch (beginStep s)).2 with stall := 0, fault := some f } := by
  unfold stepSession at h
  split at h <;> cases h
  rfl

/-- Settles O40: the data by the induction over a step (`KeptByStep`), `stall` by the end of the step or by the fault. -/
theorem stepKeepsOk : Obligations.StepKeepsOk := by
  refine ⟨fun s t hs ht => ⟨DataOk.keptByStep.step hs.data ht, step_stall ht⟩, fun s t f hs ht => ?_⟩
  have hfetch : DataOk (fetch (beginStep s)).2 := DataOk.keptByStep.fetch (DataOk.keptByStep.beginStep hs.data)
  obtain rfl := stepSession_faulted ht
  exact ⟨hfetch.of_same rfl rfl rfl rfl rfl rfl rfl, rfl⟩

/-! ### Cartridge load -/

/-- The variant of a header starts legal, and is FME-7 only where no other variant has the number (21_mappers.md R145,
R178; log 12). -/
theorem Mapper.ofId_sound {params : Params} {id : Byte} {m : Mapper} (h : Mapper.ofId params.fme7MapperId id = some m) :
    m.legal = true ∧ Fme7Numbered params m := by
  unfold Mapper.ofId at h
  split at h
  case h_6 h0 h1 h2 h3 h4 =>
    split at h <;> cases h
    rename_i hid
    simp only [imp_false] at h0 h1 h2 h3 h4
    exact ⟨rfl, fun _ => hid ▸ by omega⟩
  all_goals
    cases h
    exact ⟨rfl, nofun⟩

/-- A cartridge that loads is sound, and its variant is the one its header's number selects (21_mappers.md R143 to R146). -/
theorem loadCart_ok {params : Params} {image : List Byte} {c : Cart} {m : Mapper}
    (h : loadCart params image = .ok (c, m)) :
    CartOk c ∧ Mapper.ofId params.fme7MapperId (mapperId (image.getD 6 0) (image.getD 7 0)) = some m := by
  unfold loadCart at h
  dsimp only at h
  -- The cases left are the images with and without a trainer, which only moves the payloads (R143).
  split_ifs at h with _ _ hbanks
  all_goals
    split at h <;> cases h
    rename_i hm
    exact ⟨⟨Nat.one_le_iff_ne_zero.2 hbanks, Memory.ofBytes_wf _, Memory.ofBytes_take_below _ _, Memory.ofBytes_wf _,
      Memory.ofBytes_take_below _ _⟩, hm⟩

/-! ### Power-on -/

/-- The state power-on builds from a sound cartridge and a legal variant has sound data: `RAM_INIT`, and empty character
RAM where there is no character ROM (70_reset_and_hazards.md R520, R525). -/
theorem powerOnBefore_dataOk {params : Params} {cart : Cart} {m : Mapper} (hp : ParamsOk params) (hc : CartOk cart)
    (hm : m.legal = true) (hf : Fme7Numbered params m) : DataOk (powerOnBefore params cart m) where
  params := hp
  ramWf := hp.ramInitWf
  ramBelow := hp.ramInitBelow
  cart := hc
  chrRamPresent := by simp [powerOnBefore]
  chrRamOk r hr := by
    obtain ⟨-, hempty⟩ := Option.ite_none_right_eq_some.1 hr
    obtain rfl := Option.some.inj hempty
    exact ⟨Memory.wf_nil, by simp⟩
  cursor1 := Nat.zero_le 8
  cursor2 := Nat.zero_le 8
  mapperLegal := hm
  fme7 := hf

theorem powerOn_ok {params : Params} {cart : Cart} {m : Mapper} (hp : ParamsOk params) (hc : CartOk cart)
    (hm : m.legal = true) (hf : Fme7Numbered params m) : StateOk (powerOn params cart m) := by
  rw [powerOn_eq]
  exact ⟨(powerOnBefore_dataOk hp hc hm hf).of_same rfl rfl rfl rfl rfl rfl rfl, rfl⟩

theorem sessionStart_ok {params : Params} {image : List Byte} {s : State} (hp : ParamsOk params)
    (h : sessionStart params image = .ok s) : StateOk s := by
  unfold sessionStart at h
  split at h <;> cases h
  rename_i cart m hload
  obtain ⟨hc, hid⟩ := loadCart_ok hload
  obtain ⟨hm, hf⟩ := Mapper.ofId_sound hid
  exact powerOn_ok hp hc hm hf

theorem paramsDefault_ok : ParamsOk Params.default := ⟨by decide, Memory.wf_nil, by simp [Params.default]⟩

theorem cartBlank_ok : CartOk Cart.blank :=
  ⟨le_refl 1, Memory.wf_nil, by simp [Cart.blank], Memory.wf_nil, by simp [Cart.blank]⟩

theorem reset_ok : StateOk State.reset := by
  rw [reset_eq_powerOn]
  exact powerOn_ok paramsDefault_ok cartBlank_ok rfl nofun

/-- Settles O39: reset is power-on of the blank cartridge, and a session start is power-on of one that loads. -/
theorem resetOk : Obligations.ResetOk := ⟨reset_ok, fun _ _ _ hp h => sessionStart_ok hp h⟩

end Sys2Proof.Machine

/-! PROOFS of the state family (10_state.md): what no step changes of the session and of the byte array, and which
instructions write each register and each flag. -/

namespace Sys2Proof.Machine

/-! ### The session's constants and the mapper's variant -/

/-- `t` is of the session of `s`: the same constants, and a mapper of the same variant (10_state.md R50, R53 to R55). -/
def OfSession (s t : State) : Prop := SameSession s t ∧ SameVariant s.mapper t.mapper = true

theorem SameSession.refl (s : State) : SameSession s s := ⟨rfl, rfl, rfl, rfl⟩

theorem OfSession.refl (s : State) : OfSession s s := ⟨SameSession.refl s, SameVariant.refl s.mapper⟩

section
variable {s t u : State} (h : OfSession s t)
include h

theorem OfSession.trans (h' : OfSession t u) : OfSession s u := by
  obtain ⟨⟨hc, hp, hw, hf⟩, hv⟩ := h
  obtain ⟨⟨hc', hp', hw', hf'⟩, hv'⟩ := h'
  exact ⟨⟨hc'.trans hc, hp'.trans hp, hw'.trans hw, hf'.trans hf⟩, SameVariant.trans hv hv'⟩

/-- Whatever has the session's fields of `t` is of the session of `t`. -/
theorem OfSession.of_same (hc : u.cart = t.cart) (hp : u.params = t.params) (hw : u.powered = t.powered)
    (hf : u.fault = t.fault) (hm : u.mapper = t.mapper) : OfSession s u :=
  h.trans ⟨⟨hc, hp, hw, hf⟩, by rw [hm]; exact SameVariant.refl t.mapper⟩

end

theorem Clocked.sameSession {s t : State} (h : Clocked s t) : SameSession s t := by
  rw [h.rest]
  exact SameSession.refl s

theorem Clocked.ofSession {s t : State} (h : Clocked s t) : OfSession s t := ⟨h.sameSession, h.variant⟩

/-- A bus store reaches the mapper at most as a write of its registers (21_mappers.md R155). -/
theorem store_variant (a : Word) (v : Byte) (s : State) : SameVariant s.mapper (store a v s).mapper = true := by
  unfold store
  split
  case h_3 => rw [oamDma, State.addStall_mapper, (oamCopy_devicesOnly v 256 s).mapper_eq]; exact SameVariant.refl _
  case h_8 => exact Mapper.store_variant s.mapper a v
  all_goals exact SameVariant.refl s.mapper

theorem store_sameSession (a : Word) (v : Byte) (s : State) : SameSession s (store a v s) := by
  have hk := store_keeps a v s
  dsimp only at hk
  rw [hk]
  exact SameSession.refl s

theorem store_ofSession (a : Word) (v : Byte) (s : State) : OfSession s (store a v s) :=
  ⟨store_sameSession a v s, store_variant a v s⟩

/-- Being of the session of `s` is kept by everything a step does. -/
theorem OfSession.keptByStep (s : State) : KeptByStep (OfSession s) where
  registers _ _ _ _ _ _ _ _ h := h.of_same rfl rfl rfl rfl rfl
  load t a h := h.trans (load_devicesOnly a t).clocked.ofSession
  store t a v h := h.trans (store_ofSession a v t)
  interruptFlags _ _ _ _ h := h.of_same rfl rfl rfl rfl rfl
  clock t n h := h.trans (clockDevices_clocked n t).ofSession
  cycles _ _ h := h.of_same rfl rfl rfl rfl rfl

/-- Settles O41, by the induction over a step (`KeptByStep`): only a store and the IRQ counter reach the mapper, and
both keep its variant. -/
theorem stepKeepsSession : Obligations.StepKeepsSession :=
  fun s _ h => (OfSession.keptByStep s).step (OfSession.refl s) h

/-! ### The indices of the byte array the bus does not reach -/

/-- A bus store leaves every index of the array that its address does not map to (20_memory.md R83, R85, R94). -/
theorem store_ram_read_other {a : Word} {k : Nat} (hk : busRegion a ≠ .ram k) (v : Byte) (s : State) :
    (store a v s).ram.read k = s.ram.read k := by
  unfold store
  split
  case h_1 j hj => exact Memory.read_write_other s.ram (fun e => hk (hj.trans (congrArg Region.ram e.symm))) v
  case h_3 => rw [oamDma, State.addStall_ram, (oamCopy_devicesOnly v 256 s).ram_eq]
  all_goals rfl

theorem Clocked.ram_eq {s t : State} (h : Clocked s t) : t.ram = s.ram := by rw [h.rest]

/-- An index no address maps to holds its byte through everything a step does. -/
theorem ramRead_keptByStep {k : Nat} (hk : ∀ a : Word, busRegion a ≠ .ram k) (v : Byte) :
    KeptByStep fun s => s.ram.read k = v where
  registers _ _ _ _ _ _ _ _ h := h
  load s a h := by rw [(load_devicesOnly a s).ram_eq]; exact h
  store s a w h := (store_ram_read_other (hk a) w s).trans h
  interruptFlags _ _ _ _ h := h
  clock s n h := by rw [(clockDevices_clocked n s).ram_eq]; exact h
  cycles _ _ h := h

/-- Settles O42, by the induction over a step (`KeptByStep`): the indices the bus reaches lie in the two windows
(`busRegion_ram_index`). -/
theorem stepKeepsOtherIndices : Obligations.StepKeepsOtherIndices := by
  intro s t k h hk
  have hout : ∀ a : Word, busRegion a ≠ .ram k := fun a ha => by
    have := busRegion_ram_index ha
    omega
  exact (ramRead_keptByStep hout (s.ram.read k)).step rfl h

/-! ### Which instructions write each register and each flag -/

/-- The four registers an instruction writes besides `PC` and `P` (10_state.md R31 to R34). -/
inductive Reg where
  | a | x | y | sp

/-- Read one register. -/
def State.reg (s : State) : Reg → Byte
  | .a => s.a
  | .x => s.x
  | .y => s.y
  | .sp => s.sp

/-- Write one register. -/
def State.setReg (s : State) : Reg → Byte → State
  | .a => s.setA
  | .x => s.setX
  | .y => s.setY
  | .sp => s.setSp

theorem State.setReg_reg_other (s : State) {r q : Reg} (h : q ≠ r) (v : Byte) : (s.setReg r v).reg q = s.reg q := by
  cases r <;> cases q <;> first | rfl | exact absurd rfl h

@[simp] theorem State.setReg_p (s : State) (r : Reg) (v : Byte) : (s.setReg r v).p = s.p := by cases r <;> rfl

/-- The kinds that write a register in every addressing mode (10_state.md R31 to R34). -/
def Reg.writers : Reg → List Kind
  | .a => [.lda, .pla, .txa, .tya, .adc, .sbc, .and, .ora, .eor]
  | .x => [.ldx, .tax, .tsx, .inx, .dex]
  | .y => [.ldy, .tay, .iny, .dey]
  | .sp => [.txs, .pha, .php, .pla, .plp, .jsr, .rts, .rti, .brk]

/-- The kinds that write a flag (10_state.md R37 to R43). -/
def Flag.writers : Flag → List Kind
  | .c => [.adc, .sbc, .cmp, .cpx, .cpy, .asl, .lsr, .rol, .ror, .clc, .sec, .plp, .rti]
  | .z | .n => [.lda, .ldx, .ldy, .tax, .tay, .tsx, .txa, .tya, .pla, .adc, .sbc, .and, .ora, .eor, .cmp, .cpx, .cpy,
      .inc, .dec, .inx, .iny, .dex, .dey, .asl, .lsr, .rol, .ror, .bit, .plp, .rti]
  | .v => [.adc, .sbc, .bit, .clv, .plp, .rti]
  | .i => [.sei, .cli, .plp, .rti, .brk]
  | .d => [.sed, .cld, .plp, .rti]
  | .b | .u => [.brk, .php, .plp, .rti]

/-- `t` is `s` in every register and every flag that `i` does not write. An accumulator operand of any kind makes `A`
one that it may write. -/
structure WritesOnly (i : Instr) (s t : State) : Prop where
  reg : ∀ r, i.kind ∉ r.writers → ¬(r = .a ∧ i.mode = .accumulator) → t.reg r = s.reg r
  flag : ∀ f, i.kind ∉ f.writers → t.flag f = s.flag f

theorem WritesOnly.refl (i : Instr) (s : State) : WritesOnly i s s := ⟨fun _ _ _ => rfl, fun _ _ => rfl⟩

section
variable {i : Instr} {s t u : State} (h : WritesOnly i s t)
include h

theorem WritesOnly.of_same (ha : u.a = t.a) (hx : u.x = t.x) (hy : u.y = t.y) (hsp : u.sp = t.sp) (hp : u.p = t.p) :
    WritesOnly i s u where
  reg r hk hacc := by
    rw [← h.reg r hk hacc]
    cases r <;> assumption
  flag f hk := by rw [← h.flag f hk, State.flag, hp, State.flag]

theorem WritesOnly.devices (hd : DevicesOnly t u) : WritesOnly i s u :=
  h.of_same hd.a_eq hd.x_eq hd.y_eq hd.sp_eq hd.p_eq

theorem WritesOnly.setPc (v : Word) : WritesOnly i s (t.setPc v) := h.of_same rfl rfl rfl rfl rfl

theorem WritesOnly.addStall (n : Nat) : WritesOnly i s (t.addStall n) := h.of_same rfl rfl rfl rfl rfl

theorem WritesOnly.store (a : Word) (v : Byte) : WritesOnly i s (store a v t) := by
  have hk := store_keeps a v t
  dsimp only at hk
  rw [hk]
  exact h.of_same rfl rfl rfl rfl rfl

/-! The writes: each needs `i` among the writers of what it writes. -/

theorem WritesOnly.setReg (r : Reg) (v : Byte) (hr : i.kind ∈ r.writers := by simp [Instr.kind, Reg.writers]) :
    WritesOnly i s (t.setReg r v) where
  reg q hk hacc := by
    have hne : q ≠ r := fun e => hk (e ▸ hr)
    rw [State.setReg_reg_other t hne, h.reg q hk hacc]
  flag f hk := by rw [← h.flag f hk, State.flag, State.setReg_p, State.flag]

theorem WritesOnly.setFlag (f : Flag) (b : Bool) (hf : i.kind ∈ f.writers := by simp [Instr.kind, Flag.writers]) :
    WritesOnly i s (t.setFlag f b) where
  reg r hk hacc := by
    rw [← h.reg r hk hacc]
    cases r <;> rfl
  flag g hk := by
    have hne : g ≠ f := fun e => hk (e ▸ hf)
    rw [← h.flag g hk, State.flag, State.setFlag_p, getFlag_putFlag, if_neg hne, State.flag]

/-- N and Z have the same writers, so one membership serves both. -/
theorem WritesOnly.setNZ (v : Byte) (hz : i.kind ∈ Flag.z.writers := by simp [Instr.kind, Flag.writers]) :
    WritesOnly i s (t.setNZ v) :=
  (h.setFlag .n (v.getLsbD 7) hz).setFlag .z (v == 0) hz

theorem WritesOnly.setCompare (r m : Byte) (hc : i.kind ∈ Flag.c.writers := by simp [Instr.kind, Flag.writers])
    (hz : i.kind ∈ Flag.z.writers := by simp [Instr.kind, Flag.writers]) :
    WritesOnly i s (t.setP (putCompare t.p r m)) :=
  ((h.setFlag .c (m.toNat ≤ r.toNat) hc).setFlag .z (r == m) hz).setFlag .n ((r - m).getLsbD 7) hz

theorem WritesOnly.setP (v : Byte) (hf : ∀ f : Flag, i.kind ∈ f.writers := by intro f; cases f <;> decide) :
    WritesOnly i s (t.setP v) where
  reg r hk hacc := by
    rw [← h.reg r hk hacc]
    cases r <;> rfl
  flag f hk := absurd (hf f) hk

theorem WritesOnly.push (v : Byte) (hsp : i.kind ∈ Reg.sp.writers := by simp [Instr.kind, Reg.writers]) :
    WritesOnly i s (push v t) :=
  (h.store _ v).setReg .sp _ hsp

theorem WritesOnly.push16 (w : Word) (hsp : i.kind ∈ Reg.sp.writers := by simp [Instr.kind, Reg.writers]) :
    WritesOnly i s (push16 w t) :=
  (h.push _ hsp).push _ hsp

theorem WritesOnly.pull (hsp : i.kind ∈ Reg.sp.writers := by simp [Instr.kind, Reg.writers]) :
    WritesOnly i s (pull t).2 :=
  (h.setReg .sp _ hsp).devices (load_devicesOnly _ _)

theorem WritesOnly.pull16 (hsp : i.kind ∈ Reg.sp.writers := by simp [Instr.kind, Reg.writers]) :
    WritesOnly i s (pull16 t).2 :=
  (h.pull hsp).pull hsp

theorem WritesOnly.enterHandler (brk : Bool) (vector : Word)
    (hsp : i.kind ∈ Reg.sp.writers := by simp [Instr.kind, Reg.writers])
    (hb : i.kind ∈ Flag.b.writers := by simp [Instr.kind, Flag.writers])
    (hi : i.kind ∈ Flag.i.writers := by simp [Instr.kind, Flag.writers]) :
    WritesOnly i s (enterHandler brk vector t) :=
  ((((((h.setFlag .b brk hb).setFlag .u true hb).push16 _ hsp).push _ hsp).setFlag .i true hi).devices
    (read16_devicesOnly vector _)).setPc _

theorem WritesOnly.branch (cond : Bool) (offset : Byte) : WritesOnly i s (branch cond offset t) := by
  unfold Machine.branch
  dsimp only
  split
  · split
    · exact ((h.addStall 1).addStall 1).setPc _
    · exact (h.addStall 1).setPc _
  · exact h

/-- ADC and SBC write C, V, `A`, N and Z (41_arith_logic.md R360, R361). -/
theorem WritesOnly.addToA (m : Byte) (overflow : Bool)
    (hc : i.kind ∈ Flag.c.writers := by simp [Instr.kind, Flag.writers])
    (hv : i.kind ∈ Flag.v.writers := by simp [Instr.kind, Flag.writers])
    (ha : i.kind ∈ Reg.a.writers := by simp [Instr.kind, Reg.writers])
    (hz : i.kind ∈ Flag.z.writers := by simp [Instr.kind, Flag.writers]) :
    WritesOnly i s (addToA m overflow t) :=
  (((h.setFlag .c _ hc).setFlag .v overflow hv).setReg .a _ ha).setNZ _ hz

/-! Operands: only one that resolves to the accumulator reaches `A`. -/

theorem WritesOnly.readPlain (o : Operand) : WritesOnly i s (readPlain o t).2 := h.devices (readPlain_devicesOnly o t)

theorem WritesOnly.readStalling (o : Operand) : WritesOnly i s (readStalling o t).2 := by
  rw [readStalling_eq]
  exact (h.readPlain o).addStall _

theorem WritesOnly.storeRef (r : Ref) (v : Byte) (hr : r = .acc → i.mode = .accumulator) :
    WritesOnly i s (storeRef r v t) := by
  cases r with
  | acc =>
    refine ⟨fun q hk hacc => ?_, h.flag⟩
    have hne : q ≠ .a := fun e => hacc ⟨e, hr rfl⟩
    exact (State.setReg_reg_other t hne v).trans (h.reg q hk hacc)
  | imm _ => exact h
  | mem ea => exact h.store ea v

end

/-- Only the accumulator operand resolves to the accumulator (30_encoding.md R248). -/
theorem mode_of_resolve_acc {o : Operand} {s : State} (h : (resolve o s).1.ref = .acc) : o.mode = .accumulator := by
  cases o with
  | acc => rfl
  | _ => cases h

section
variable {i : Instr} {o : Operand} (hm : i.mode = o.mode) (s : State)
include hm

theorem writeOperand_writesOnly (v : Byte) : WritesOnly i s (writeOperand o v s) :=
  ((WritesOnly.refl i s).devices (resolve_devicesOnly o s)).storeRef _ v fun e => hm.trans (mode_of_resolve_acc e)

theorem modifyOperand_writesOnly (f : Byte → Byte) : WritesOnly i s (modifyOperand o f s).2 :=
  ((WritesOnly.refl i s).devices ((resolve_devicesOnly o s).trans (loadRef_devicesOnly _ _))).storeRef _ _
    fun e => hm.trans (mode_of_resolve_acc e)

end

/-- Every instruction leaves the registers and flags it is no writer of: the split over the 57 kinds, each case the
instruction's writes in order. -/
theorem exec_writesOnly {i : Instr} {s t : State} (ht : exec i s = .next t) : WritesOnly i s t := by
  have h := WritesOnly.refl i s
  cases i
  case lda o => cases ht; exact ((h.readStalling o).setReg .a _).setNZ _
  case ldx o => cases ht; exact ((h.readStalling o).setReg .x _).setNZ _
  case ldy o => cases ht; exact ((h.readStalling o).setReg .y _).setNZ _
  case and o | ora o | eor o => cases ht; exact ((h.readStalling o).setReg .a _).setNZ _
  case adc o | sbc o => cases ht; exact (h.readStalling o).addToA _ _
  case cmp o => cases ht; exact (h.readStalling o).setCompare _ _
  case cpx o | cpy o => cases ht; exact (h.readPlain o).setCompare _ _
  case bit o => cases ht; exact (((h.readPlain o).setFlag .z _).setFlag .n _).setFlag .v _
  case sta o | stx o | sty o => cases ht; exact writeOperand_writesOnly rfl s _
  case inc o | dec o => cases ht; exact (modifyOperand_writesOnly rfl s _).setNZ _
  case asl o | lsr o | rol o | ror o => cases ht; exact ((modifyOperand_writesOnly rfl s _).setFlag .c _).setNZ _
  case tax | tsx | inx | dex => cases ht; exact (h.setReg .x _).setNZ _
  case tay | iny | dey => cases ht; exact (h.setReg .y _).setNZ _
  case txa | tya => cases ht; exact (h.setReg .a _).setNZ _
  case txs => cases ht; exact h.setReg .sp _
  case pha => cases ht; exact h.push _
  case php => cases ht; exact ((h.setFlag .b true).setFlag .u true).push _
  case pla => cases ht; exact (h.pull.setReg .a _).setNZ _
  case plp => cases ht; exact h.pull.setP _
  case jsr w => cases ht; exact (h.push16 _).setPc w
  case rts => cases ht; exact h.pull16.setPc _
  case rti => cases ht; exact ((h.pull.setP _).pull16).setPc _
  case brk => cases ht; exact (h.setPc _).enterHandler true irqVector
  case jmp o =>
    have hr := h.devices (resolve_devicesOnly o s)
    simp only [exec, execJmp] at ht
    split at ht <;> cases ht
    · exact hr.setPc _
    · exact hr
    · exact hr
  case invalid b =>
    simp only [exec, execInvalid] at ht
    split at ht <;> cases ht
    exact h.setPc _
  case nop => cases ht; exact h
  case bcc b | bcs b | beq b | bmi b | bne b | bpl b | bvc b | bvs b => cases ht; exact h.branch _ b
  case clc | sec => cases ht; exact h.setFlag .c _
  case cld | sed => cases ht; exact h.setFlag .d _
  case cli | sei => cases ht; exact h.setFlag .i _
  case clv => cases ht; exact h.setFlag .v _

/-- Only the shifts and rotates list Accumulator among their modes (the "Encoding" lines of 41_arith_logic.md). -/
theorem Instr.shift_of_accumulator {i : Instr} (hwf : i.wf = true) (hm : i.mode = .accumulator) :
    i.kind ∈ [.asl, .lsr, .rol, .ror] := by
  have hmode : Mode.accumulator ∈ i.kind.modes :=
    hm ▸ List.contains_iff_mem.1 (Bool.and_eq_true_iff.1 hwf).1
  generalize i.kind = k at hmode
  cases k <;> revert hmode <;> decide

/-- Settles O43: `A` of an accumulator operand aside, the writers are the listed ones (`exec_writesOnly`), and a
well-formed instruction with an accumulator operand is a shift. -/
theorem registerWriters : Obligations.RegisterWriters := by
  intro i s t hwf h
  have hw := exec_writesOnly h
  refine ⟨fun hk hacc => hw.reg .a hk ?_, fun hk => hw.reg .x hk (by simp), fun hk => hw.reg .y hk (by simp),
    fun hk => hw.reg .sp hk (by simp)⟩
  rintro ⟨-, hm⟩
  exact hacc ⟨Instr.shift_of_accumulator hwf hm, hm⟩

/-- Settles O44: the writers of each flag are the listed ones (`exec_writesOnly`). -/
theorem flagWriters : Obligations.FlagWriters := by
  intro i s t h
  obtain ⟨-, hf⟩ := exec_writesOnly h
  exact ⟨hf .c, fun hk => ⟨hf .z hk, hf .n hk⟩, hf .v, hf .i, hf .d, fun hk => ⟨hf .b hk, hf .u hk⟩⟩

end Sys2Proof.Machine

/-! PROOFS of the memory family (20_memory.md): the two partitions row by row, what a bus access changes, OAM DMA, the
controller ports, and what the devices do inside their clocks. -/

namespace Sys2Proof.Machine

/-! ### The rows of the partition -/

theorem busRegion_apu {a : Word} (h1 : 0x4000 ≤ a.toNat) (h2 : a.toNat ≤ 0x4017) (hdma : a ≠ 0x4014)
    (hjoy1 : a ≠ 0x4016) (hjoy2 : a ≠ 0x4017) : busRegion a = .apu (BitVec.ofNat 5 (a.toNat - 0x4000)) := by
  have hbits : a.extractLsb' 0 5 = BitVec.ofNat 5 (a.toNat - 0x4000) := by
    apply BitVec.eq_of_toNat_eq
    simp only [BitVec.extractLsb'_toNat, Nat.shiftRight_zero, BitVec.toNat_ofNat]
    omega
  simp only [busRegion]
  rw [if_neg (by omega), if_neg (by omega), if_neg hdma, if_neg hjoy1, if_neg hjoy2, if_pos h2, hbits]

theorem busRegion_unassigned {a : Word} (h1 : 0x4018 ≤ a.toNat) (h2 : a.toNat ≤ 0x401F) :
    busRegion a = .unassigned := by
  have e1 : a ≠ 0x4014 := by rintro rfl; simp at h1
  have e2 : a ≠ 0x4016 := by rintro rfl; simp at h1
  have e3 : a ≠ 0x4017 := by rintro rfl; simp at h1
  simp only [busRegion]
  rw [if_neg (by omega), if_neg (by omega), if_neg e1, if_neg e2, if_neg e3, if_neg (by omega), if_pos h2]

theorem busRegion_joyStrobe {a : Word} : busRegion a = .joyStrobe ↔ a = 0x4016 := by
  constructor
  · intro h
    simp only [busRegion] at h
    split_ifs at h
    assumption
  · rintro rfl
    rfl

theorem busRegion_prg_iff {a : Word} : busRegion a = .prg ↔ 0x8000 ≤ a.toNat := ⟨prg_of_busRegion, busRegion_prg⟩

section
variable {a : Word}

theorem load_ppu {i : BitVec 3} (h : busRegion a = .ppu i) (s : State) : load a s = ppuRead i s := by simp [load, h]

theorem load_apu {i : BitVec 5} (h : busRegion a = .apu i) (s : State) : load a s = apuRead i s := by simp [load, h]

theorem load_unassigned (h : busRegion a = .unassigned) (s : State) : load a s = (0x00, s) := by simp [load, h]

theorem store_ppu {i : BitVec 3} (h : busRegion a = .ppu i) (v : Byte) (s : State) : store a v s = ppuWrite i v s := by
  simp [store, h]

theorem store_apu {i : BitVec 5} (h : busRegion a = .apu i) (v : Byte) (s : State) : store a v s = apuWrite i v s := by
  simp [store, h]

theorem store_unassigned (h : busRegion a = .unassigned) (v : Byte) (s : State) : store a v s = s := by
  simp [store, h]

end

/-! ### Mirrors -/

/-- The first 2 KiB, zero page and stack page included, stand at their own addresses (20_memory.md R88). -/
theorem busRegion_internalRam {a : Word} (ha : a.toNat ≤ 0x07FF) : busRegion a = .ram a.toNat := by
  rw [busRegion_low (by omega), Nat.mod_eq_of_lt (by omega)]

/-- Each of the four copies of an internal RAM address stands at that address (20_memory.md R86). -/
theorem busRegion_ramMirror {a : Word} {k : Nat} (ha : a.toNat ≤ 0x07FF) (hk : k ≤ 3) :
    busRegion (a + BitVec.ofNat 16 (k * 0x800)) = .ram a.toNat := by
  have hnat : (a + BitVec.ofNat 16 (k * 0x800)).toNat = a.toNat + k * 0x800 := by
    rw [BitVec.toNat_add, BitVec.toNat_ofNat]
    omega
  rw [busRegion_low (by omega), hnat]
  congr 1
  omega

/-- An address of the PPU window mirrors the one of 0x2000 to 0x2007 with its three low bits (20_memory.md R87). -/
theorem busRegion_ppuMirror {a : Word} (h1 : 0x2000 ≤ a.toNat) (h2 : a.toNat ≤ 0x3FFF) :
    busRegion (0x2000 ||| (a &&& 7)) = busRegion a := by
  have hlow : (a &&& 7).toNat = a.toNat % 8 := by
    rw [BitVec.toNat_and]
    exact Nat.and_two_pow_sub_one_eq_mod a.toNat 3
  have hnat : (0x2000 ||| (a &&& 7)).toNat = 0x2000 + a.toNat % 8 := by
    have hlt : a.toNat % 8 < 2 ^ 13 := by omega
    rw [BitVec.toNat_or, hlow]
    exact (Nat.two_pow_add_eq_or_of_lt hlt 1).symm
  rw [busRegion_ppu h1 h2, busRegion_ppu (by omega) (by omega)]
  congr 1
  apply BitVec.eq_of_toNat_eq
  simp only [BitVec.extractLsb'_toNat, Nat.shiftRight_zero, hnat]
  omega

/-- Settles O18: the mirrors of an address are of one region (`busRegion_ramMirror`, `busRegion_ppuMirror`). -/
theorem mirrors : Obligations.Mirrors := by
  refine ⟨fun a s k ha hk => ?_, fun a v s j k ha hj hk hwf => ?_,
    fun a ha => busRegion_internalRam (by omega), fun a s h1 h2 => ?_⟩
  · rw [load_ram (busRegion_ramMirror ha hk), load_ram (busRegion_internalRam ha)]
  · rw [store_ram v (busRegion_ramMirror ha hj), load_ram (busRegion_ramMirror ha hk)]
    exact Memory.read_write_same hwf _ v
  · have hreg := busRegion_ppu h1 h2
    have hmirror := (busRegion_ppuMirror h1 h2).trans hreg
    exact ⟨by rw [load_ppu hreg, load_ppu hmirror], fun v => by rw [store_ppu hreg, store_ppu hmirror]⟩

/-! ### What a store changes -/

/-- Only a store at 0x8000 and up reaches the mapper (20_memory.md R95). -/
theorem store_mapper (a : Word) (v : Byte) (s : State) :
    (store a v s).mapper = if 0x8000 ≤ a.toNat then s.mapper.store a v else s.mapper := by
  have hprg := busRegion_prg_iff (a := a)
  unfold store
  split
  case h_8 h => rw [if_pos (hprg.1 h)]; rfl
  all_goals
    rename_i h
    have hlow : ¬0x8000 ≤ a.toNat := fun hge => by rw [hprg.2 hge] at h; cases h
    rw [if_neg hlow]
  case h_3 => exact (oamCopy_devicesOnly v 256 s).mapper_eq
  all_goals rfl

/-- But for the OAM DMA, only a store at 0x4016 reaches the joypads (20_memory.md R106). -/
theorem store_joypads {a : Word} (hdma : a ≠ 0x4014) (v : Byte) (s : State) :
    (store a v s).joy1 = (if a = 0x4016 then s.joy1.strobe v else s.joy1) ∧
      (store a v s).joy2 = (if a = 0x4016 then s.joy2.strobe v else s.joy2) := by
  have hstrobe := busRegion_joyStrobe (a := a)
  unfold store
  split
  case h_3 h => exact absurd (busRegion_oamDma.1 h) hdma
  case h_4 h => rw [if_pos (hstrobe.1 h), if_pos (hstrobe.1 h)]; exact ⟨rfl, rfl⟩
  all_goals
    rename_i h
    have hne : a ≠ 0x4016 := fun e => by rw [hstrobe.2 e] at h; cases h
    rw [if_neg hne, if_neg hne]
    exact ⟨rfl, rfl⟩

theorem DevicesOnly.buttons_eq {s t : State} (h : DevicesOnly s t) :
    t.joy1.buttons = s.joy1.buttons ∧ t.joy2.buttons = s.joy2.buttons :=
  ⟨by rw [h.joy1], by rw [h.joy2]⟩

/-- A store, an OAM DMA included, reaches the devices at most as recorded events, queued reads, and the ports' cursors
and latches (20_memory.md R96, R99; log 6). -/
theorem store_devices (a : Word) (v : Byte) (s : State) :
    let t := store a v s
    (t.joy1.buttons = s.joy1.buttons ∧ t.joy2.buttons = s.joy2.buttons) ∧
      t.ppu = { s.ppu with events := t.ppu.events } ∧ t.apu = { s.apu with events := t.apu.events } ∧
      t.inputs.ppuClocks = s.inputs.ppuClocks ∧ t.inputs.apuClocks = s.inputs.apuClocks := by
  unfold store
  split
  case h_3 =>
    have h := oamCopy_devicesOnly v 256 s
    exact ⟨h.buttons_eq, h.ppu, h.apu, h.ppuClocks, h.apuClocks⟩
  all_goals exact ⟨⟨rfl, rfl⟩, rfl, rfl, rfl, rfl⟩

/-- Settles O19, from what a store does to each part of the state. -/
theorem storeEffect : Obligations.StoreEffect := fun ea v s hwf =>
  have ⟨hbuttons, hppu, hapu, hinputs⟩ := store_devices ea v s
  { ram := store_ram_read hwf ea v
    mapper := store_mapper ea v s
    stall := store_stall ea v s
    joypads := fun hdma => store_joypads hdma v s
    buttons := hbuttons
    ppu := hppu
    apu := hapu
    inputs := hinputs
    rest := store_keeps ea v s }

/-! ### What a load changes -/

/-- The addresses whose loads have no side effect (20_memory.md R115). -/
def SideEffectFree (a : Word) : Prop := a.toNat ≤ 0x1FFF ∨ a = 0x4014 ∨ 0x4018 ≤ a.toNat

/-- A load at such an address answers from the byte array, the cartridge or a constant: no device is called, whatever
the PPU is. -/
theorem load_setPpu_of_sideEffectFree {a : Word} (ha : SideEffectFree a) (s : State) (d : Ppu) :
    load a (s.setPpu d) = ((load a s).1, s.setPpu d) := by
  rcases ha with hlow | rfl | hhigh
  · rw [load_ram (busRegion_low hlow), load_ram (busRegion_low hlow)]; rfl
  · rfl
  · by_cases hun : a.toNat ≤ 0x401F
    · rw [load_unassigned (busRegion_unassigned hhigh hun), load_unassigned (busRegion_unassigned hhigh hun)]
    by_cases hram : a.toNat ≤ 0x7FFF
    · have hreg := busRegion_cartRam (a := a) (by omega) hram
      rw [load_ram hreg, load_ram hreg]; rfl
    · have hreg := busRegion_prg (a := a) (by omega)
      rw [load_prg hreg, load_prg hreg]; rfl

/-- Settles O20: every load is on the devices' side (`load_devicesOnly`), and the rest calls no device. -/
theorem loadEffect : Obligations.LoadEffect := fun a s =>
  ⟨load_devicesOnly a s, fun ha => congrArg Prod.snd (load_setPpu_of_sideEffectFree ha s s.ppu)⟩

/-! ### OAM DMA -/

/-- The event of the OAM DMA's copy number `i`, as seen from the state at its start. -/
def oamEvent (pg : Byte) (s : State) (i : Nat) : PpuEvent :=
  .write s.ppu.clocks 4 (load (BitVec.ofNat 16 (pg.toNat * 256 + i)) s).1

/-- The address of copy number `n` (20_memory.md R110). -/
theorem joinWord_ofNat (pg : Byte) {n : Nat} (hn : n < 256) :
    joinWord pg (BitVec.ofNat 8 n) = BitVec.ofNat 16 (pg.toNat * 256 + n) := by
  have hpg := pg.isLt
  apply BitVec.eq_of_toNat_eq
  rw [toNat_joinWord, BitVec.toNat_ofNat, BitVec.toNat_ofNat]
  omega

/-- From a page whose loads have no side effect, the first `n` copies are `n` recorded writes and no more. -/
theorem oamCopy_eq {pg : Byte} (s : State) {n : Nat}
    (hpage : ∀ i < n, SideEffectFree (joinWord pg (BitVec.ofNat 8 i))) (hn : n ≤ 256) :
    oamCopy pg n s = s.setPpu { s.ppu with
      events := ((List.range n).map (oamEvent pg s)).reverse ++ s.ppu.events } := by
  induction n with
  | zero => rfl
  | succ n ih =>
    have hload := load_setPpu_of_sideEffectFree (hpage n (Nat.lt_succ_self n)) s
    simp only [oamCopy, ih (fun i hi => hpage i (by omega)) (by omega), hload, List.range_succ, List.map_append,
      List.map_singleton, List.reverse_append, List.reverse_singleton, oamEvent, ← joinWord_ofNat pg hn]
    rfl

theorem sideEffectFree_page {pg : Byte} (hpg : pg.toNat < 0x20 ∨ 0x41 ≤ pg.toNat) (lo : Byte) :
    SideEffectFree (joinWord pg lo) := by
  have hlo := lo.isLt
  have hnat := toNat_joinWord pg lo
  rcases hpg with h | h
  · exact .inl (by omega)
  · exact .inr (.inr (by omega))

theorem store_4014 (pg : Byte) (s : State) : store 0x4014 pg s = (oamCopy pg 256 s).addStall 514 := rfl

/-- Settles O21: 256 copies without side effects (`oamCopy_eq`), then the stall. -/
theorem oamDmaCopies : Obligations.OamDmaCopies := fun pg s hpg => by
  rw [store_4014, oamCopy_eq s (fun _ _ => sideEffectFree_page hpg _) le_rfl]
  rfl

/-- A recorded write of PPU register 4, what each copy of the OAM DMA leaves (20_memory.md R110). -/
def isOamWrite : PpuEvent → Bool
  | .write _ 4 _ => true
  | _ => false

/-- How many writes of PPU register 4 the PPU has recorded. -/
def oamWrites (s : State) : Nat := s.ppu.events.countP isOamWrite

theorem load_oamWrites (a : Word) (s : State) : oamWrites (load a s).2 = oamWrites s := by
  unfold load
  split
  case h_2 => exact List.countP_cons_of_neg Bool.false_ne_true
  all_goals rfl

theorem ppuWrite_oamWrites (v : Byte) (s : State) : oamWrites (ppuWrite 4 v s) = oamWrites s + 1 :=
  List.countP_cons_of_pos rfl

theorem oamCopy_oamWrites (pg : Byte) (n : Nat) (s : State) : oamWrites (oamCopy pg n s) = oamWrites s + n := by
  induction n with
  | zero => rfl
  | succ n ih =>
    simp only [oamCopy]
    rw [ppuWrite_oamWrites, load_oamWrites, ih]
    rfl

/-- Settles O22: each copy is a load, which records no write, and one write of register 4 (`oamCopy_oamWrites`). -/
theorem oamDmaAnyPage : Obligations.OamDmaAnyPage := fun pg s => by
  have hdev := oamCopy_devicesOnly pg 256 s
  refine ⟨congrArg (· + 514) hdev.stall_eq, oamCopy_oamWrites pg 256 s, ?_⟩
  rw [store_4014, ← hdev.stall_eq]
  exact hdev

/-! ### The controller ports -/

/-- A write of 1 to the strobe holds the port at its first button (20_memory.md R106). -/
theorem Joypad.strobe_one (j : Joypad) : j.strobe 1 = ⟨j.buttons, 0, true⟩ := rfl

/-- A write of 0 to the strobe releases the port where it is (20_memory.md R106). -/
theorem Joypad.strobe_zero (j : Joypad) : j.strobe 0 = ⟨j.buttons, j.cursor, false⟩ := rfl

theorem load_4016 (s : State) : load 0x4016 s = (s.joy1.value, s.setJoy1 s.joy1.advance) := rfl

theorem load_4017 (s : State) : load 0x4017 s = (s.joy2.value, s.setJoy2 s.joy2.advance) := rfl

theorem store_4016 (v : Byte) (s : State) :
    store 0x4016 v s = (s.setJoy1 (s.joy1.strobe v)).setJoy2 (s.joy2.strobe v) := rfl

/-- The first port after `n` reads of it, by the port alone. -/
theorem afterLoads_joy1 (n : Nat) (s : State) : (afterLoads 0x4016 n s).joy1 = Joypad.advance^[n] s.joy1 := by
  induction n with
  | zero => rfl
  | succ n ih => rw [Function.iterate_succ_apply', ← ih]; rfl

theorem afterLoads_joy2 (n : Nat) (s : State) : (afterLoads 0x4017 n s).joy2 = Joypad.advance^[n] s.joy2 := by
  induction n with
  | zero => rfl
  | succ n ih => rw [Function.iterate_succ_apply', ← ih]; rfl

/-- A read moves the cursor of a port that is not strobed, up to past the eighth button (20_memory.md R107). -/
theorem Joypad.advance_cursor_eq (j : Joypad) :
    j.advance = { j with cursor := if j.latch = false ∧ j.cursor < 8 then j.cursor + 1 else j.cursor } := by
  unfold Joypad.advance
  by_cases h : j.latch = false ∧ j.cursor < 8
  · rw [if_pos h, if_pos (by simp [h])]
  · rw [if_neg h, if_neg (by simpa using h)]

/-- A held port stays where it is (20_memory.md R107). -/
theorem Joypad.advance_held (b : Byte) (c n : Nat) : Joypad.advance^[n] ⟨b, c, true⟩ = ⟨b, c, true⟩ :=
  Function.iterate_fixed rfl n

/-- A released port moves one button for each read and stops past the eighth (20_memory.md R107). -/
theorem Joypad.advance_released (b : Byte) (n : Nat) : Joypad.advance^[n] ⟨b, 0, false⟩ = ⟨b, min n 8, false⟩ := by
  induction n with
  | zero => rfl
  | succ n ih =>
    rw [Function.iterate_succ_apply', ih, Joypad.advance_cursor_eq]
    simp only [Joypad.mk.injEq, true_and, and_true]
    split_ifs <;> omega

theorem Joypad.value_min (b : Byte) (n : Nat) (l : Bool) :
    (Joypad.mk b (min n 8) l).value = if n < 8 then (if b.getLsbD n then 1 else 0) else 1 := by
  by_cases hn : n < 8
  · have hmin : min n 8 = n := by omega
    simp [Joypad.value, hmin, hn]
  · have hmin : min n 8 = 8 := by omega
    rw [hmin, if_neg hn]
    rfl

/-- Settles O23: the ports after `n` reads (`afterLoads_joy1`, `afterLoads_joy2`), held and released. -/
theorem joypadReads : Obligations.JoypadReads := by
  intro s
  simp only [load_4016, load_4017, afterLoads_joy1, afterLoads_joy2, store_4016, State.setJoy1_joy1, State.setJoy1_joy2,
    State.setJoy2_joy1, State.setJoy2_joy2, Joypad.strobe_one, Joypad.strobe_zero, Joypad.advance_held,
    Joypad.advance_released]
  exact ⟨fun _ => ⟨rfl, trivial, rfl, trivial⟩, fun n => ⟨Joypad.value_min _ n false, Joypad.value_min _ n false⟩,
    fun _ => ⟨trivial, trivial⟩⟩

/-! ### The devices inside their clocks -/

/-- Character memory is the character RAM where there is one, and the cartridge's ROM where not (21_mappers.md R157). -/
theorem chrByte_eq {s : State} {chr : Memory} (h : s.chrRam = some chr ∨ s.chrRam = none ∧ s.cart.chr = chr)
    (addr : BitVec 13) : chrByte addr s = chr.read (s.mapper.mapChr s.cart.chr8 addr) := by
  unfold chrByte
  rcases h with h | ⟨h, rfl⟩ <;> rw [h]

theorem chrWrite_rom {s : State} (h : s.chrRam = none) (addr : BitVec 13) (v : Byte) : chrWrite addr v s = s := by
  unfold chrWrite
  rw [h]

theorem chrWrite_ram {s : State} {m : Memory} (h : s.chrRam = some m) (addr : BitVec 13) (v : Byte) :
    chrWrite addr v s = s.setChrRam (some (m.write (s.mapper.mapChr s.cart.chr8 addr) v)) := by
  unfold chrWrite
  rw [h]

/-- A true answer of the mapper's counter sets the PPU's IRQ flag, a false one leaves it (21_mappers.md R158). -/
theorem driveIrqCounter_eq (s : State) :
    driveIrqCounter s = { s with
      mapper := s.mapper.driveIrq.2
      ppu := { s.ppu with irqFlag := if s.mapper.driveIrq.1 then true else s.ppu.irqFlag } } := by
  have hflag : (s.ppu.irqFlag || s.mapper.driveIrq.1) = if s.mapper.driveIrq.1 then true else s.ppu.irqFlag := by
    cases s.mapper.driveIrq.1
    · exact Bool.or_false _
    · exact Bool.or_true _
  rw [← hflag]
  rfl

theorem ppuClock_nil {s : State} (h : s.inputs.ppuClocks = []) :
    ppuClock s = { s with ppu := { s.ppu with clocks := s.ppu.clocks + 1 } } := by
  unfold ppuClock
  rw [h]
  rfl

/-- A PPU clock takes one entry of its queue and runs its actions in order (20_memory.md R98). -/
theorem ppuClock_cons {s : State} {acts : List PpuAction} {rest : List (List PpuAction)}
    (h : s.inputs.ppuClocks = acts :: rest) :
    ppuClock s = acts.foldl (fun u act => ppuAct act u) { s with
      ppu := { s.ppu with clocks := s.ppu.clocks + 1 }, inputs := { s.inputs with ppuClocks := rest } } := by
  unfold ppuClock
  rw [h]
  exact ppuActs_eq_foldl acts _

theorem apuClock_nil {s : State} (h : s.inputs.apuClocks = []) :
    apuClock s = { s with apu := { s.apu with clocks := s.apu.clocks + 1 } } := by
  unfold apuClock
  rw [h]
  rfl

/-- The state after an APU clock and before its sample check: the clock counted, the queue's entry taken, the IRQ flag
put if the entry says so (20_memory.md R100). -/
def apuTicked (putIrq : Option Bool) (rest : List ApuTick) (s : State) : State :=
  { s with
    apu := { s.apu with clocks := s.apu.clocks + 1, irqFlag := putIrq.getD s.apu.irqFlag }
    inputs := { s.inputs with apuClocks := rest } }

theorem apuClock_cons {s : State} {putIrq : Option Bool} {sample : Option Word} {rest : List ApuTick}
    (h : s.inputs.apuClocks = ⟨putIrq, sample⟩ :: rest) :
    apuClock s = sample.elim (apuTicked putIrq rest s) fun addr => deliverSample addr (apuTicked putIrq rest s) := by
  unfold apuClock
  rw [h]
  cases sample <;> rfl

/-- Settles O9, action by action and queue by queue. -/
theorem deviceActions : Obligations.DeviceActions := by
  intro s
  refine ⟨fun _ => rfl, fun _ => rfl, driveIrqCounter_eq s, fun addr v h => chrWrite_rom h addr v,
    fun addr v m h hwf => ⟨_, chrWrite_ram h addr v, fun k => Memory.read_write hwf _ k v⟩, fun addr chr h => ?_, rfl,
    rfl, ppuClock_nil, fun _ _ h => ppuClock_cons h, apuClock_nil, fun putIrq sample rest h => ?_, fun addr => ?_⟩
  · rw [← chrByte_eq h]
    rfl
  · rw [apuClock_cons h]
    exact ⟨fun e => e ▸ rfl, fun addr e => e ▸ rfl⟩
  · exact ⟨_, rfl, rfl, (load_devicesOnly addr s).stall_eq⟩

/-! ### The partitions row by row -/

theorem drawPpuRead_cons {d : Inputs} {v : Byte} {rest : List Byte} (h : d.ppuReads = v :: rest) :
    drawPpuRead d = (v, { d with ppuReads := rest }) := by
  unfold drawPpuRead
  rw [h]

theorem drawPpuRead_nil {d : Inputs} (h : d.ppuReads = []) :
    drawPpuRead d = (Config.freeRead d.freeReads, { d with freeReads := d.freeReads + 1 }) := by
  unfold drawPpuRead
  rw [h]

theorem drawApuRead_cons {d : Inputs} {v : Byte} {rest : List Byte} (h : d.apuReads = v :: rest) :
    drawApuRead d = (v, { d with apuReads := rest }) := by
  unfold drawApuRead
  rw [h]

theorem drawApuRead_nil {d : Inputs} (h : d.apuReads = []) :
    drawApuRead d = (Config.freeRead d.freeReads, { d with freeReads := d.freeReads + 1 }) := by
  unfold drawApuRead
  rw [h]

/-- Settles O16: one region for each row, then what the device call of that region answers. -/
theorem loadPartition : Obligations.LoadPartition := by
  refine ⟨fun a s => ⟨fun h => ?_, fun h1 h2 => load_ppu (busRegion_ppu h1 h2) s, ?_, ?_, ?_, fun h1 h2 hdma => ?_,
    fun h1 h2 => load_unassigned (busRegion_unassigned h1 h2) s, fun h1 h2 => load_ram (busRegion_cartRam h1 h2),
    fun h => load_prg (busRegion_prg h)⟩,
    fun i s => ⟨fun v rest h => ?_, fun h => ?_⟩,
    fun i s => ⟨fun v rest h => ?_, fun h => ?_⟩, fun j => ⟨fun h => ?_, fun h => ?_, j.advance_cursor_eq⟩⟩
  · exact load_ram (if_pos h)
  · rintro rfl; rfl
  · rintro rfl; rfl
  · rintro rfl; rfl
  · have hjoy1 : a ≠ 0x4016 := by rintro rfl; simp at h2
    have hjoy2 : a ≠ 0x4017 := by rintro rfl; simp at h2
    exact load_apu (busRegion_apu h1 (by omega) hdma hjoy1 hjoy2) s
  · rw [ppuRead, drawPpuRead_cons h]; rfl
  · rw [ppuRead, drawPpuRead_nil h]; rfl
  · rw [apuRead, drawApuRead_cons h]; rfl
  · rw [apuRead, drawApuRead_nil h]; rfl
  · rw [Joypad.value, if_neg (by omega)]
  · rw [Joypad.value, if_pos h]

/-- Settles O17: one region for each row; 0x4017, the second joypad's address, stores to APU register 0x17. -/
theorem storePartition : Obligations.StorePartition := by
  refine ⟨fun a v s => ⟨fun h => store_ram v (if_pos h), fun h1 h2 => store_ppu (busRegion_ppu h1 h2) v s, ?_, ?_,
    fun h1 h2 hdma hjoy1 => ?_, fun h1 h2 => store_unassigned (busRegion_unassigned h1 h2) v s,
    fun h1 h2 => store_ram v (busRegion_cartRam h1 h2), fun h => store_prg v (busRegion_prg h)⟩,
    fun _ _ _ => rfl, fun _ _ _ => rfl, fun j v => ?_⟩
  · rintro rfl; rfl
  · rintro rfl; rfl
  · by_cases hjoy2 : a = 0x4017
    · subst hjoy2; rfl
    · exact store_apu (busRegion_apu h1 h2 hdma hjoy1 hjoy2) v s
  · simp only [Joypad.strobe, BitVec.getLsbD, Nat.testBit_zero, decide_eq_true_eq]

end Sys2Proof.Machine

/-! PROOFS of the mapper family (21_mappers.md): every map stays inside its memory, what each variant's registers do, the
two IRQ counters, and the cartridge load. -/

namespace Sys2Proof.Machine

/-! ### Bit fields in numbers -/

section
variable {w : Nat} (x : BitVec w)

theorem toNat_extractLsb' (i k : Nat) : (x.extractLsb' i k).toNat = x.toNat / 2 ^ i % 2 ^ k := by
  rw [BitVec.extractLsb'_toNat, Nat.shiftRight_eq_div_pow]

theorem extractLsb'_zero_eq_ofNat (k : Nat) : x.extractLsb' 0 k = BitVec.ofNat k x.toNat := by
  apply BitVec.eq_of_toNat_eq
  rw [toNat_extractLsb', BitVec.toNat_ofNat, pow_zero, Nat.div_one]

theorem getLsbD_zero_eq_decide : x.getLsbD 0 = decide (x.toNat % 2 = 1) := Nat.testBit_zero x.toNat

end

/-! ### Maps inside their memories -/

/-- `k * n` banks, where `k` of them make a unit, lie inside `n` units. -/
theorem bankOffset_lt_units {size k n unit : Nat} (hk : k * size = unit) (hunit : 0 < unit) (hn : 0 < n)
    (b addr : Nat) : bankOffset size (k * n) b addr < n * unit := by
  subst hk
  have hsize : 0 < size := Nat.pos_of_mul_pos_left hunit
  have hbanks : 0 < k * n := Nat.mul_pos (Nat.pos_of_mul_pos_right hunit) hn
  calc bankOffset size (k * n) b addr
      < k * n * size := bankOffset_lt hsize hbanks b addr
    _ = n * (k * size) := by ring

theorem Mapper.map_lt (m : Mapper) {prg16 : Nat} (h : 1 ≤ prg16) (a : Word) : m.map prg16 a < prg16 * 16384 := by
  have hnrom : nromMap prg16 a < prg16 * 16384 := by
    rw [nromMap]
    exact Nat.mod_lt _ (Nat.mul_pos h (by decide))
  cases m with
  | nrom => exact hnrom
  | cnrom _ => exact hnrom
  | mmc1 _ => exact bankOffset_lt (by decide) h _ _
  | uxrom _ => exact bankOffset_lt (by decide) h _ _
  | mmc3 _ => exact bankOffset_lt_units (by decide) (by decide) h _ _
  | fme7 _ => exact bankOffset_lt_units (by decide) (by decide) h _ _

theorem Mapper.mapChr_lt (m : Mapper) (chr8 : Nat) (a : BitVec 13) : m.mapChr chr8 a < max chr8 1 * 8192 := by
  have hunits : 1 ≤ max chr8 1 := le_max_right chr8 1
  have hplain : a.toNat < max chr8 1 * 8192 := by
    have := a.isLt
    omega
  cases m with
  | nrom => exact hplain
  | uxrom _ => exact hplain
  | cnrom _ => exact bankOffset_lt (by decide) hunits _ _
  | mmc1 _ => exact bankOffset_lt_units (by decide) (by decide) hunits _ _
  | mmc3 _ => exact bankOffset_lt_units (by decide) (by decide) hunits _ _
  | fme7 _ => exact bankOffset_lt_units (by decide) (by decide) hunits _ _

/-- Settles O24: NROM's map is a remainder, the banked maps are bank offsets (`bankOffset_lt`). -/
theorem mapInBounds : Obligations.MapInBounds :=
  ⟨fun m _ a h _ => m.map_lt h a, fun m chr8 a => m.mapChr_lt chr8 a⟩

/-! ### NROM, UxROM and CNROM -/

/-- One bank stands twice in the program window: the low 14 bits of the address (21_mappers.md R166). -/
theorem nromMap_one {a : Word} (ha : 0x8000 ≤ a.toNat) : nromMap 1 a = (a &&& 0x3FFF).toNat := by
  have hmask : (a &&& 0x3FFF).toNat = a.toNat % 16384 := by
    rw [BitVec.toNat_and]
    exact Nat.and_two_pow_sub_one_eq_mod a.toNat 14
  rw [hmask, nromMap]
  omega

/-- Two banks fill the program window: the low 15 bits of the address (21_mappers.md R166). -/
theorem nromMap_two {a : Word} (ha : 0x8000 ≤ a.toNat) : nromMap 2 a = (a &&& 0x7FFF).toNat := by
  have hmask : (a &&& 0x7FFF).toNat = a.toNat % 32768 := by
    rw [BitVec.toNat_and]
    exact Nat.and_two_pow_sub_one_eq_mod a.toNat 15
  rw [hmask, nromMap]
  omega

/-- Settles O25: the formula is the definition, and one and two banks are its masks (`nromMap_one`, `nromMap_two`). -/
theorem Mapper.nromMap : Obligations.NromMap :=
  ⟨fun _ _ _ => rfl, fun _ ha => nromMap_one ha, fun _ ha => nromMap_two ha, by decide⟩

/-- UxROM fixes the last bank in the upper half (21_mappers.md R182). -/
theorem Mapper.uxrom_map (bank : Byte) {prg16 : Nat} (h : 1 ≤ prg16) (a : Word) :
    (Mapper.uxrom bank).map prg16 a =
      (if a.toNat < 0xC000 then bank.toNat % prg16 else prg16 - 1) * 16384 + a.toNat % 16384 := by
  rw [Mapper.map, bankOffset]
  by_cases ha : a.toNat < 0xC000
  · rw [if_neg (by omega), if_pos ha]
  · rw [if_pos (by omega), if_neg ha, Nat.mod_eq_of_lt (by omega)]

/-- CNROM switches the whole 8 KiB of character memory (21_mappers.md R187). -/
theorem Mapper.cnrom_mapChr (bank : Byte) (chr8 : Nat) (a : BitVec 13) :
    (Mapper.cnrom bank).mapChr chr8 a = bank.toNat % max chr8 1 * 8192 + a.toNat := by
  rw [Mapper.mapChr, bankOffset, chrUnits, Nat.mod_eq_of_lt a.isLt]

/-- Settles O26: the two switched banks by `Mapper.uxrom_map` and `Mapper.cnrom_mapChr`; the rest are the model's own
equations. -/
theorem simpleBankSelect : Obligations.SimpleBankSelect := by
  intro b v a c ch prg16 chr8 hprg _ _
  refine ⟨rfl, rfl, rfl, Mapper.uxrom_map v hprg c, rfl, rfl, rfl, Mapper.cnrom_mapChr v chr8 ch, ?_⟩
  simp only [List.forall_mem_cons, List.not_mem_nil, false_imp_iff, implies_true, and_true]
  exact ⟨⟨rfl, rfl, fun _ => rfl⟩, ⟨rfl, rfl, fun _ => rfl⟩, rfl, rfl, fun _ => rfl⟩

/-! ### The four 8 KiB slots of the program window -/

theorem prgSlot_lt (a : Word) : prgSlot a < 4 := by
  have := a.isLt
  rw [prgSlot]
  omega

section
variable {a : Word} (ha : 0x8000 ≤ a.toNat)
include ha

/-- The slot of an address stands in its bits 14 and 13. -/
theorem toNat_slotBits : (a.extractLsb' 13 2).toNat = prgSlot a := by
  have := a.isLt
  rw [toNat_extractLsb', prgSlot]
  omega

theorem lt_A000_iff : a.toNat < 0xA000 ↔ prgSlot a < 1 := by rw [prgSlot]; omega

theorem lt_C000_iff : a.toNat < 0xC000 ↔ prgSlot a < 2 := by rw [prgSlot]; omega

theorem lt_E000_iff : a.toNat < 0xE000 ↔ prgSlot a < 3 := by rw [prgSlot]; omega

end

/-! ### MMC1 -/

/-- The shift register after one more write: the write's low bit enters at the top (21_mappers.md R171). -/
def Mmc1.shiftIn (shift : BitVec 5) (v : Byte) : BitVec 5 :=
  (shift >>> 1) ||| ((v.extractLsb' 0 1).setWidth 5 <<< 4)

theorem Mmc1.shiftIn_getLsbD (shift : BitVec 5) (v : Byte) {k : Nat} (hk : k < 5) :
    (Mmc1.shiftIn shift v).getLsbD k = if k = 4 then v.getLsbD 0 else shift.getLsbD (k + 1) := by
  simp only [Mmc1.shiftIn, BitVec.getLsbD_or, BitVec.getLsbD_ushiftRight, BitVec.getLsbD_shiftLeft,
    BitVec.getLsbD_setWidth, BitVec.getLsbD_extractLsb', Nat.add_comm 1 k]
  by_cases h4 : k = 4
  · subst h4
    simp
  · simp [h4, show k < 4 by omega]

theorem Mmc1.store_reset (r : Mmc1) (a : Word) {v : Byte} (hv : v.getLsbD 7 = true) :
    r.store a v = { r with shift := 0, count := 0, control := r.control ||| 0x0C } := by
  rw [Mmc1.store, if_pos hv]

/-- One of the first four writes of a sequence (21_mappers.md R171). -/
theorem Mmc1.store_shift {r : Mmc1} (hcount : r.count < 4) (a : Word) {v : Byte} (hv : v.getLsbD 7 = false) :
    r.store a v = { r with shift := Mmc1.shiftIn r.shift v, count := r.count + 1 } := by
  have hne : ¬r.count + 1 = 5 := by omega
  rw [Mmc1.store, if_neg (Bool.eq_false_iff.1 hv)]
  exact if_neg hne

/-- The fifth write of a sequence goes to the register of its address (21_mappers.md R171, R172). -/
theorem Mmc1.store_commit {r : Mmc1} (hcount : r.count = 4) {a : Word} (ha : 0x8000 ≤ a.toNat) {v : Byte}
    (hv : v.getLsbD 7 = false) :
    let w := Mmc1.shiftIn r.shift v
    r.store a v =
      { shift := 0, count := 0
        control := if a.toNat < 0xA000 then w else r.control
        chr0 := if 0xA000 ≤ a.toNat ∧ a.toNat < 0xC000 then w else r.chr0
        chr1 := if 0xC000 ≤ a.toNat ∧ a.toNat < 0xE000 then w else r.chr1
        prg := if 0xE000 ≤ a.toNat then w else r.prg } := by
  intro w
  have hfive : r.count + 1 = 5 := by omega
  have hslot := prgSlot_lt a
  rw [Mmc1.store, if_neg (Bool.eq_false_iff.1 hv)]
  refine (if_pos hfive).trans ?_
  simp only [← Nat.not_lt, lt_A000_iff ha, lt_C000_iff ha, lt_E000_iff ha]
  rw [toNat_slotBits ha]
  generalize prgSlot a = slot at hslot ⊢
  interval_cases slot <;> rfl

/-- Five writes shift out whatever stood in the shift register: each bit of the value is the low bit of one of them. -/
theorem Mmc1.five_shifts_getLsbD (shift : BitVec 5) (v1 v2 v3 v4 v5 : Byte) :
    let w := [v1, v2, v3, v4, v5].foldl Mmc1.shiftIn shift
    w.getLsbD 0 = v1.getLsbD 0 ∧ w.getLsbD 1 = v2.getLsbD 0 ∧ w.getLsbD 2 = v3.getLsbD 0 ∧
      w.getLsbD 3 = v4.getLsbD 0 ∧ w.getLsbD 4 = v5.getLsbD 0 := by
  simp only [List.foldl]
  refine ⟨?_, ?_, ?_, ?_, ?_⟩ <;>
    simp only [Mmc1.shiftIn_getLsbD, Nat.reduceLT, Nat.reduceAdd, Nat.reduceEqDiff, if_true, if_false]

/-- The program bank of each PRG mode (21_mappers.md R173). -/
theorem Mmc1.prgBank_eq (r : Mmc1) (prg16 : Nat) (a : Word) :
    let mode := r.control.toNat / 4 % 4
    let p := r.prg.toNat % 16
    r.prgBank prg16 a =
      if mode ≤ 1 then p / 2 * 2 + (if a.toNat < 0xC000 then 0 else 1)
      else if mode = 2 then (if a.toNat < 0xC000 then 0 else p)
      else if a.toNat < 0xC000 then p else prg16 - 1 := by
  have hmode : (r.control.extractLsb' 2 2).toNat = r.control.toNat / 4 % 4 := toNat_extractLsb' _ _ _
  have hp (p : BitVec 5) : (p &&& 0x0F).toNat = p.toNat % 16 := by revert p; decide
  have heven (p : BitVec 5) : ((p &&& 0x0F) &&& 0x0E).toNat = p.toNat % 16 / 2 * 2 := by revert p; decide
  have hodd (p : BitVec 5) : (((p &&& 0x0F) &&& 0x0E) ||| 1).toNat = p.toNat % 16 / 2 * 2 + 1 := by revert p; decide
  have hlt : r.control.toNat / 4 % 4 < 4 := Nat.mod_lt _ (by decide)
  simp only [Mmc1.prgBank, hmode, hp, heven, hodd, decide_eq_true_eq, ← Nat.not_lt]
  generalize r.control.toNat / 4 % 4 = mode at hlt ⊢
  interval_cases mode <;> by_cases ha : a.toNat < 0xC000 <;> simp [ha]

/-- The character bank of both CHR modes (21_mappers.md R174). -/
theorem Mmc1.chrBank_eq (r : Mmc1) (a : BitVec 13) :
    r.chrBank a =
      if r.control.toNat / 16 = 0 then r.chr0.toNat / 2 * 2 + (if a.toNat < 0x1000 then 0 else 1)
      else if a.toNat < 0x1000 then r.chr0.toNat else r.chr1.toNat := by
  have hmode (c : BitVec 5) : c.getLsbD 4 = true ↔ ¬c.toNat / 16 = 0 := by revert c; decide
  have heven (c : BitVec 5) : (c &&& 0x1E).toNat ||| 0 = c.toNat / 2 * 2 + 0 := by revert c; decide
  have hodd (c : BitVec 5) : (c &&& 0x1E).toNat ||| 1 = c.toNat / 2 * 2 + 1 := by revert c; decide
  have ha := a.isLt
  rw [Mmc1.chrBank]
  by_cases hwhole : r.control.toNat / 16 = 0
  · rw [if_neg (by rw [hmode]; exact not_not.2 hwhole), if_pos hwhole, Nat.shiftRight_eq_div_pow]
    by_cases hlow : a.toNat < 0x1000
    · rw [if_pos hlow, Nat.div_eq_of_lt hlow, heven]
    · rw [if_neg hlow, show a.toNat / 2 ^ 12 = 1 by omega, hodd]
  · rw [if_pos ((hmode _).2 hwhole), if_neg hwhole]

/-- The mirroring control (21_mappers.md R175). -/
theorem Mapper.mmc1_mirroringType (r : Mmc1) (dummy : Mirroring) :
    (Mapper.mmc1 r).mirroringType dummy =
      if r.control.toNat % 4 = 0 then .singleScreenLower else if r.control.toNat % 4 = 1 then .singleScreenUpper
        else if r.control.toNat % 4 = 2 then .vertical else .horizontal := by
  have hfield : (r.control.extractLsb' 0 2).toNat = r.control.toNat % 4 := by simp [extractLsb'_zero_eq_ofNat]
  have hlt : r.control.toNat % 4 < 4 := Nat.mod_lt _ (by decide)
  rw [Mapper.mirroringType, hfield]
  generalize r.control.toNat % 4 = mode at hlt ⊢
  interval_cases mode <;> rfl

/-- Settles O27: four shifts and the commit (`Mmc1.store_shift`, `Mmc1.store_commit`), then one equation for each thing
the registers select. -/
theorem mmc1Sequence : Obligations.Mmc1Sequence := by
  refine ⟨fun r a1 a2 a3 a4 a5 v1 v2 v3 v4 v5 hcount hv ha => ?_, fun r a v hv => ?_, fun r prg16 a _ => ?_,
    fun r chr8 a => ?_, fun r dummy => ⟨rfl, Mapper.mmc1_mirroringType r dummy, rfl⟩⟩
  · simp only [List.forall_mem_cons] at hv
    obtain ⟨h1, h2, h3, h4, h5, -⟩ := hv
    refine ⟨_, Mmc1.five_shifts_getLsbD r.shift v1 v2 v3 v4 v5, ?_⟩
    simp only [Mapper.store]
    rw [Mmc1.store_shift (by simp [hcount]) a1 h1, Mmc1.store_shift (by simp [hcount]) a2 h2,
      Mmc1.store_shift (by simp [hcount]) a3 h3, Mmc1.store_shift (by simp [hcount]) a4 h4,
      Mmc1.store_commit (by simp [hcount]) ha h5]
    rfl
  · exact congrArg Mapper.mmc1 (r.store_reset a hv)
  · simp only [Mapper.map, bankOffset, Mmc1.prgBank_eq]
  · simp only [Mapper.mapChr, bankOffset, Mmc1.chrBank_eq, chrUnits]

/-! ### MMC3 -/

/-- The bank-select write (21_mappers.md R191). -/
theorem Mmc3.store_bankSelect (r : Mmc3) {a : Word} (h1 : 0x8000 ≤ a.toNat) (h2 : a.toNat < 0xA000)
    (heven : a.toNat % 2 = 0) (v : Byte) : r.store a v = { r with bankSelect := v } := by
  have hslot : prgSlot a = 0 := Nat.lt_one_iff.1 ((lt_A000_iff h1).1 h2)
  rw [Mmc3.store, toNat_slotBits h1, hslot, getLsbD_zero_eq_decide, heven]
  rfl

/-- The parameter write (21_mappers.md R191). -/
theorem Mmc3.store_parameter (r : Mmc3) {a : Word} (h1 : 0x8000 ≤ a.toNat) (h2 : a.toNat < 0xA000)
    (hodd : a.toNat % 2 = 1) (v : Byte) :
    r.store a v = { r with r := r.r.setIfInBounds (r.bankSelect.extractLsb' 0 3).toNat v } := by
  have hslot : prgSlot a = 0 := Nat.lt_one_iff.1 ((lt_A000_iff h1).1 h2)
  rw [Mmc3.store, toNat_slotBits h1, hslot, getLsbD_zero_eq_decide, hodd]
  rfl

/-- The writes at 0xA000 and up, by window and parity (21_mappers.md R191). -/
theorem Mmc3.store_high (r : Mmc3) {a : Word} (ha : 0xA000 ≤ a.toNat) (v : Byte) :
    r.store a v =
      if a.toNat < 0xC000 then
        if a.toNat % 2 = 0 then { r with mirroring := BitVec.ofNat 1 v.toNat } else { r with prgRamProtect := v }
      else if a.toNat < 0xE000 then
        if a.toNat % 2 = 0 then { r with irqLatch := v, irqReload := true } else { r with irqReload := true }
      else { r with irqEnabled := decide (a.toNat % 2 = 1) } := by
  have h8 : 0x8000 ≤ a.toNat := by omega
  have hlow : ¬prgSlot a < 1 := (lt_A000_iff h8).not.1 (by omega)
  have hslot := prgSlot_lt a
  simp only [lt_C000_iff h8, lt_E000_iff h8]
  rw [Mmc3.store, toNat_slotBits h8, getLsbD_zero_eq_decide, extractLsb'_zero_eq_ofNat v 1]
  generalize prgSlot a = slot at hlow hslot ⊢
  rcases Nat.mod_two_eq_zero_or_one a.toNat with hparity | hparity <;> rw [hparity] <;> interval_cases slot <;> rfl

/-- A parameter write changes the bank register the command's low three bits name (21_mappers.md R191). -/
theorem Mmc3.parameter_getElem (q : Vector Byte 8) (command v : Byte) {k : Nat} (hk : k < 8) :
    (q.setIfInBounds (command.extractLsb' 0 3).toNat v)[k] = if k = command.toNat % 8 then v else q[k] := by
  have hindex : (command.extractLsb' 0 3).toNat = command.toNat % 8 := by simp [extractLsb'_zero_eq_ofNat]
  simp only [Vector.getElem_setIfInBounds, hindex, eq_comm]

/-- The program bank of each slot in both orders (21_mappers.md R192). -/
theorem Mmc3.prgBank_eq (r : Mmc3) (prg8 : Nat) {a : Word} (ha : 0x8000 ≤ a.toNat) :
    let swapped := r.bankSelect.getLsbD 6
    r.prgBank prg8 a =
      if a.toNat < 0xA000 then (if swapped then prg8 - 2 else (r.r[6]).toNat)
      else if a.toNat < 0xC000 then (r.r[7]).toNat
      else if a.toNat < 0xE000 then (if swapped then (r.r[6]).toNat else prg8 - 2)
      else prg8 - 1 := by
  have hslot := prgSlot_lt a
  simp only [lt_A000_iff ha, lt_C000_iff ha, lt_E000_iff ha, Mmc3.prgBank]
  generalize prgSlot a = slot at hslot ⊢
  interval_cases slot <;> rfl

/-- The character banks in the order of the unswapped slots, the table `T` of 21_mappers.md R193. -/
def Mmc3.chrTable (r : Mmc3) : List Nat :=
  [(r.r[0]).toNat / 2 * 2, (r.r[0]).toNat / 2 * 2 + 1, (r.r[1]).toNat / 2 * 2, (r.r[1]).toNat / 2 * 2 + 1,
    (r.r[2]).toNat, (r.r[3]).toNat, (r.r[4]).toNat, (r.r[5]).toNat]

/-- The character bank of each slot in both orders (21_mappers.md R193). -/
theorem Mmc3.chrTable_slot (r : Mmc3) (a : BitVec 13) :
    r.chrTable[if r.bankSelect.getLsbD 7 then (a.toNat / 1024 + 4) % 8 else a.toNat / 1024]? = some (r.chrBank a) := by
  have heven (b : Byte) : (b &&& 0xFE).toNat = b.toNat / 2 * 2 := by revert b; decide
  have hodd (b : Byte) : (b ||| 1).toNat = b.toNat / 2 * 2 + 1 := by revert b; decide
  have hslot : a.toNat / 1024 < 8 := by
    have := a.isLt
    omega
  simp only [Mmc3.chrBank, Mmc3.chrTable, heven, hodd]
  generalize a.toNat / 1024 = slot at hslot ⊢
  interval_cases slot <;> cases r.bankSelect.getLsbD 7 <;> rfl

/-- Settles O28: a store of each register (`Mmc3.store_bankSelect`, `Mmc3.store_parameter`, `Mmc3.store_high`), then the
banks and the mirroring they select. -/
theorem mmc3Pair : Obligations.Mmc3Pair := by
  refine ⟨fun r even odd command v he1 he2 he ho1 ho2 ho => ?_, fun r a v ha => congrArg Mapper.mmc3 (r.store_high ha v),
    fun r prg16 a ha => ?_, fun r chr8 a => ⟨_, r.chrTable_slot a, rfl⟩, fun r dummy => ⟨rfl, ?_⟩⟩
  · refine ⟨_, ?_, fun k hk => Mmc3.parameter_getElem r.r command v hk⟩
    simp only [Mapper.store]
    rw [r.store_bankSelect he1 he2 he, Mmc3.store_parameter _ ho1 ho2 ho]
  · simp only [Mapper.map, bankOffset, r.prgBank_eq _ ha]
  · simp only [Mapper.mirroringType, ← BitVec.toNat_inj]
    rfl

/-! ### MMC3's scanline counter -/

section
variable {r : Mmc3}

/-- A call with the reload armed (21_mappers.md R195). -/
theorem Mmc3.driveIrq_reload (h : r.irqReload = true) :
    r.driveIrq = (false, { r with irqCounter := r.irqLatch, irqReload := false }) := by
  rw [Mmc3.driveIrq, if_pos h]

/-- A call that counts down to zero (21_mappers.md R195). -/
theorem Mmc3.driveIrq_last (h : r.irqReload = false) (hlast : r.irqCounter - 1 = 0) :
    r.driveIrq = (r.irqEnabled, { r with irqCounter := 0, irqReload := true }) := by
  simp only [Mmc3.driveIrq, h, hlast, Bool.false_eq_true, if_false, if_true]

/-- A call that counts down and not to zero (21_mappers.md R195). -/
theorem Mmc3.driveIrq_count (h : r.irqReload = false) (hcount : r.irqCounter - 1 ≠ 0) :
    r.driveIrq = (false, { r with irqCounter := r.irqCounter - 1 }) := by
  simp only [Mmc3.driveIrq, h, hcount, Bool.false_eq_true, if_false]

/-- How many calls a period of the counter has (21_mappers.md R196). -/
def Mmc3.period (r : Mmc3) : Nat := if r.irqLatch = 0 then 257 else r.irqLatch.toNat + 1

/-- A period is the reload, the calls down to a counter of 1, and the last call. -/
theorem Mmc3.period_eq (r : Mmc3) : r.period = (r.irqLatch - 1).toNat + 2 := by
  rw [Mmc3.period]
  split_ifs with h
  · rw [h]; rfl
  · bv_omega

/-- Before call number `k` of a period: the reload is armed at the first call alone, and after it the counter tells how
many calls are left. -/
structure Mmc3.InPhase (k : Nat) (r : Mmc3) : Prop where
  lt : k < r.period
  reload : r.irqReload = decide (k = 0)
  left : k ≠ 0 → (r.irqCounter - 1).toNat + k + 1 = r.period

theorem Mmc3.inPhase_zero (h : r.irqReload = true) : InPhase 0 r where
  lt := by rw [r.period_eq]; omega
  reload := h
  left hk := absurd rfl hk

/-- What call number `k` of a period does, the last one starting the next period. -/
theorem Mmc3.InPhase.driveIrq {k : Nat} (h : InPhase k r) :
    r.driveIrq.1 = (r.irqEnabled && decide (k = r.period - 1)) ∧ InPhase ((k + 1) % r.period) r.driveIrq.2 ∧
      r.driveIrq.2.irqLatch = r.irqLatch ∧ r.driveIrq.2.irqEnabled = r.irqEnabled := by
  obtain ⟨hlt, hreload, hleft⟩ := h
  have hperiod := r.period_eq
  by_cases hk : k = 0
  · subst hk
    have hlt' : 1 < r.period := by omega
    have hearly : ¬0 = r.period - 1 := by omega
    have hnext : (0 + 1) % r.period = 1 := Nat.mod_eq_of_lt hlt'
    rw [Mmc3.driveIrq_reload hreload, hnext, decide_eq_false hearly, Bool.and_false]
    exact ⟨rfl, ⟨hlt', rfl, fun _ => hperiod.symm⟩, rfl, rfl⟩
  · have hcalls := hleft hk
    rw [decide_eq_false hk] at hreload
    by_cases hlast : r.irqCounter - 1 = 0
    · have hzero : (r.irqCounter - 1).toNat = 0 := congrArg BitVec.toNat hlast
      have hend : k = r.period - 1 := by omega
      have hnext : (k + 1) % r.period = 0 := by rw [show k + 1 = r.period by omega, Nat.mod_self]
      rw [Mmc3.driveIrq_last hreload hlast, hnext, decide_eq_true hend, Bool.and_true]
      exact ⟨rfl, Mmc3.inPhase_zero rfl, rfl, rfl⟩
    · have hdown : (r.irqCounter - 1 - 1).toNat + 1 = (r.irqCounter - 1).toNat := by bv_omega
      have hcalls' : (r.irqCounter - 1 - 1).toNat + (k + 1) + 1 = r.period := by omega
      have hlt' : k + 1 < r.period := by omega
      have hearly : ¬k = r.period - 1 := by omega
      have hnext : (k + 1) % r.period = k + 1 := Nat.mod_eq_of_lt hlt'
      rw [Mmc3.driveIrq_count hreload hlast, hnext, decide_eq_false hearly, Bool.and_false]
      exact ⟨rfl, ⟨hlt', by rw [decide_eq_false k.succ_ne_zero]; exact hreload, fun _ => hcalls'⟩, rfl, rfl⟩

/-- From any place of the period, call number `n` is the one that stands `n` further in it. -/
theorem Mmc3.InPhase.driveAnswer (n : Nat) {k : Nat} {r : Mmc3} (h : InPhase k r) :
    (Mapper.mmc3 r).driveAnswer n = (r.irqEnabled && decide ((k + n) % r.period = r.period - 1)) := by
  induction n generalizing k r with
  | zero =>
    rw [Nat.add_zero, Nat.mod_eq_of_lt h.lt]
    exact h.driveIrq.1
  | succ n ih =>
    obtain ⟨-, hnext, hlatch, henabled⟩ := h.driveIrq
    have hperiod : r.driveIrq.2.period = r.period := by rw [Mmc3.period, hlatch, Mmc3.period]
    calc (Mapper.mmc3 r).driveAnswer (n + 1)
        = (Mapper.mmc3 r.driveIrq.2).driveAnswer n := rfl
      _ = (r.irqEnabled && decide ((k + (n + 1)) % r.period = r.period - 1)) := by
          rw [ih hnext, henabled, hperiod, Nat.mod_add_mod, Nat.add_right_comm, Nat.add_assoc]

end

/-- The counter runs the same whether or not the IRQ is enabled (21_mappers.md R196). -/
theorem Mmc3.driveIrq_irqEnabled (r : Mmc3) (e : Bool) :
    ({ r with irqEnabled := e } : Mmc3).driveIrq.2 = { r.driveIrq.2 with irqEnabled := e } := by
  simp only [Mmc3.driveIrq]
  split_ifs <;> rfl

theorem Mmc3.afterDrives_irqEnabled (n : Nat) (e : Bool) {r q : Mmc3} (h : (Mapper.mmc3 r).afterDrives n = .mmc3 q) :
    (Mapper.mmc3 { r with irqEnabled := e }).afterDrives n = .mmc3 { q with irqEnabled := e } := by
  induction n generalizing r with
  | zero =>
    cases h
    rfl
  | succ n ih =>
    have htail := ih (r := r.driveIrq.2) h
    rw [← r.driveIrq_irqEnabled] at htail
    exact htail

/-- Settles O29: an armed reload is the start of a period (`Mmc3.inPhase_zero`), and the phase advances with each call. -/
theorem mmc3IrqPeriod : Obligations.Mmc3IrqPeriod := by
  intro r hreload
  refine ⟨fun n => ?_, fun n e q h => Mmc3.afterDrives_irqEnabled n e h⟩
  have hanswer := (Mmc3.inPhase_zero hreload).driveAnswer n
  rwa [Nat.zero_add] at hanswer

/-! ### FME-7 -/

/-- The down-counter answers when it stands at zero, then wraps (21_mappers.md R206). -/
theorem Fme7.driveAnswer_eq (r : Fme7) (n : Nat) :
    (Mapper.fme7 r).driveAnswer n = (r.irqControl.getLsbD 0 && decide (n % 65536 = r.irqCounter.toNat)) := by
  induction n generalizing r with
  | zero =>
    have hzero : (r.irqCounter == 0) = decide (0 % 65536 = r.irqCounter.toNat) := by
      rw [Bool.eq_iff_iff, beq_iff_eq, decide_eq_true_eq]
      bv_omega
    rw [Bool.and_comm, ← hzero]
    rfl
  | succ n ih =>
    have hwrap : n % 65536 = (r.irqCounter - 1).toNat ↔ (n + 1) % 65536 = r.irqCounter.toNat := by bv_omega
    calc (Mapper.fme7 r).driveAnswer (n + 1)
        = (Mapper.fme7 r.driveIrq.2).driveAnswer n := rfl
      _ = (r.irqControl.getLsbD 0 && decide (n % 65536 = (r.irqCounter - 1).toNat)) := ih _
      _ = (r.irqControl.getLsbD 0 && decide ((n + 1) % 65536 = r.irqCounter.toNat)) := by rw [decide_eq_decide.2 hwrap]

section
variable (r : Fme7) {a : Word} (v : Byte)

/-- The command write (21_mappers.md R201). -/
theorem Fme7.store_command (h1 : 0x8000 ≤ a.toNat) (h2 : a.toNat < 0xA000) :
    r.store a v = { r with command := BitVec.ofNat 4 v.toNat } := by
  have hslot : prgSlot a = 0 := Nat.lt_one_iff.1 ((lt_A000_iff h1).1 h2)
  rw [Fme7.store, toNat_slotBits h1, hslot, extractLsb'_zero_eq_ofNat]
  rfl

/-- The parameter write (21_mappers.md R201). -/
theorem Fme7.store_parameter (h1 : 0xA000 ≤ a.toNat) (h2 : a.toNat < 0xC000) : r.store a v = r.parameter v := by
  have h8 : 0x8000 ≤ a.toNat := by omega
  have hslot : prgSlot a = 1 := by
    rw [prgSlot]
    omega
  rw [Fme7.store, toNat_slotBits h8, hslot]
  rfl

/-- A store at 0xC000 and up is ignored (21_mappers.md R201). -/
theorem Fme7.store_ignored (h1 : 0xC000 ≤ a.toNat) : r.store a v = r := by
  have h8 : 0x8000 ≤ a.toNat := by omega
  have hlow : ¬prgSlot a < 2 := (lt_C000_iff h8).not.1 (by omega)
  rw [Fme7.store, toNat_slotBits h8]
  split
  case h_1 h => omega
  case h_2 h => omega
  case h_3 => rfl

end

/-- What a parameter write leaves in each register, by the command (21_mappers.md R202). -/
theorem Fme7.parameter_eq (r : Fme7) (v : Byte) :
    let c := r.command.toNat
    r.parameter v = { r with
      chr := if c < 8 then r.chr.setIfInBounds c v else r.chr
      prg := if h : 8 ≤ c ∧ c < 12 then r.prg.set (c - 8) v (by omega) else r.prg
      mirroring := if c = 12 then BitVec.ofNat 2 v.toNat else r.mirroring
      irqControl := if c = 13 then v else r.irqControl
      irqCounter := if c = 14 then joinWord (hiByte r.irqCounter) v
        else if c = 15 then joinWord v (loByte r.irqCounter) else r.irqCounter } := by
  obtain ⟨c, hc⟩ : ∃ c, r.command.toNat = c := ⟨_, rfl⟩
  have hlt : c < 16 := hc ▸ r.command.isLt
  rw [Fme7.parameter, extractLsb'_zero_eq_ofNat]
  simp only [hc]
  interval_cases c <;> rfl

theorem toNat_hiByte (w : Word) : (hiByte w).toNat = w.toNat / 256 := by
  have := w.isLt
  rw [hiByte, toNat_extractLsb']
  omega

theorem Fme7.parameter_registers (r : Fme7) (v : Byte) :
    let c := r.command.toNat
    let t := r.parameter v
    (∀ k (h : k < 8), t.chr[k] = if c = k then v else r.chr[k]) ∧
    (∀ k (h : k < 4), t.prg[k] = if c = 8 + k then v else r.prg[k]) ∧
    t.irqCounter.toNat = (if c = 14 then r.irqCounter.toNat / 256 * 256 + v.toNat
      else if c = 15 then v.toNat * 256 + r.irqCounter.toNat % 256 else r.irqCounter.toNat) := by
  simp only [Fme7.parameter_eq]
  refine ⟨fun k hk => ?_, fun k hk => ?_, ?_⟩
  · by_cases hc : r.command.toNat < 8
    · simp only [if_pos hc, Vector.getElem_setIfInBounds]
    · have hother : ¬r.command.toNat = k := by omega
      simp only [if_neg hc, if_neg hother]
  · by_cases hc : 8 ≤ r.command.toNat ∧ r.command.toNat < 12
    · have hindex : r.command.toNat - 8 = k ↔ r.command.toNat = 8 + k := by omega
      simp only [dif_pos hc, Vector.getElem_set, hindex]
    · have hother : ¬r.command.toNat = 8 + k := by omega
      simp only [dif_neg hc, if_neg hother]
  · split_ifs
    · rw [toNat_joinWord, toNat_hiByte]
    · rw [toNat_joinWord, toNat_loByte]
    · rfl

/-- The program bank of each slot (21_mappers.md R203). -/
theorem Fme7.prgBank_eq (r : Fme7) (prg8 : Nat) {a : Word} (ha : 0x8000 ≤ a.toNat) :
    r.prgBank prg8 a =
      if a.toNat < 0xA000 then (r.prg[1]).toNat
      else if a.toNat < 0xC000 then (r.prg[2]).toNat
      else if a.toNat < 0xE000 then (r.prg[3]).toNat
      else prg8 - 1 := by
  have hslot := prgSlot_lt a
  simp only [lt_A000_iff ha, lt_C000_iff ha, lt_E000_iff ha, Fme7.prgBank]
  generalize prgSlot a = slot at hslot ⊢
  interval_cases slot <;> rfl

/-- A pattern address has its own one of the eight character banks (21_mappers.md R204). -/
theorem Fme7.mapChr_bank (r : Fme7) (chr8 : Nat) (a : BitVec 13) :
    ∃ bank, r.chr[a.toNat / 1024]? = some bank ∧
      (Mapper.fme7 r).mapChr chr8 a = bank.toNat % (8 * max chr8 1) * 1024 + a.toNat % 1024 := by
  have hslot : a.toNat / 1024 < 8 := by
    have := a.isLt
    omega
  have hbank : r.chr.getD (a.toNat / 1024) 0 = r.chr[a.toNat / 1024] := by simp [Vector.getD, hslot]
  exact ⟨r.chr[a.toNat / 1024], Vector.getElem?_eq_getElem hslot, by rw [Mapper.mapChr, bankOffset, chrUnits, hbank]⟩

/-- The mirroring control (21_mappers.md R205). -/
theorem Mapper.fme7_mirroringType (r : Fme7) (dummy : Mirroring) :
    (Mapper.fme7 r).mirroringType dummy =
      if r.mirroring.toNat = 0 then .vertical else if r.mirroring.toNat = 1 then .horizontal
        else if r.mirroring.toNat = 2 then .singleScreenLower else .singleScreenUpper := by
  have hlt := r.mirroring.isLt
  rw [Mapper.mirroringType]
  generalize r.mirroring.toNat = mode at hlt ⊢
  interval_cases mode <;> rfl

/-- Settles O30: the counter by induction on the calls, the stores by window and command, then what they select. -/
theorem fme7IrqPeriod : Obligations.Fme7IrqPeriod := by
  refine ⟨fun r n => r.driveAnswer_eq n, fun r a v h8 => ⟨fun ha => ?_, fun hc => ?_, fun ha hc => ?_⟩,
    fun r prg16 a ha => ?_, fun r chr8 a => r.mapChr_bank chr8 a,
    fun r dummy => ⟨rfl, Mapper.fme7_mirroringType r dummy⟩⟩
  · exact congrArg Mapper.fme7 (r.store_command v h8 ha)
  · exact congrArg Mapper.fme7 (r.store_ignored v hc)
  · refine ⟨_, _, _, ?_, r.parameter_registers v⟩
    rw [Mapper.store, r.store_parameter v ha hc, Fme7.parameter_eq]
  · simp only [Mapper.map, bankOffset, r.prgBank_eq _ ha]

end Sys2Proof.Machine

namespace Sys2Proof

/-- The memory of a stretch of a list holds the list's bytes from there on. -/
theorem Memory.read_ofBytes_slice (bytes : List Byte) (start : Nat) {n k : Nat} (hk : k < n) :
    (Memory.ofBytes ((bytes.drop start).take n)).read k = bytes.getD (start + k) Memory.fill := by
  rw [Memory.read_ofBytes, List.getD_eq_getElem?_getD, List.getElem?_take_of_lt hk, List.getElem?_drop,
    List.getD_eq_getElem?_getD]

end Sys2Proof

namespace Sys2Proof.Machine

/-! ### Cartridge load -/

/-- The variant of each mapper number; the fixed numbers win over `FME7_MAPPER_ID` (21_mappers.md R145; log 12). -/
theorem Mapper.ofId_eq (fme7Id id : Byte) :
    Mapper.ofId fme7Id id =
      if id = 0 then some .nrom
      else if id = 1 then some (.mmc1 Mmc1.powerOn)
      else if id = 2 then some (.uxrom 0)
      else if id = 3 then some (.cnrom 0)
      else if id = 4 then some (.mmc3 Mmc3.powerOn)
      else if id = fme7Id then some (.fme7 Fme7.powerOn)
      else none := by
  rw [Mapper.ofId]
  split
  case h_6 h0 h1 h2 h3 h4 =>
    have hne {k : Byte} (hk : ¬id.toNat = k.toNat) : ¬id = k := fun e => hk (congrArg BitVec.toNat e)
    rw [if_neg (hne (k := 0) h0), if_neg (hne (k := 1) h1), if_neg (hne (k := 2) h2), if_neg (hne (k := 3) h3),
      if_neg (hne (k := 4) h4)]
  all_goals
    rename_i hk
    have hid : id = BitVec.ofNat 8 id.toNat := (BitVec.ofNat_toNat 8 id).symm
    rw [hk] at hid
    subst hid
    rfl

section
variable (image : List Byte)

/-- The mapper number of an image's header (21_mappers.md R142). -/
def imageNumber : Byte := mapperId (image.getD 6 0) (image.getD 7 0)

/-- Where program ROM starts in an image: after the header and the trainer (21_mappers.md R143). -/
def prgStart : Nat := if (image.getD 6 0).getLsbD 2 then 528 else 16

/-- Where character ROM starts in an image: after program ROM (21_mappers.md R143). -/
def chrStart : Nat := prgStart image + (image.getD 4 0).toNat * 16384

/-- An image the loader calls malformed: no header, a wrong magic, no program bank, or short payloads (21_mappers.md
R144). -/
def Malformed : Prop :=
  image.length < 16 ∨ image.take 4 ≠ imageMagic ∨ image.getD 4 0 = 0 ∨
    image.length < chrStart image + (image.getD 5 0).toNat * 8192

/-- The cartridge of an image that is not malformed (21_mappers.md R142, R143). -/
def imageCart : Cart where
  prg16 := (image.getD 4 0).toNat
  chr8 := (image.getD 5 0).toNat
  prg := Memory.ofBytes ((image.drop (prgStart image)).take ((image.getD 4 0).toNat * 16384))
  chr := Memory.ofBytes ((image.drop (chrStart image)).take ((image.getD 5 0).toNat * 8192))
  hint := headerHint (image.getD 6 0)

theorem prgStart_eq : (16 + if (image.getD 6 0).getLsbD 2 then 512 else 0) = prgStart image := by
  rw [prgStart]
  split_ifs <;> rfl

variable {image} (params : Params)

/-- A malformed image is an error, whatever its mapper number (21_mappers.md R144; log 14). -/
theorem loadCart_malformed (h : Malformed image) : loadCart params image = .error .malformedHeader := by
  simp only [loadCart]
  rw [prgStart_eq]
  split_ifs with hheader hmagic hbanks hpayload
  case neg =>
    rcases h with h | h | h | h
    · exact absurd h hheader
    · exact absurd h hmagic
    · exact absurd (congrArg BitVec.toNat h) hbanks
    · exact absurd h hpayload
  all_goals rfl

section
variable (h : ¬Malformed image)
include h

/-- A loader that finds nothing malformed goes by the variant of the header's number. -/
theorem loadCart_of_not_malformed :
    loadCart params image = (Mapper.ofId params.fme7MapperId (imageNumber image)).elim
      (.error (.unsupportedMapper (imageNumber image))) fun m => .ok (imageCart image, m) := by
  simp only [Malformed, not_or, ne_eq, not_not] at h
  obtain ⟨hheader, hmagic, hbanks, hpayload⟩ := h
  have hbanks' : ¬(image.getD 4 0).toNat = 0 := fun e => hbanks (BitVec.eq_of_toNat_eq e)
  simp only [loadCart, imageNumber]
  rw [if_neg hheader, if_neg (not_not.2 hmagic), if_neg hbanks', prgStart_eq]
  refine (if_neg hpayload).trans ?_
  split <;> rename_i hm <;> rw [hm] <;> rfl

/-- A number that selects no variant is an error (21_mappers.md R145). -/
theorem loadCart_unsupported (hid : Mapper.ofId params.fme7MapperId (imageNumber image) = none) :
    loadCart params image = .error (.unsupportedMapper (imageNumber image)) := by
  rw [loadCart_of_not_malformed params h, hid]
  rfl

/-- A number that selects a variant loads (21_mappers.md R145). -/
theorem loadCart_supported {m : Mapper} (hid : Mapper.ofId params.fme7MapperId (imageNumber image) = some m) :
    loadCart params image = .ok (imageCart image, m) := by
  rw [loadCart_of_not_malformed params h, hid]
  rfl

end

theorem loadCart_eq_malformed_iff : loadCart params image = .error .malformedHeader ↔ Malformed image := by
  refine ⟨fun h => ?_, loadCart_malformed params⟩
  by_contra hok
  cases hid : Mapper.ofId params.fme7MapperId (imageNumber image) with
  | none => cases (loadCart_unsupported params hok hid).symm.trans h
  | some m => cases (loadCart_supported params hok hid).symm.trans h

end

/-- Settles O33: the two equations of the load (`loadCart_malformed`, `loadCart_of_not_malformed`), the table of the mapper
numbers, and the payload byte by byte. -/
theorem cartridgeLoad : Obligations.CartridgeLoad := by
  intro params image
  dsimp only
  refine ⟨loadCart_eq_malformed_iff params, fun hok hvariant => ?_, fun m hok hvariant => ?_, fun e h => ?_,
    fun cart m h => ?_⟩
  · exact loadCart_unsupported params hok ((Mapper.ofId_eq _ _).trans hvariant)
  · have hload := loadCart_supported params hok ((Mapper.ofId_eq _ _).trans hvariant)
    exact ⟨imageCart image, hload, (loadCart_ok hload).1, rfl, rfl, rfl,
      fun k hk => Memory.read_ofBytes_slice image _ hk, fun k hk => Memory.read_ofBytes_slice image _ hk⟩
  · rw [sessionStart, h]
  · rw [sessionStart, h]

end Sys2Proof.Machine

/-! PROOFS of the encoding family (30_encoding.md): the decoder and the encoder are inverses, the counts of the opcode map,
and the effective address of every addressing mode. -/

namespace Sys2Proof

/-! ### Operand bytes -/

theorem Operand.bytes_length (o : Operand) : o.bytes.length = o.mode.width := by cases o <;> rfl

/-- An operand is its mode together with its bytes (30_encoding.md R241). -/
theorem Operand.ofBytes_bytes (o : Operand) : o.mode.operand (o.bytes.getD 0 0) (o.bytes.getD 1 0) = o := by
  cases o with
  | abs w | absX w | absY w | ind w => exact congrArg _ (Machine.joinWord_bytes w)
  | _ => rfl

/-- An operand has the bytes it is made from, as many as its mode is wide. Relative has no operand form: a branch holds its
offset byte itself. -/
theorem Mode.operand_bytes {m : Mode} (h : m ≠ .relative) (b1 b2 : Byte) :
    (m.operand b1 b2).bytes = [b1, b2].take m.width := by
  cases m with
  | relative => exact absurd rfl h
  | absolute | absoluteX | absoluteY | indirect => simp [Mode.operand, Operand.bytes, Mode.width]
  | _ => rfl

/-! ### Assembling -/

section
variable {i : Instr} {op : Op} (hkind : op.kind = i.kind) (hmode : op.mode = i.mode)
include hkind hmode

/-- An instruction has as many operand bytes as its kind and mode ask for (30_encoding.md R243). -/
theorem Instr.operandBytes_length : i.operandBytes.length = op.operandLength := by
  rw [Op.operandLength, hkind, hmode]
  cases i <;> simp [Instr.kind, Instr.mode, Instr.operandBytes, Mode.width, Operand.bytes_length]

/-- Assembling an instruction's own kind, mode, opcode byte and operand bytes gives it back. -/
theorem Instr.assemble_operandBytes {b : Byte} (hb : i.opcode = some b) :
    op.assemble b (i.operandBytes.getD 0 0) (i.operandBytes.getD 1 0) = i := by
  rw [Op.assemble, hkind, hmode]
  cases i with
  | jsr w => exact congrArg _ (Machine.joinWord_bytes w)
  | invalid c => exact congrArg _ (Option.some.inj hb).symm
  | _ => simp only [Instr.kind, Instr.mode, Instr.operandBytes, Operand.ofBytes_bytes, List.getD_cons_zero]

end

/-- What an Operation assembles has the operand bytes it was assembled from. -/
theorem Op.assemble_operandBytes {op : Op} (hmode : op.mode ∈ op.kind.modes) (opcode b1 b2 : Byte) :
    (op.assemble opcode b1 b2).operandBytes = [b1, b2].take op.operandLength := by
  obtain ⟨kind, mode, cycles⟩ := op
  cases kind with
  | adc | and | asl | bit | cmp | cpx | cpy | dec | eor | inc | jmp | lda | ldx | ldy | lsr | ora | rol | ror | sbc | sta
  | stx | sty => exact Mode.operand_bytes (by rintro rfl; simp [Kind.modes] at hmode) b1 b2
  | _ =>
    obtain rfl := List.mem_singleton.1 hmode
    simp [Op.assemble, Instr.operandBytes, Op.operandLength, Mode.width]

/-! ### Opcode bytes -/

/-- The "Encoding" lines give back the byte of every documented slot of the map. -/
theorem decodeOp_opcode (b : Byte) :
    (decodeOp b).kind ≠ .invalid → (decodeOp b).kind.opcode (decodeOp b).mode = some b := by
  revert b; decide +kernel

theorem Instr.opcode_of_documented {i : Instr} (h : i.kind ≠ .invalid) : i.opcode = i.kind.opcode i.mode := by
  cases i with
  | invalid b => exact absurd rfl h
  | _ => rfl

/-- A well-formed instruction has an opcode byte, whose slot holds its kind and mode. -/
theorem Instr.opcode_slot {i : Instr} (hwf : i.wf = true) :
    ∃ b, i.opcode = some b ∧ (decodeOp b).kind = i.kind ∧ (decodeOp b).mode = i.mode := by
  by_cases hkind : i.kind = .invalid
  · cases i with
    | invalid b => exact Laws.OpcodeTable.invalid b hwf
    | _ => cases hkind
  · exact Laws.OpcodeTable.documented hkind (Instr.opcode_of_documented hkind) hwf

/-- The opcode byte of what the decoder assembles is the byte it looked up. -/
theorem decodeOp_assemble_opcode (b b1 b2 : Byte) : ((decodeOp b).assemble b b1 b2).opcode = some b := by
  by_cases hkind : (decodeOp b).kind = .invalid
  · simp only [Op.assemble, hkind, Instr.opcode]
  · rw [Instr.opcode_of_documented (by rwa [Op.assemble_kind]), Op.assemble_kind,
      Op.assemble_mode (decodeOp_modes b), decodeOp_opcode b hkind]

/-! ### The round trip -/

/-- What decodes is an opcode byte and the operand bytes its slot asks for (30_encoding.md R240, R243). -/
theorem decode_eq_ok_iff {bytes rest : List Byte} {i : Instr} : decode bytes = .ok (i, rest) ↔
    ∃ b operands, bytes = b :: (operands ++ rest) ∧ operands.length = (decodeOp b).operandLength ∧
      (decodeOp b).assemble b (operands.getD 0 0) (operands.getD 1 0) = i := by
  constructor
  · intro h
    unfold decode at h
    dsimp only at h
    split at h
    · cases h
    · rename_i b tail
      split at h <;> cases h
      · exact ⟨b, [], rfl, by simp [*], rfl⟩
      · exact ⟨b, [_], rfl, by simp [*], rfl⟩
      · exact ⟨b, [_, _], rfl, by simp [*], rfl⟩
  · rintro ⟨b, operands, rfl, hlength, rfl⟩
    match operands, hlength with
    | [], h | [_], h | [_, _], h => simp [decode, ← h]
    | _ :: _ :: _ :: _, h => exact absurd (h ▸ decodeOp_length_le b) (by simp)

/-- Settles O2: an instruction's opcode byte has a slot of its kind and mode (`Instr.opcode_slot`), which assembles it from
its operand bytes. -/
theorem decodeAfterEncode : Obligations.DecodeAfterEncode := by
  intro i rest hwf
  obtain ⟨b, hb, hkind, hmode⟩ := Instr.opcode_slot hwf
  have hencode : encode i = b :: i.operandBytes := by simp only [encode, hb]
  exact decode_eq_ok_iff.2 ⟨b, i.operandBytes, by rw [hencode, List.cons_append],
    Instr.operandBytes_length hkind hmode, Instr.assemble_operandBytes hkind hmode hb⟩

/-- At most two operand bytes are the first of the two the assembler takes, in which a missing one is 0. -/
theorem take_getD_eq {operands : List Byte} (h : operands.length ≤ 2) :
    [operands.getD 0 0, operands.getD 1 0].take operands.length = operands := by
  match operands, h with
  | [], _ | [_], _ | [_, _], _ => rfl

/-- Settles O3: what the decoder assembles is well-formed, and has the opcode byte and the operand bytes it is assembled
from. -/
theorem encodeAfterDecode : Obligations.EncodeAfterDecode := by
  intro bytes i rest h
  obtain ⟨b, operands, rfl, hlength, rfl⟩ := decode_eq_ok_iff.1 h
  have hoperands := take_getD_eq (hlength.trans_le (decodeOp_length_le b))
  rw [hlength] at hoperands
  refine ⟨decodeOp_assemble_wf b _ _, ?_⟩
  simp only [encode, decodeOp_assemble_opcode, Op.assemble_operandBytes (decodeOp_modes b), hoperands, List.cons_append]

/-- Settles O4: the bytes after the opcode byte, as many as its slot asks for, are the operand bytes. -/
theorem decodeTotal : Obligations.DecodeTotal := by
  intro b b1 b2
  have hlength := decodeOp_length_le b
  have hdecode := decode_eq_ok_iff.2 ⟨b, [b1, b2].take (decodeOp b).operandLength, by rw [List.take_append_drop],
    List.length_take_of_le hlength, rfl⟩
  exact ⟨_, hdecode, Op.assemble_kind _ _ _ _, Op.assemble_mode (decodeOp_modes b) _ _ _, hlength⟩

/-! ### The opcode map -/

/-- The INVALID slots are the 105 listed bytes (30_encoding.md R262). -/
theorem decodeOp_invalid_iff (b : Byte) : (decodeOp b).kind = .invalid ↔ b ∈ undocumentedBytes :=
  ⟨fun h => List.contains_iff_mem.1 (decodeOp_invalid b h),
    fun h => (Laws.undocumented_slot b (List.contains_iff_mem.2 h)).1⟩

theorem decodeOp_eq_undocumented (b : Byte) : (decodeOp b).kind = .invalid → decodeOp b = undocumented := by
  revert b; decide +kernel

/-- Settles O5: the counts are computed from the map, and its INVALID slots are all `undocumented`. -/
theorem opcodeMapCounts : Obligations.OpcodeMapCounts := by
  refine ⟨?_, ?_, ?_, ?_, fun b => ⟨fun h => ?listed, fun h => ?undocumented⟩, decodeOp_invalid_iff, ?_⟩
  case listed => exact (decodeOp_invalid_iff b).1 (congrArg Op.kind h)
  case undocumented => exact decodeOp_eq_undocumented b ((decodeOp_invalid_iff b).2 h)
  all_goals decide +kernel

/-- Settles O1: fixed words and the cells of the map, each by computing the decoder on it. -/
theorem sampleWordsDecode : Obligations.SampleWordsDecode := by
  refine ⟨⟨rfl, rfl⟩, ⟨rfl, rfl⟩, ⟨rfl, rfl⟩, ⟨rfl, rfl⟩, ⟨rfl, rfl⟩, ⟨rfl, rfl⟩, ⟨rfl, rfl⟩, ⟨rfl, rfl⟩, ⟨rfl, rfl⟩,
    ⟨rfl, rfl⟩, ⟨rfl, rfl⟩, ⟨rfl, rfl⟩, ⟨rfl, rfl⟩, ⟨rfl, rfl⟩, ⟨rfl, rfl⟩, ?_⟩
  dsimp only
  and_intros
  all_goals decide

end Sys2Proof

namespace Sys2Proof.Machine

/-! ### Effective addresses -/

/-- An indexed address and its page-crossing test, in numbers (30_encoding.md R254, R255, R258). -/
theorem indexed_eq (base : Word) (index : Byte) : ∃ ea : Word,
    indexed base index = ⟨.mem ea, decide (ea.toNat / 256 ≠ base.toNat / 256)⟩ ∧
      ea.toNat = (base.toNat + index.toNat) % 65536 := by
  refine ⟨base + zext16 index, ?_, toNat_add_zext16 base index⟩
  simp only [indexed, page_bne, ne_comm]

/-- A pointer in the zero page is two bytes of internal RAM, the second with the wrap at 0xFF (00_scope.md R13;
20_memory.md R88). -/
theorem read16Wrap_zeroPage (z : Byte) (s : State) :
    read16Wrap (zext16 z) s = (joinWord (s.ram.read ((z.toNat + 1) % 256)) (s.ram.read z.toNat), s) := by
  have hz := z.isLt
  have hnext : nextInPage (zext16 z) = zext16 (z + 1) := by
    apply BitVec.eq_of_toNat_eq
    rw [toNat_nextInPage, toNat_zext16, toNat_zext16, BitVec.toNat_add, Nat.div_eq_of_lt hz, Nat.zero_mul, Nat.zero_add]
    rfl
  simp only [read16Wrap, hnext, load_ram (busRegion_zeroPage _), BitVec.toNat_add]
  rfl

/-- An operand that is no memory reference resolves without a pointer read. -/
theorem resolve_state_of_no_ea {o : Operand} {s : State} (h : ∀ ea, (resolve o s).1.ref ≠ .mem ea) :
    (resolve o s).2 = s := by
  cases o with
  | acc | imm v => rfl
  | _ => exact absurd rfl (h _)

/-- Settles O45: the direct modes by the arithmetic of addresses, the indexed ones by `indexed_eq`, the zero-page pointers
by `read16Wrap_zeroPage`. -/
theorem effectiveAddresses : Obligations.EffectiveAddresses := by
  refine ⟨fun s b w => ⟨rfl, rfl, ⟨_, rfl, toNat_zext16 b⟩, ⟨_, rfl, ?zpX⟩, ⟨_, rfl, ?zpY⟩, rfl, ?absX, ?absY,
    ⟨nextInPage w, toNat_nextInPage w, rfl⟩, ?indX, ?indY⟩,
    fun o s => ⟨resolve_devicesOnly o s, fun v h => ?imm, fun h => ?acc, fun ea h => ?mem⟩⟩
  case zpX | zpY => rw [toNat_zext16, BitVec.toNat_add]
  case absX | absY =>
    obtain ⟨ea, h, hea⟩ := indexed_eq w _
    exact ⟨ea, congrArg (·, s) h, hea⟩
  case indX =>
    have hptr := read16Wrap_zeroPage (b + s.x) s
    rw [BitVec.toNat_add, Nat.mod_add_mod] at hptr
    refine ⟨_, by rw [resolve, hptr], ?_⟩
    rw [toNat_joinWord, Nat.mul_comm, Nat.add_comm]
  case indY =>
    have hptr := read16Wrap_zeroPage b s
    obtain ⟨ea, h, hea⟩ := indexed_eq (read16Wrap (zext16 b) s).1 s.y
    have hbase : (read16Wrap (zext16 b) s).1.toNat =
        (s.ram.read b.toNat).toNat + 256 * (s.ram.read ((b.toNat + 1) % 256)).toNat := by
      rw [hptr, toNat_joinWord, Nat.mul_comm, Nat.add_comm]
    rw [hbase] at h hea
    exact ⟨_, ea, rfl, by rw [resolve, h, hptr], hea⟩
  case imm | acc => rw [readPlain, resolve_state_of_no_ea (by simp [h]), h, loadRef]
  case mem => rw [readPlain, h, loadRef]

end Sys2Proof.Machine

/-! PROOFS of the step family (31_step.md): when a step is refused, what it fetches and runs, how it ends, and the step on an
INVALID byte under the fault policy. -/

namespace Sys2Proof.Machine

/-! ### The start of a step -/

theorem step_unpowered {s : State} (h : s.powered = false) : step s = .refused .notPowered := by simp [step, h]

theorem step_faultSet {s : State} (hp : s.powered = true) (hf : s.fault.isSome = true) :
    step s = .refused .faultSet := by
  simp [step, hp, hf]

/-- Settles O7: both refusals come before anything else a step does. -/
theorem stepGate : Obligations.StepGate := fun _ => ⟨rfl, step_unpowered, step_faultSet⟩

/-- What the poll may change: the registers and the byte array of a handler entry, `stall`, and the interrupt flags
(60_exceptions.md R472 to R477). -/
def Polled (s t : State) : Prop :=
  t = { s with pc := t.pc, sp := t.sp, p := t.p, ram := t.ram, stall := t.stall,
               ppu := { s.ppu with nmiFlag := t.ppu.nmiFlag, irqFlag := t.ppu.irqFlag },
               apu := { s.apu with irqFlag := t.apu.irqFlag } }

theorem Polled.refl (s : State) : Polled s s := rfl

theorem Polled.trans {s t u : State} (h1 : Polled s t) (h2 : Polled t u) : Polled s u := by
  unfold Polled at *
  rw [h2, h1]

theorem serviceInterrupt_polled {vector : Word} (h1 : 0x8000 ≤ vector.toNat) (h2 : vector.toNat < 0xFFFF) (s : State) :
    Polled s (serviceInterrupt vector s) := by
  rw [serviceInterrupt, enterHandler_eq false h1 h2]
  rfl

theorem pollNmi_polled (s : State) : Polled s (pollNmi s) := by
  have hclear : Polled s (s.setPpu { s.ppu with nmiFlag := false }) := rfl
  unfold pollNmi
  split
  · exact hclear.trans (serviceInterrupt_polled (by decide) (by decide) _)
  · exact Polled.refl s

theorem pollIrq_polled (i0 : Bool) (s : State) : Polled s (pollIrq i0 s) := by
  have hclear : Polled s (clearIrqFlags s) := rfl
  unfold pollIrq
  dsimp only
  split_ifs
  · exact hclear
  · exact hclear.trans (serviceInterrupt_polled (by decide) (by decide) _)
  · exact Polled.refl s

theorem beginStep_polled (s : State) : Polled s (beginStep s) :=
  Polled.trans (t := { s with stall := 0 }) rfl ((pollNmi_polled _).trans (pollIrq_polled _ _))

/-! ### Fetch -/

/-- A bus load reads no register: `PC` may be set before it or after it. -/
theorem load_setPc (a w : Word) (s : State) : load a (s.setPc w) = ((load a s).1, (load a s).2.setPc w) := by
  unfold load
  cases busRegion a <;> rfl

theorem fetchByte_setPc (w : Word) (s : State) :
    fetchByte (s.setPc w) = ((load w s).1, (load w s).2.setPc (w + 1)) := by
  rw [fetchByte, State.setPc_pc, load_setPc]
  rfl

theorem loadBytes_length (n : Nat) (a : Word) (s : State) : (loadBytes n a s).1.length = n := by
  induction n generalizing a s with
  | zero => rfl
  | succ n ih => exact congrArg (· + 1) (ih (a + 1) (load a s).2)

theorem loadBytes_one_add (n : Nat) (a : Word) (s : State) :
    loadBytes (1 + n) a s =
      ((load a s).1 :: (loadBytes n (a + 1) (load a s).2).1, (loadBytes n (a + 1) (load a s).2).2) := by
  rw [Nat.add_comm]
  rfl

/-- The Operation of the opcode byte at `PC` (31_step.md R294). -/
def opAtPc (s : State) : Op := decodeOp (load s.pc s).1

/-- The operand bytes after the opcode byte at `PC`, and the state after the loads of all of them (30_encoding.md R240,
R243). -/
def operandLoads (s : State) : List Byte × State := loadBytes (opAtPc s).operandLength (s.pc + 1) (load s.pc s).2

/-- The instruction the bytes at `PC` assemble to. -/
def instrAtPc (s : State) : Instr :=
  (opAtPc s).assemble (load s.pc s).1 ((operandLoads s).1.getD 0 0) ((operandLoads s).1.getD 1 0)

/-- Fetching is loading the instruction's bytes in order, assembling them, and setting `PC` past them (31_step.md R292 to
R295). -/
theorem fetch_eq (s : State) :
    fetch s = (⟨opAtPc s, instrAtPc s⟩,
      (operandLoads s).2.setPc (s.pc + BitVec.ofNat 16 (1 + (opAtPc s).operandLength))) := by
  have hopcode : fetchByte s = ((load s.pc s).1, (load s.pc s).2.setPc (s.pc + 1)) := rfl
  have hle : (opAtPc s).operandLength ≤ 2 := decodeOp_length_le _
  unfold fetch instrAtPc operandLoads
  rw [hopcode]
  obtain h | h | h : (opAtPc s).operandLength = 0 ∨ (opAtPc s).operandLength = 1 ∨ (opAtPc s).operandLength = 2 := by
    omega
  all_goals
    rw [opAtPc] at h ⊢
    simp [h, fetchByte_setPc, loadBytes, BitVec.add_assoc]

/-- The bytes at `PC` decode, with none left over, to the instruction the step fetches. -/
theorem decode_atPc (s : State) : decode ((load s.pc s).1 :: (operandLoads s).1) = .ok (instrAtPc s, []) :=
  decode_eq_ok_iff.2 ⟨_, _, congrArg _ (List.append_nil _).symm, loadBytes_length _ _ _, rfl⟩

/-- Settles O6: the step's fetch is `fetch_eq`, and what it fetches is what the bytes decode to (`decode_atPc`). -/
theorem stepRunsDecoded : Obligations.StepRunsDecoded := by
  rintro s ⟨hpowered, hfault⟩
  dsimp only
  rw [loadBytes_one_add]
  refine ⟨instrAtPc (beginStep s), decode_atPc _, decodeOp_assemble_wf _ _ _, ?_⟩
  rw [step, hpowered, hfault, fetch_eq]
  rfl

/-! ### The end of a step -/

/-- Settles O8: the clock totals, the order and the frame of `ClockDevices`. -/
theorem stepEnd : Obligations.StepEnd := by
  intro baseCycles s
  obtain ⟨hppu, hapu⟩ := clockDevices_clocks (baseCycles + s.stall) s
  obtain ⟨hrest, hjoy1, hjoy2, hvariant⟩ := clockDevices_clocked (baseCycles + s.stall) s
  have hend {u : State} (h : clockDevices (baseCycles + s.stall) s = u) :
      finishStep baseCycles s = { u with stall := 0, cycles := baseCycles + s.stall } := by rw [← h]; rfl
  exact ⟨rfl, rfl, hppu, hapu, hend (clockDevices_eq _ s), hend hrest, hjoy1, hjoy2, hvariant⟩

/-! ### A step that faults -/

/-- An INVALID byte is the whole of its instruction: one load, and `PC` one past it (31_step.md R295; log 8). -/
theorem fetch_invalid {s : State} (h : (decodeOp (load s.pc s).1).kind = .invalid) :
    (fetch s).1.instr = .invalid (load s.pc s).1 ∧ (fetch s).2 = (load s.pc s).2.setPc (s.pc + 1) := by
  have hlength : (opAtPc s).operandLength = 0 := if_pos h
  rw [fetch_eq, operandLoads, hlength]
  exact ⟨by simp only [instrAtPc, opAtPc, Op.assemble, h], rfl⟩

/-- Under the fault policy an INVALID instruction faults with its byte and the address before `PC` (42_control.md R460). -/
theorem exec_invalid_fault {s : State} (h : s.params.invalidPolicy = .fault) (b : Byte) :
    exec (.invalid b) s = .fault (.invalidOpcode b (s.pc - 1)) := by
  simp only [exec, execInvalid, h]

theorem stepSession_refused {s : State} {r : Refusal} (h : step s = .refused r) : stepSession s = .refused r := by
  rw [stepSession, h]

/-- An instruction's fault is the host's step's, with the fetched state as `stepSession_faulted` has it. -/
theorem stepSession_of_exec_fault {s : State} (henabled : Enabled s) {f : Fault}
    (h : exec (fetch (beginStep s)).1.instr (fetch (beginStep s)).2 = .fault f) :
    stepSession s = .faulted f { (fetch (beginStep s)).2 with stall := 0, fault := some f } := by
  obtain ⟨hpowered, hfault⟩ := henabled
  have hstep : step s = .fault f := by simp [step, hpowered, hfault, h]
  rw [stepSession, hstep]

/-- Settles O12: the byte is the whole instruction (`fetch_invalid`), its meaning faults, and neither the poll nor the load
clocks, counts or turns the power off (`beginStep_polled`, `load_devicesOnly`). -/
theorem faultedStep : Obligations.FaultedStep := by
  intro s henabled hpolicy b r hinvalid
  have hpoll : Polled s b := beginStep_polled s
  have hload : DevicesOnly b r.2 := load_devicesOnly b.pc b
  obtain ⟨hinstr, hstate⟩ := fetch_invalid hinvalid
  have hparams : r.2.params = s.params := by rw [hload.params_eq, hpoll]
  have hpowered : r.2.powered = true := by rw [hload.powered_eq, hpoll, henabled.1]
  have hexec : exec (fetch b).1.instr (fetch b).2 = .fault (.invalidOpcode r.1 b.pc) := by
    rw [hinstr, hstate, exec_invalid_fault (by rw [State.setPc_params, hparams, hpolicy]), State.setPc_pc,
      BitVec.add_sub_cancel]
  have hsession := stepSession_of_exec_fault henabled hexec
  rw [hstate] at hsession
  refine ⟨_, hsession, rfl, ?ppu, ?apu, ?cycles, ?_⟩
  case ppu => show r.2.ppu.clocks = _; rw [hload.ppu, hpoll]
  case apu => show r.2.apu.clocks = _; rw [hload.apu, hpoll]
  case cycles => show r.2.cycles = _; rw [hload.cycles_eq, hpoll]
  exact stepSession_refused (step_faultSet hpowered rfl)

end Sys2Proof.Machine

/-! PROOFS of the load and store family (40_load_store.md): loads, stores, register transfers and stack instructions. -/

namespace Sys2Proof.Machine

/-! ### Stores -/

/-- A memory operand is written by one bus store at the resolver's address (20_memory.md R114). -/
theorem writeOperand_mem {o : Operand} {s : State} {ea : Word} (h : (resolve o s).1.ref = .mem ea) (v : Byte) :
    writeOperand o v s = store ea v (resolve o s).2 := by
  rw [writeOperand, h, storeRef]

/-- Settles O47: the write is the store at the resolver's address (`writeOperand_mem`), and what a store does is
`storeEffect`, since resolving leaves the array as it was. -/
theorem storeResults : Obligations.StoreResults := by
  intro o s ea hwf h u
  have hdevices : DevicesOnly s u := resolve_devicesOnly o s
  have hstored (v : Byte) : Stored ea v u (store ea v u) := storeEffect ea v u (hdevices.ram_eq ▸ hwf)
  have hwrite (v : Byte) : writeOperand o v s = store ea v u := writeOperand_mem h v
  exact ⟨hdevices, ⟨congrArg _ (hwrite s.a), hstored s.a⟩, ⟨congrArg _ (hwrite s.x), hstored s.x⟩,
    ⟨congrArg _ (hwrite s.y), hstored s.y⟩⟩

/-! ### Loads -/

/-- `SetNZ` changes N and Z alone (00_scope.md R15). -/
theorem putNZ_flagsBecome (p v : Byte) : FlagsBecome p (putNZ p v) (nzOf v) := by
  intro f
  rw [getFlag_putNZ]
  cases f <;> rfl

/-- The stalling read as one update of the plain read's state: the flags are those before the read, and `stall` grows by
one for a crossed page (30_encoding.md R260). -/
theorem readStalling_update (o : Operand) (s : State) :
    readStalling o s = ((readPlain o s).1, { (readPlain o s).2 with
      p := s.p, stall := s.stall + if (resolve o s).1.crossed then 1 else 0 }) := by
  have h := readPlain_devicesOnly o s
  rw [readStalling_eq, ← h.p_eq, ← h.stall_eq]
  rfl

/-- Settles O46: all three set a register and N and Z from the stalling read (`readStalling_update`). -/
theorem loadResults : Obligations.LoadResults := by
  intro o s m stall
  have hread : readStalling o s = (m.1, { m.2 with p := s.p, stall := stall }) := readStalling_update o s
  refine ⟨readPlain_devicesOnly o s, putNZ s.p m.1, putNZ_flagsBecome s.p m.1, ?lda, ?ldx, ?ldy⟩
  case lda => rw [exec, execLda, hread]; rfl
  case ldx => rw [exec, execLdx, hread]; rfl
  case ldy => rw [exec, execLdy, hread]; rfl

/-! ### Transfers -/

/-- Settles O48: each transfer is a register write and, but for TXS, `SetNZ` of the copied byte. -/
theorem transfers : Obligations.Transfers := by
  refine ⟨⟨rfl, rfl⟩, ⟨rfl, rfl⟩, ⟨rfl, rfl⟩, ⟨rfl, rfl⟩, ⟨rfl, rfl⟩, ⟨rfl, rfl⟩, fun s => ?_⟩
  exact ⟨⟨_, putNZ_flagsBecome s.p s.a, rfl, rfl⟩, ⟨_, putNZ_flagsBecome s.p s.sp, rfl⟩,
    ⟨_, putNZ_flagsBecome s.p s.x, rfl⟩, ⟨_, putNZ_flagsBecome s.p s.y, rfl⟩, rfl⟩

/-! ### Stack instructions -/

/-- The status byte PHP leaves and pushes is a BRK entry's, with B and U set (40_load_store.md R341; 60_exceptions.md
R480). -/
theorem exec_php (s : State) :
    exec .php s = .next { s with
      ram := s.ram.write (256 + s.sp.toNat) (entryStatus true s.p), sp := s.sp - 1, p := entryStatus true s.p } := by
  rw [exec, execPhp, push_eq]
  rfl

theorem entryStatus_flagsBecome (p : Byte) :
    FlagsBecome p (entryStatus true p) fun f => match f with | .b | .u => some true | _ => none := by
  intro f
  rw [entryStatus, getFlag_putFlag, getFlag_putFlag]
  cases f <;> rfl

/-- Settles O49: a push is one write and a pull one read of the array (`push_eq`, `pull_eq`), and `Memory.read_write`
says what the array holds after the write. -/
theorem stackInstructions : Obligations.StackInstructions := by
  refine ⟨⟨rfl, rfl⟩, ⟨rfl, rfl⟩, ⟨rfl, rfl⟩, ⟨rfl, rfl⟩, fun s hwf => ⟨?pha, ?php⟩, fun s => ⟨?pla, ?plp⟩⟩
  case pha => exact ⟨_, by rw [exec, execPha, push_eq], fun k => Memory.read_write hwf _ k _⟩
  case php => exact ⟨_, _, exec_php s, entryStatus_flagsBecome s.p, fun k => Memory.read_write hwf _ k _⟩
  case pla => exact ⟨_, by rw [exec, execPla, pull_eq]; rfl, putNZ_flagsBecome s.p _⟩
  case plp => rw [exec, execPlp, pull_eq]; rfl

end Sys2Proof.Machine

/-! PROOFS of the arithmetic and logic family (41_arith_logic.md): results and flags in numbers, for the kinds that read
an operand, the kinds that modify one, and the index registers. -/

namespace Sys2Proof.Machine

/-! ### Bytes in numbers -/

theorem getLsbD_seven_eq_decide (v : Byte) : v.getLsbD 7 = decide (128 ≤ v.toNat) := BitVec.msb_eq_decide v

theorem toNat_add_one (v : Byte) : (v + 1).toNat = (v.toNat + 1) % 256 := BitVec.toNat_add v 1

theorem toNat_sub_one (v : Byte) : (v - 1).toNat = (v.toNat + 255) % 256 := by
  rw [BitVec.toNat_sub, Nat.add_comm]
  rfl

theorem bitValue_le_one (b : Bool) : bitValue b ≤ 1 := by cases b <;> decide

theorem toNat_shiftLeft (v : Byte) : (shiftLeft v).toNat = v.toNat * 2 % 256 := by
  rw [shiftLeft, BitVec.toNat_shiftLeft, Nat.shiftLeft_eq]

theorem toNat_shiftRight (v : Byte) : (shiftRight v).toNat = v.toNat / 2 := by
  rw [shiftRight, BitVec.toNat_ushiftRight, Nat.shiftRight_eq_div_pow]

/-- The carry enters the bit that the left shift cleared (41_arith_logic.md R378). -/
theorem toNat_rotateLeft (c : Bool) (v : Byte) : (rotateLeft c v).toNat = v.toNat * 2 % 256 + bitValue c := by
  have hsum : v.toNat * 2 % 256 + bitValue c < 256 := by have := bitValue_le_one c; omega
  have hdisjoint : shiftLeft v &&& (if c then 0x01 else 0x00) = 0 := by
    cases c
    · exact BitVec.and_zero
    · apply BitVec.eq_of_getLsbD_eq
      intro i hi
      cases i <;> simp [shiftLeft, BitVec.getLsbD_one]
  have hcarry : (if c then 0x01 else 0x00 : Byte).toNat = bitValue c := by cases c <;> rfl
  rw [rotateLeft, ← shiftLeft, ← BitVec.add_eq_or_of_and_eq_zero _ _ hdisjoint, BitVec.toNat_add, hcarry,
    toNat_shiftLeft, Nat.mod_eq_of_lt hsum]

/-- The carry enters the bit that the right shift cleared (41_arith_logic.md R379). -/
theorem toNat_rotateRight (c : Bool) (v : Byte) : (rotateRight c v).toNat = v.toNat / 2 + 128 * bitValue c := by
  have hv : v.toNat / 2 < 2 ^ 7 := by have := v.isLt; omega
  rw [rotateRight, ← shiftRight, BitVec.toNat_or, toNat_shiftRight]
  cases c
  · exact Nat.or_zero _
  · rw [Nat.or_comm, Nat.add_comm]
    exact (Nat.two_pow_add_eq_or_of_lt hv 1).symm

/-- Masking with 0x80 tests bit 7. -/
theorem and_80_bne_zero (v : Byte) : (v &&& 0x80 != 0) = v.getLsbD 7 := by
  have hmask : v &&& 0x80 = if v.getLsbD 7 then 0x80 else 0 := BitVec.and_twoPow v 7
  rw [hmask]
  cases v.getLsbD 7 <;> rfl

theorem xor_FF_eq_not (m : Byte) : m ^^^ 0xFF = ~~~m := BitVec.xor_allOnes

theorem toNat_complement (m : Byte) : (m ^^^ 0xFF).toNat = 255 - m.toNat := by
  rw [xor_FF_eq_not, BitVec.toNat_not]

theorem toInt_complement (m : Byte) : (m ^^^ 0xFF).toInt = -m.toInt - 1 := by
  have := m.isLt
  rw [BitVec.toInt_eq_toNat_cond, BitVec.toInt_eq_toNat_cond, toNat_complement]
  split <;> split <;> omega

/-! ### The status -/

/-- `Compare(r, m)` in numbers (41_arith_logic.md R369). -/
theorem putCompare_flagsBecome (p r m : Byte) :
    FlagsBecome p (putCompare p r m) fun f => match f with
      | .c => some (decide (m.toNat ≤ r.toNat))
      | .z => some (decide (r = m))
      | .n => some (decide (128 ≤ (r.toNat + 256 - m.toNat) % 256))
      | _ => none := by
  have hdifference : (r - m).toNat = (r.toNat + 256 - m.toNat) % 256 := by
    have := m.isLt
    rw [BitVec.toNat_sub]
    omega
  intro f
  rw [getFlag_putCompare, getLsbD_seven_eq_decide, hdifference]
  cases f <;> rfl

/-- The status after a shift or rotate: the bit shifted out in C, then `SetNZ` of the result
(41_arith_logic.md R376 to R379). -/
def shiftStatus (p : Byte) (carry : Bool) (r : Byte) : Byte := putNZ (putFlag p .c carry) r

theorem shiftStatus_flagsBecome (p : Byte) (carry : Bool) (r : Byte) :
    FlagsBecome p (shiftStatus p carry r) fun f => match f with
      | .c => some carry
      | f => nzOf r f := by
  intro f
  simp only [shiftStatus, getFlag_putNZ, getFlag_putFlag]
  cases f <;> rfl

/-- The status after ADC or SBC: C and V as given, then `SetNZ` of the result (41_arith_logic.md R360, R361). -/
def sumStatus (p : Byte) (carry overflow : Bool) (r : Byte) : Byte :=
  putNZ (putFlag (putFlag p .c carry) .v overflow) r

theorem sumStatus_flagsBecome (p : Byte) (carry overflow : Bool) (r : Byte) :
    FlagsBecome p (sumStatus p carry overflow r) fun f => match f with
      | .c => some carry
      | .v => some overflow
      | f => nzOf r f := by
  intro f
  simp only [sumStatus, getFlag_putNZ, getFlag_putFlag]
  cases f <;> rfl

/-! ### Sums in integers -/

/-- A signed result fits a byte. -/
def fitsByte (n : Int) : Bool := decide (-128 ≤ n ∧ n ≤ 127)

section
variable (a m : Byte) (c : Bool)

theorem toNat_sumByte : (sumByte a m c).toNat = (a.toNat + m.toNat + bitValue c) % 256 := by
  rw [sumByte, BitVec.toNat_ofNat, wideSum]

/-- ADC's overflow test is that the signed sum leaves the byte (41_arith_logic.md R360): the sign of the result is read
off the sum, for each pair of signs of the operands. -/
theorem adcOverflow_sumByte :
    adcOverflow a m (sumByte a m c) = !fitsByte (a.toInt + m.toInt + bitValue c) := by
  have ha := a.isLt
  have hm := m.isLt
  have hc := bitValue_le_one c
  rw [adcOverflow, and_80_bne_zero, BitVec.getLsbD_and, BitVec.getLsbD_not, BitVec.getLsbD_xor, BitVec.getLsbD_xor]
  simp only [getLsbD_seven_eq_decide, toNat_sumByte, BitVec.toInt_eq_toNat_cond, fitsByte]
  by_cases hna : 128 ≤ a.toNat <;> by_cases hnm : 128 ≤ m.toNat <;> grind

theorem adcStatus_flagsBecome (p : Byte) :
    FlagsBecome p (sumStatus p (sumCarry a m c) (adcOverflow a m (sumByte a m c)) (sumByte a m c)) fun f => match f with
      | .c => some (decide (255 < a.toNat + m.toNat + bitValue c))
      | .v => some (!fitsByte (a.toInt + m.toInt + bitValue c))
      | f => nzOf (sumByte a m c) f := by
  rw [adcOverflow_sumByte]
  exact sumStatus_flagsBecome p _ _ _

/-! SBC adds the complement of the operand (41_arith_logic.md R361). -/

theorem sbcOverflow_eq_adcOverflow (r : Byte) : sbcOverflow a m r = adcOverflow a (m ^^^ 0xFF) r := by
  rw [sbcOverflow, adcOverflow, xor_FF_eq_not, BitVec.not_xor_right, BitVec.not_not]

theorem toNat_sumByte_complement :
    ((sumByte a (m ^^^ 0xFF) c).toNat : Int) = ((a.toNat : Int) - m.toNat - (1 - bitValue c)) % 256 := by
  have := m.isLt
  rw [toNat_sumByte, toNat_complement]
  omega

theorem sumCarry_complement :
    sumCarry a (m ^^^ 0xFF) c = decide (m.toNat + (1 - bitValue c) ≤ a.toNat) := by
  have := m.isLt
  have hc := bitValue_le_one c
  rw [sumCarry, wideSum, toNat_complement, decide_eq_decide]
  omega

theorem sbcOverflow_sumByte :
    sbcOverflow a m (sumByte a (m ^^^ 0xFF) c) = !fitsByte (a.toInt - m.toInt - (1 - bitValue c)) := by
  rw [sbcOverflow_eq_adcOverflow, adcOverflow_sumByte, toInt_complement]
  congr 2
  omega

theorem sbcStatus_flagsBecome (p : Byte) :
    FlagsBecome p (sumStatus p (sumCarry a (m ^^^ 0xFF) c) (sbcOverflow a m (sumByte a (m ^^^ 0xFF) c))
        (sumByte a (m ^^^ 0xFF) c)) fun f => match f with
      | .c => some (decide (m.toNat + (1 - bitValue c) ≤ a.toNat))
      | .v => some (!fitsByte (a.toInt - m.toInt - (1 - bitValue c)))
      | f => nzOf (sumByte a (m ^^^ 0xFF) c) f := by
  rw [sumCarry_complement, sbcOverflow_sumByte]
  exact sumStatus_flagsBecome p _ _ _

end

/-! ### Kinds that read an operand -/

/-- Settles O50: both are one binary sum after the stalling read (`readStalling_update`), whose result and status in
integers are `adcStatus_flagsBecome` and, for the complement, `sbcStatus_flagsBecome`. -/
theorem addSubtract : Obligations.AddSubtract := by
  intro o s m c stall fits
  have hd : DevicesOnly s m.2 := readPlain_devicesOnly o s
  have hread : readStalling o s = (m.1, { m.2 with p := s.p, stall := stall }) := readStalling_update o s
  refine ⟨hd, ?adc, ?sbc⟩
  case adc =>
    exact ⟨_, _, by rw [exec, execAdc, hread, ← hd.a_eq]; rfl, toNat_sumByte s.a m.1 (s.flag .c),
      adcStatus_flagsBecome s.a m.1 (s.flag .c) s.p⟩
  case sbc =>
    exact ⟨_, _, by rw [exec, execSbc, hread, ← hd.a_eq]; rfl, toNat_sumByte_complement s.a m.1 (s.flag .c),
      sbcStatus_flagsBecome s.a m.1 (s.flag .c) s.p⟩

/-- Settles O51: all three set `A` and N and Z from the stalling read (`readStalling_update`). -/
theorem logic : Obligations.Logic := by
  intro o s m stall
  have hd : DevicesOnly s m.2 := readPlain_devicesOnly o s
  have hread : readStalling o s = (m.1, { m.2 with p := s.p, stall := stall }) := readStalling_update o s
  refine ⟨hd, ⟨_, putNZ_flagsBecome s.p _, ?and⟩, ⟨_, putNZ_flagsBecome s.p _, ?ora⟩,
    ⟨_, putNZ_flagsBecome s.p _, ?eor⟩⟩
  case and => rw [exec, execAnd, hread, ← hd.a_eq]; rfl
  case ora => rw [exec, execOra, hread, ← hd.a_eq]; rfl
  case eor => rw [exec, execEor, hread, ← hd.a_eq]; rfl

/-- The status after BIT (41_arith_logic.md R365). -/
theorem bitStatus_flagsBecome (p : Byte) (z n v : Bool) :
    FlagsBecome p (putFlag (putFlag (putFlag p .z z) .n n) .v v) fun f => match f with
      | .z => some z
      | .n => some n
      | .v => some v
      | _ => none := by
  intro f
  simp only [getFlag_putFlag]
  cases f <;> rfl

/-- Settles O52: three flags of the plain read's state, whose `A` and flags are those before the read. -/
theorem bitTest : Obligations.BitTest := by
  intro o s m
  have hd : DevicesOnly s m.2 := readPlain_devicesOnly o s
  refine ⟨hd, _, ?_, bitStatus_flagsBecome s.p _ _ _⟩
  rw [exec, execBit, ← hd.a_eq, ← hd.p_eq]
  rfl

/-- Settles O53: the status is `Compare` of the register (`putCompare_flagsBecome`), CMP's after the stalling read. -/
theorem compares : Obligations.Compares := by
  intro o s m stall flags
  have hd : DevicesOnly s m.2 := readPlain_devicesOnly o s
  have hread : readStalling o s = (m.1, { m.2 with p := s.p, stall := stall }) := readStalling_update o s
  refine ⟨hd, ⟨_, putCompare_flagsBecome s.p s.a m.1, ?cmp⟩, ⟨_, putCompare_flagsBecome s.p s.x m.1, ?cpx⟩,
    ⟨_, putCompare_flagsBecome s.p s.y m.1, ?cpy⟩⟩
  case cmp => rw [exec, execCmp, hread, ← hd.a_eq]; rfl
  case cpx => rw [exec, execCpx, ← hd.x_eq, ← hd.p_eq]; rfl
  case cpy => rw [exec, execCpy, ← hd.y_eq, ← hd.p_eq]; rfl

/-! ### Kinds that modify an operand -/

theorem store_p (a : Word) (v : Byte) (s : State) : (store a v s).p = s.p := by rw [store_keeps]

/-- A memory operand is modified by one load and one store of the resolver's address, and the flags after both are those
before (41_arith_logic.md R380). -/
theorem modifyOperand_update {o : Operand} {s : State} {ea : Word} (h : (resolve o s).1.ref = .mem ea)
    (f : Byte → Byte) :
    let u := load ea (resolve o s).2
    modifyOperand o f s = (u.1, { store ea (f u.1) u.2 with p := s.p }) := by
  intro u
  have hd : DevicesOnly s u.2 := (resolve_devicesOnly o s).trans (load_devicesOnly ea _)
  rw [modifyOperand, h, ← hd.p_eq, ← store_p ea (f u.1) u.2]
  rfl

/-- Settles O54: each is one load and one store (`modifyOperand_update`) and a status; the results in numbers are those
of the bytes (`toNat_rotateLeft` and its like). -/
theorem memoryModify : Obligations.MemoryModify := by
  intro o s ea hwf h u v c shiftFlags post
  have hd : DevicesOnly s u.2 := (resolve_devicesOnly o s).trans (load_devicesOnly ea _)
  have hmodify (f : Byte → Byte) : modifyOperand o f s = (v, { store ea (f v) u.2 with p := s.p }) :=
    modifyOperand_update h f
  have hstored (r : Byte) : Stored ea r u.2 (store ea r u.2) := storeEffect ea r u.2 (hd.ram_eq ▸ hwf)
  refine ⟨hd, ⟨_, v + 1, toNat_add_one v, putNZ_flagsBecome s.p _, ?inc, hstored _⟩,
    ⟨_, v - 1, toNat_sub_one v, putNZ_flagsBecome s.p _, ?dec, hstored _⟩,
    ⟨_, _, toNat_shiftLeft v, shiftStatus_flagsBecome s.p _ _, ?asl, hstored _⟩,
    ⟨_, _, toNat_shiftRight v, shiftStatus_flagsBecome s.p _ _, ?lsr, hstored _⟩,
    ⟨_, _, toNat_rotateLeft (s.flag .c) v, shiftStatus_flagsBecome s.p _ _, ?rol, hstored _⟩,
    ⟨_, _, toNat_rotateRight (s.flag .c) v, shiftStatus_flagsBecome s.p _ _, ?ror, hstored _⟩⟩
  case inc => rw [exec, execInc, hmodify]; rfl
  case dec => rw [exec, execDec, hmodify]; rfl
  case asl => rw [exec, execAsl, hmodify]; rfl
  case lsr => rw [exec, execLsr, hmodify]; rfl
  case rol => rw [exec, execRol, hmodify]; rfl
  case ror => rw [exec, execRor, hmodify]; rfl

/-- Settles O55: on the accumulator a shift is a plain update of `A` and the status (`shiftStatus`). -/
theorem accumulatorShifts : Obligations.AccumulatorShifts := by
  intro s v c post
  exact ⟨⟨_, _, toNat_shiftLeft v, rfl, shiftStatus_flagsBecome s.p _ _⟩,
    ⟨_, _, toNat_shiftRight v, rfl, shiftStatus_flagsBecome s.p _ _⟩,
    ⟨_, _, toNat_rotateLeft (s.flag .c) v, rfl, shiftStatus_flagsBecome s.p _ _⟩,
    ⟨_, _, toNat_rotateRight (s.flag .c) v, rfl, shiftStatus_flagsBecome s.p _ _⟩⟩

/-! ### Index registers -/

/-- Settles O56: each is a register write and `SetNZ` of the new byte. -/
theorem indexCounts : Obligations.IndexCounts := by
  refine ⟨⟨rfl, rfl⟩, ⟨rfl, rfl⟩, ⟨rfl, rfl⟩, ⟨rfl, rfl⟩, fun s => ?_⟩
  exact ⟨⟨_, _, toNat_add_one s.x, putNZ_flagsBecome s.p _, rfl⟩,
    ⟨_, _, toNat_add_one s.y, putNZ_flagsBecome s.p _, rfl⟩,
    ⟨_, _, toNat_sub_one s.x, putNZ_flagsBecome s.p _, rfl⟩,
    ⟨_, _, toNat_sub_one s.y, putNZ_flagsBecome s.p _, rfl⟩⟩

end Sys2Proof.Machine

/-! PROOFS of the control family (42_control.md): jumps and subroutines, BRK and RTI, branches, flag instructions,
INVALID, and that nothing else can fail. -/

namespace Sys2Proof.Machine

/-! ### Jumps and subroutines -/

theorem exec_jmp_mem {o : Operand} {s : State} {ea : Word} (h : (resolve o s).1.ref = .mem ea) :
    exec (.jmp o) s = .next { (resolve o s).2 with pc := ea } := by
  rw [exec, execJmp, h]
  rfl

/-- JSR's jump, with the array of its push (42_control.md R422). -/
theorem exec_jsr (target : Word) (s : State) :
    exec (.jsr target) s = .next { s with pc := target, sp := s.sp - 2, ram := (push16 (s.pc - 1) s).ram } := by
  rw [exec, execJsr, push16_eq]
  rfl

/-- RTS in one update (42_control.md R423). -/
theorem exec_rts (s : State) :
    exec .rts s = .next { s with
      sp := s.sp + 2
      pc := joinWord (s.ram.read (256 + (s.sp + 2).toNat)) (s.ram.read (256 + (s.sp + 1).toNat)) + 1 } := by
  rw [exec, execRts, pull16_eq]
  rfl

section
variable {s : State} (hwf : s.ram.wf) (w : Word)
include hwf

theorem push16_ram_read (k : Nat) :
    (push16 w s).ram.read k =
      if k = 256 + (s.sp - 1).toNat then loByte w else if k = 256 + s.sp.toNat then hiByte w else s.ram.read k := by
  rw [push16_eq, Memory.read_write (Memory.write_wf hwf _ _), Memory.read_write hwf]

/-- The two bytes a push wrote are the pushed word (00_scope.md R14). -/
theorem joinWord_push16 :
    joinWord ((push16 w s).ram.read (256 + s.sp.toNat)) ((push16 w s).ram.read (256 + (s.sp - 1).toNat)) = w := by
  obtain ⟨hne, -, -⟩ := stack_bytes_distinct s.sp
  rw [push16_ram_read hwf, push16_ram_read hwf, if_neg (by omega), if_pos rfl, if_pos rfl, joinWord_bytes]

theorem push16_ram_read_other {k : Nat} (hhigh : k ≠ 256 + s.sp.toNat) (hlow : k ≠ 256 + (s.sp - 1).toNat) :
    (push16 w s).ram.read k = s.ram.read k := by
  rw [push16_ram_read hwf, if_neg hlow, if_neg hhigh]

end

/-- Settles O57: JMP's operand resolves first (`exec_jmp_mem`), JSR pushes the word before `PC` (`joinWord_push16`), RTS
pulls one (`exec_rts`). -/
theorem jumps : Obligations.Jumps := fun o target _ s hwf =>
  ⟨fun h => ⟨resolve_devicesOnly o s, exec_jmp_mem h⟩,
    ⟨_, exec_jsr target s, joinWord_push16 hwf _, fun _ => push16_ram_read_other hwf _⟩,
    exec_rts s⟩

/-- Settles O58: RTS pulls the word JSR pushed (`joinWord_push16`), the address before the next instruction's. -/
theorem rtsAfterJsr : Obligations.RtsAfterJsr := by
  intro target s t u hwf hjsr hsp hhigh hlow
  rw [exec_jsr] at hjsr
  cases hjsr
  have hsp0 : u.sp + 2 = s.sp := by rw [hsp]; exact BitVec.sub_add_cancel s.sp 2
  have hsp1 : u.sp + 1 = s.sp - 1 := by rw [← hsp0]; bv_omega
  rw [exec_rts, hsp0, hsp1, hhigh, hlow, joinWord_push16 hwf, BitVec.sub_add_cancel]

/-! ### BRK and RTI -/

/-- Settles O14: BRK is a handler entry past the padding byte (`enterHandler_entered`), through a vector in program
ROM. -/
theorem brkEntry : Obligations.BrkEntry :=
  ⟨⟨rfl, rfl⟩, fun s hwf => ⟨(enterHandler true irqVector (s.setPc (s.pc + 1))).addStall 0, rfl,
    enterHandler_entered true 0 hwf (by decide) (by decide)⟩⟩

theorem exec_rti (s : State) :
    exec .rti s = .next { s with
      p := s.ram.read (256 + (s.sp + 1).toNat)
      pc := joinWord (s.ram.read (256 + (s.sp + 3).toNat)) (s.ram.read (256 + (s.sp + 2).toNat))
      sp := s.sp + 3 } := by
  rw [exec, execRti, leaveHandler_eq]

/-- RTI right after a handler entry: the three pulled bytes are the three pushed (60_exceptions.md R486). -/
theorem exec_rti_of_entered {brk : Bool} {vector : Word} {extra : Nat} {s t : State}
    (h : HandlerEntered brk vector extra s t) :
    exec .rti t = .next { t with p := t.ram.read (256 + (s.sp - 2).toNat), pc := s.pc, sp := s.sp } := by
  have hsp0 : t.sp + 3 = s.sp := by rw [h.sp]; exact BitVec.sub_add_cancel s.sp 3
  have hsp1 : t.sp + 2 = s.sp - 1 := by rw [← hsp0]; bv_omega
  have hsp2 : t.sp + 1 = s.sp - 2 := by rw [← hsp0]; bv_omega
  rw [exec_rti, hsp0, hsp1, hsp2, h.pushedHigh, h.pushedLow, joinWord_bytes]

/-- Settles O15: RTI is three pulls (`exec_rti`), and after an entry they give back what it pushed
(`exec_rti_of_entered`). -/
theorem returnFromInterrupt : Obligations.ReturnFromInterrupt :=
  ⟨⟨rfl, rfl⟩, exec_rti, fun _ _ _ _ _ h => ⟨_, exec_rti_of_entered h, rfl, rfl, h.pushedStatus⟩⟩

/-! ### Branches -/

/-- The common branch operation in one update, its page test in numbers (42_control.md R445). -/
theorem branch_eq (cond : Bool) (offset : Byte) (s : State) :
    branch cond offset s = if cond then
      { s with
        pc := s.pc + sext16 offset
        stall := s.stall + 1 + if (s.pc + sext16 offset).toNat / 256 = s.pc.toNat / 256 then 0 else 1 } else s := by
  cases cond
  · rfl
  · simp only [branch, page_bne]
    by_cases hpage : (s.pc + sext16 offset).toNat / 256 = s.pc.toNat / 256
    · simp only [hpage, ne_eq, not_true, decide_false, if_true]; rfl
    · simp only [hpage, ne_eq, not_false_eq_true, decide_true, if_true, if_false]; rfl

/-- Settles O60: each branch is the common operation (`branch_eq`) under its own condition, and its target in integers is
`toNat_add_sext16`. -/
theorem branches : Obligations.Branches := by
  refine ⟨fun b => ⟨⟨rfl, rfl⟩, ⟨rfl, rfl⟩, ⟨rfl, rfl⟩, ⟨rfl, rfl⟩, ⟨rfl, rfl⟩, ⟨rfl, rfl⟩, ⟨rfl, rfl⟩, ⟨rfl, rfl⟩⟩,
    fun b s => ⟨s.pc + sext16 b, toNat_add_sext16 s.pc b, ?_⟩⟩
  intro branches
  have hbranch {i : Instr} {cond : Bool} (h : exec i s = .next (branch cond b s)) : branches i cond := by
    rw [branch_eq] at h
    exact h
  simp only [beq_true, beq_false]
  exact ⟨hbranch rfl, hbranch rfl, hbranch rfl, hbranch rfl, hbranch rfl, hbranch rfl, hbranch rfl, hbranch rfl⟩

/-! ### Flag instructions -/

theorem putFlag_flagsBecome (p : Byte) (f : Flag) (b : Bool) :
    FlagsBecome p (putFlag p f b) fun g => if g = f then some b else none := by
  intro g
  rw [getFlag_putFlag]
  dsimp only
  split <;> rfl

/-- Settles O59: each is a write of one flag (`putFlag_flagsBecome`). -/
theorem flagInstructions : Obligations.FlagInstructions := by
  refine ⟨⟨rfl, rfl⟩, ⟨rfl, rfl⟩, ⟨rfl, rfl⟩, ⟨rfl, rfl⟩, ⟨rfl, rfl⟩, ⟨rfl, rfl⟩, ⟨rfl, rfl⟩, ⟨rfl, rfl⟩, fun s => ?_⟩
  intro writes
  have hwrites {i : Instr} {f : Flag} {b : Bool} (h : exec i s = .next (s.setFlag f b)) : writes i f b :=
    ⟨_, h, putFlag_flagsBecome s.p f b⟩
  exact ⟨hwrites rfl, hwrites rfl, hwrites rfl, hwrites rfl, hwrites rfl, hwrites rfl, hwrites rfl, rfl⟩

/-! ### INVALID, and what cannot fail -/

/-- Under the no-operation policy an INVALID instruction only moves `PC` (42_control.md R460). -/
theorem exec_invalid_nopLog {s : State} (h : s.params.invalidPolicy = .nopLog) (b : Byte) :
    exec (.invalid b) s = .next { s with pc := s.pc - 1 + nopAdvance s.params.invalidNopAdvance } := by
  rw [exec, execInvalid, h]
  rfl

/-- Settles O11, policy by policy (`exec_invalid_fault`, `exec_invalid_nopLog`). -/
theorem invalidOpcode : Obligations.InvalidOpcode := fun b _ =>
  ⟨fun h => exec_invalid_fault h b, fun h => exec_invalid_nopLog h b⟩

/-- JMP completes whatever its operand resolves to. -/
theorem exec_jmp_completes (o : Operand) (s : State) : ∃ t, exec (.jmp o) s = .next t := by
  rw [exec, execJmp]
  split <;> exact ⟨_, rfl⟩

/-- Settles O10: INVALID is the one kind that chooses whether to complete; JMP alone splits on its operand, and completes
in each case (`exec_jmp_completes`). -/
theorem onlyInvalidFails : Obligations.OnlyInvalidFails := by
  intro i s hkind
  cases i with
  | invalid b => exact absurd rfl hkind
  | jmp o => exact exec_jmp_completes o s
  | _ => exact ⟨_, rfl⟩

end Sys2Proof.Machine

/-! PROOFS of the exceptions family (60_exceptions.md): the interrupt poll in every case. -/

namespace Sys2Proof.Machine

/-! ### Entering a handler -/

/-- NMI and IRQ enter with B clear and pay the entry's stall (60_exceptions.md R479, R482). -/
theorem serviceInterrupt_entered {vector : Word} {s : State} (hwf : s.ram.wf) (h1 : 0x8000 ≤ vector.toNat)
    (h2 : vector.toNat < 0xFFFF) :
    HandlerEntered false vector s.params.intEntryCycles s (serviceInterrupt vector s) :=
  enterHandler_entered false _ hwf h1 h2

theorem serviceInterrupt_ram_wf {vector : Word} {s : State} (hwf : s.ram.wf) (h1 : 0x8000 ≤ vector.toNat)
    (h2 : vector.toNat < 0xFFFF) : (serviceInterrupt vector s).ram.wf := by
  rw [serviceInterrupt, enterHandler_eq false h1 h2]
  exact Memory.write_wf (Memory.write_wf (Memory.write_wf hwf _ _) _ _) _ _

section
variable {brk : Bool} {vector : Word} {extra : Nat} {s t : State} (h : HandlerEntered brk vector extra s t)
include h

theorem HandlerEntered.params_eq : t.params = s.params := by rw [h.rest]

theorem HandlerEntered.ppu_eq : t.ppu = s.ppu := by rw [h.rest]

theorem HandlerEntered.apu_eq : t.apu = s.apu := by rw [h.rest]

theorem HandlerEntered.flag_i : t.flag .i = true := h.status .i

/-- An entry neither reads nor writes the IRQ flags, so it may as well come after their clearing. -/
theorem HandlerEntered.clearIrqFlags :
    HandlerEntered brk vector extra (clearIrqFlags s) (clearIrqFlags t) :=
  { pc := h.pc, sp := h.sp, status := h.status, pushedHigh := h.pushedHigh, pushedLow := h.pushedLow,
    pushedStatus := h.pushedStatus, otherRam := h.otherRam, stall := h.stall,
    rest := congrArg Machine.clearIrqFlags h.rest }

end

/-! ### The two parts of the poll -/

theorem pollNmi_idle {s : State} (h : s.ppu.nmiFlag = false) : pollNmi s = s := by
  rw [pollNmi, if_neg (by simp [h])]

/-- A pending NMI is cleared, then entered, whatever `P.I` holds (60_exceptions.md R472). -/
theorem pollNmi_pending {s : State} (h : s.ppu.nmiFlag = true) :
    pollNmi s = serviceInterrupt nmiVector (s.setPpu { s.ppu with nmiFlag := false }) := by
  rw [pollNmi, if_pos h]

/-- Whether the poll discards a pending IRQ: the interrupt-disable flag at the moment `IRQ_MASK_SAMPLE` says
(60_exceptions.md R474). -/
def irqMasked (i0 : Bool) (s : State) : Bool :=
  match s.params.irqMaskSample with
  | .stepStart => i0
  | .afterNmi => s.flag .i

/-- Without an NMI entry both samples are `P.I`. -/
theorem irqMasked_flag (s : State) : irqMasked (s.flag .i) s = s.flag .i := by
  unfold irqMasked; split <;> rfl

/-- With I set, as an entry leaves it, only the sample of the step's start lets an IRQ through. -/
theorem irqMasked_eq_false_iff {s : State} (h : s.flag .i = true) (i0 : Bool) :
    irqMasked i0 s = false ↔ s.params.irqMaskSample = .stepStart ∧ i0 = false := by
  unfold irqMasked; split <;> simp [*]

section
variable {s : State}

theorem pollIrq_idle (h : (s.ppu.irqFlag || s.apu.irqFlag) = false) (i0 : Bool) : pollIrq i0 s = s := by
  rw [pollIrq, if_neg (by simp [h])]

variable (h : (s.ppu.irqFlag || s.apu.irqFlag) = true) {i0 : Bool}
include h

theorem pollIrq_pending : pollIrq i0 s =
    if irqMasked i0 s then clearIrqFlags s else serviceInterrupt irqVector (clearIrqFlags s) := by
  rw [pollIrq, if_pos h]
  rfl

theorem pollIrq_masked (hmask : irqMasked i0 s = true) : pollIrq i0 s = clearIrqFlags s := by
  rw [pollIrq_pending h, if_pos hmask]

theorem pollIrq_taken (hmask : irqMasked i0 s = false) (hwf : s.ram.wf) :
    HandlerEntered false irqVector s.params.intEntryCycles (clearIrqFlags s) (pollIrq i0 s) := by
  rw [pollIrq_pending h, if_neg (by simp [hmask])]
  exact serviceInterrupt_entered (s := clearIrqFlags s) hwf (by decide) (by decide)

end

/-! ### The poll -/

section
variable {s : State}

theorem interruptPoll_noNmi (h : s.ppu.nmiFlag = false) : interruptPoll s = pollIrq (s.flag .i) s :=
  congrArg (pollIrq (s.flag .i)) (pollNmi_idle h)

/-- With an NMI pending, the IRQ part runs on the state `u` the NMI entry leaves. -/
theorem interruptPoll_nmi (hwf : s.ram.wf) (h : s.ppu.nmiFlag = true) :
    ∃ u, interruptPoll s = pollIrq (s.flag .i) u ∧ u.ram.wf ∧
      HandlerEntered false nmiVector s.params.intEntryCycles (s.setPpu { s.ppu with nmiFlag := false }) u :=
  let noNmi := s.setPpu { s.ppu with nmiFlag := false }
  have hwf' : noNmi.ram.wf := hwf
  ⟨_, congrArg (pollIrq (s.flag .i)) (pollNmi_pending h), serviceInterrupt_ram_wf hwf' (by decide) (by decide),
    serviceInterrupt_entered hwf' (by decide) (by decide)⟩

end

/-- Settles O13: without an NMI the poll is its IRQ part (`interruptPoll_noNmi`), with one the IRQ part after an entry
(`interruptPoll_nmi`); the IRQ part is idle, masked or an entry (`pollIrq_idle`, `pollIrq_masked`, `pollIrq_taken`). An
NMI entry keeps the IRQ flags and sets I, which decides the sample after it (`irqMasked_eq_false_iff`). -/
theorem interruptPoll_cases : Obligations.InterruptPoll := by
  intro s hwf irq noNmi noIrq t cost
  refine ⟨fun hnmi hidle => ?_, fun hnmi hidle => ?_, fun hnmi hpend hi => ?_, fun hnmi hpend hi => ?_,
    fun hnmi hpend => ?_⟩
  · exact (interruptPoll_noNmi hnmi).trans (pollIrq_idle hidle _)
  · obtain ⟨u, hpoll, -, hentered⟩ := interruptPoll_nmi hwf hnmi
    have hidle : (u.ppu.irqFlag || u.apu.irqFlag) = false := by rw [hentered.ppu_eq, hentered.apu_eq]; exact hidle
    rw [pollIrq_idle hidle] at hpoll
    rw [show t = u from hpoll]
    exact hentered
  · exact (interruptPoll_noNmi hnmi).trans (pollIrq_masked hpend ((irqMasked_flag s).trans hi))
  · rw [show t = _ from interruptPoll_noNmi hnmi]
    exact pollIrq_taken hpend ((irqMasked_flag s).trans hi) hwf
  · obtain ⟨u, hpoll, hwfu, hentered⟩ := interruptPoll_nmi hwf hnmi
    have hpend : (u.ppu.irqFlag || u.apu.irqFlag) = true := by rw [hentered.ppu_eq, hentered.apu_eq]; exact hpend
    have hparams : u.params = s.params := hentered.params_eq
    have hmask := irqMasked_eq_false_iff hentered.flag_i (s.flag .i)
    rw [hparams] at hmask
    split_ifs with hboth
    · have htaken := pollIrq_taken hpend (hmask.2 hboth) hwfu
      rw [hparams, ← hpoll] at htaken
      exact ⟨u, hentered, htaken⟩
    · rw [pollIrq_masked hpend (Bool.eq_true_of_not_eq_false (mt hmask.1 hboth))] at hpoll
      rw [show t = clearIrqFlags u from hpoll]
      exact hentered.clearIrqFlags

end Sys2Proof.Machine

/-! PROOFS of the reset family (70_reset_and_hazards.md): the state power-on leaves, and the host's reset. -/

namespace Sys2Proof.Machine

/-- The status byte power-on sets, flag by flag (70_reset_and_hazards.md R521). -/
theorem powerOnStatus_flags :
    getFlag 0x34 .u = true ∧ getFlag 0x34 .b = true ∧ getFlag 0x34 .i = true ∧ getFlag 0x34 .n = false ∧
      getFlag 0x34 .v = false ∧ getFlag 0x34 .d = false ∧ getFlag 0x34 .z = false ∧ getFlag 0x34 .c = false := by
  decide

/-- Settles O31: every field but `PC` and `powered` is the one `powerOnBefore` sets (`powerOn_eq`). -/
theorem powerOn_state : Obligations.PowerOn := by
  intro params cart m s
  have hs : s = _ := powerOn_eq params cart m
  rw [hs]
  exact ⟨rfl, rfl, rfl, rfl, rfl, powerOnStatus_flags, rfl, rfl, rfl, rfl, rfl, rfl, rfl, rfl, rfl, rfl, rfl, rfl, rfl,
    rfl⟩

theorem resetSession_unpowered (ppu : Ppu) (apu : Apu) {s : State} (h : s.powered = false) :
    resetSession ppu apu s = none := by
  rw [resetSession, if_neg (by simp [h])]

/-- Settles O32: refused before power-on, one record update after it (`resetSession_eq`), whose status byte differs in I
alone (`putFlag_flagsBecome`). -/
theorem hostReset : Obligations.HostReset := by
  intro ppu apu s
  refine ⟨resetSession_unpowered ppu apu, fun h => ⟨putFlag s.p .i true, resetSession_eq ppu apu h, fun f => ?_⟩⟩
  rw [putFlag_flagsBecome s.p .i true f]
  cases f <;> rfl

end Sys2Proof.Machine

/-! PROOFS of the host and save-state family (80_host_and_savestate.md): the save-state codec is a bijection, the version is
checked first, what a frame step runs, and a restored state steps as its source. -/

namespace Sys2Proof

/-- `n` bytes and a canonical memory below `n` are the same data. -/
theorem Memory.ofBytes_eq_iff {bytes : List Byte} {m : Memory} {n : Nat} :
    bytes.length = n ∧ Memory.ofBytes bytes = m ↔ (m.wf ∧ m.below n) ∧ bytes = m.toBytes n := by
  constructor
  · rintro ⟨rfl, rfl⟩
    exact ⟨⟨Memory.ofBytes_wf bytes, Memory.ofBytes_below bytes⟩, (Memory.toBytes_ofBytes bytes).symm⟩
  · rintro ⟨⟨hwf, hbelow⟩, rfl⟩
    exact ⟨Memory.length_toBytes m n, Memory.ofBytes_toBytes hwf hbelow⟩

end Sys2Proof

namespace Sys2Proof.Machine

/-! ### The parsers of single values

A parser gives a value and a rest exactly where the bytes are the value's encoding followed by the rest, and the value is
legal: both round trips in one equivalence. -/

/-- A parser sequence gives a result where its first parser does and the others do on what that leaves. `simp` takes it
top down (`↓`), so that it opens the outermost sequence first; bottom up, it would visit the inner parsers anew for each
outer one. -/
theorem parse_bind_iff {α β : Type} {x : Option (α × List Byte)} {next : α × List Byte → Option β} {b : β} :
    (x >>= next) = some b ↔ ∃ a rest, x = some (a, rest) ∧ next (a, rest) = some b := by
  rw [Option.bind_eq_bind, Option.bind_eq_some_iff, Prod.exists]

/-- A parser whose value is wrapped by `f` gives the wrapped values and the same rests. -/
theorem parse_map_iff {α β : Type} {x : Option (α × List Byte)} {f : α → β} {b : β} {rest : List Byte} :
    (x.map fun r => (f r.1, r.2)) = some (b, rest) ↔ ∃ a, x = some (a, rest) ∧ f a = b := by
  rw [Option.map_eq_some_iff, Prod.exists]
  constructor
  · rintro ⟨a, _, hx, e⟩
    cases e
    exact ⟨a, hx, rfl⟩
  · rintro ⟨a, hx, rfl⟩
    exact ⟨a, rest, hx, rfl⟩

section
variable {bs rest : List Byte}

theorem parseByte_iff {b : Byte} : parseByte bs = some (b, rest) ↔ bs = b :: rest := by
  cases bs <;> simp [parseByte]

theorem parseBytes_iff {n : Nat} {bytes : List Byte} :
    parseBytes n bs = some (bytes, rest) ↔ bytes.length = n ∧ bs = bytes ++ rest := by
  constructor
  · intro h
    simp only [parseBytes, Option.ite_none_left_eq_some, Option.some.injEq, Prod.mk.injEq] at h
    obtain ⟨hn, rfl, rfl⟩ := h
    exact ⟨by rw [List.length_take]; omega, (List.take_append_drop n bs).symm⟩
  · rintro ⟨h, rfl⟩
    exact parseBytes_append bytes rest h

theorem parseU16_iff {w : Word} : parseU16 bs = some (w, rest) ↔ bs = u16Bytes w ++ rest := by
  constructor
  · intro h
    unfold parseU16 at h
    split at h <;> cases h
    simp [u16Bytes]
  · rintro rfl
    exact parseU16_u16Bytes w rest

/-- Four bytes are what the value they make encodes to. -/
theorem u32Bytes_join (b0 b1 b2 b3 : Byte) : u32Bytes (b3 ++ b2 ++ b1 ++ b0) = [b0, b1, b2, b3] := by
  have low {n : Nat} (x : BitVec n) (b : Byte) : (x ++ b).extractLsb' 0 8 = b := BitVec.extractLsb'_append_eq_right
  have high {n k : Nat} (x : BitVec n) (b : Byte) (hk : 8 ≤ k) :
      (x ++ b).extractLsb' k 8 = x.extractLsb' (k - 8) 8 := BitVec.extractLsb'_append_eq_of_le hk
  rw [u32Bytes, low, high _ b0, low, high _ b0, high _ b1, low, high _ b0, high _ b1, high _ b2,
    BitVec.extractLsb'_eq_self] <;> decide

theorem parseU32_iff {v : BitVec 32} : parseU32 bs = some (v, rest) ↔ bs = u32Bytes v ++ rest := by
  constructor
  · intro h
    unfold parseU32 at h
    split at h <;> cases h
    rw [u32Bytes_join]; rfl
  · rintro rfl
    exact parseU32_u32Bytes v rest

theorem parseBool_iff {b : Bool} : parseBool bs = some (b, rest) ↔ bs = boolByte b :: rest := by
  constructor
  · intro h
    unfold parseBool at h
    split at h
    · split_ifs at h with h0 h1 <;> cases h
      · rw [h0]; rfl
      · rw [h1]; rfl
    · cases h
  · rintro rfl
    exact parseBool_boolByte b rest

theorem parseField_iff {w : Nat} (hw : w ≤ 8) {v : BitVec w} :
    parseField w bs = some (v, rest) ↔ bs = v.setWidth 8 :: rest := by
  constructor
  · intro h
    unfold parseField at h
    split at h
    · rename_i b _
      split_ifs at h with hb
      cases h
      rw [show (b.setWidth w).setWidth 8 = b from BitVec.eq_of_toNat_eq (by
        rw [BitVec.toNat_setWidth, BitVec.toNat_setWidth, Nat.mod_eq_of_lt hb, Nat.mod_eq_of_lt b.isLt])]
    · cases h
  · rintro rfl
    exact parseField_byte hw v rest

theorem parseAtMost_iff {n : Nat} (hn : n ≤ 255) {k : Nat} :
    parseAtMost n bs = some (k, rest) ↔ k ≤ n ∧ bs = BitVec.ofNat 8 k :: rest := by
  constructor
  · intro h
    unfold parseAtMost at h
    split at h
    · split_ifs at h with hb
      cases h
      exact ⟨hb, by simp⟩
    · cases h
  · rintro ⟨hk, rfl⟩
    exact parseAtMost_byte hn hk rest

theorem parseBlob_iff {b : List Byte} :
    parseBlob bs = some (b, rest) ↔ b.length < 2 ^ 32 ∧ bs = blobBytes b ++ rest := by
  constructor
  · intro h
    simp only [parseBlob, ↓parse_bind_iff, parseU32_iff, parseBytes_iff] at h
    obtain ⟨n, _, rfl, hn, rfl⟩ := h
    refine ⟨hn ▸ n.isLt, ?_⟩
    rw [blobBytes, hn, BitVec.ofNat_toNat, BitVec.setWidth_eq, List.append_assoc]
  · rintro ⟨h, rfl⟩
    exact parseBlob_blobBytes b rest h

theorem parseVector_iff {n : Nat} {v : Vector Byte n} :
    parseVector n bs = some (v, rest) ↔ bs = v.toList ++ rest := by
  constructor
  · intro h
    unfold parseVector at h
    split_ifs at h
    cases h
    simp
  · rintro rfl
    simp [parseVector, Vector.toArray_toList]

/-! ### The parsers of records -/

theorem parseJoypad_iff {j : Joypad} :
    parseJoypad bs = some (j, rest) ↔ j.cursor ≤ 8 ∧ bs = joypadBytes j ++ rest := by
  simp only [parseJoypad, ↓parse_bind_iff, parseByte_iff, parseBool_iff,
    parseAtMost_iff (show 8 ≤ 255 by decide), Option.some.injEq, Prod.mk.injEq]
  constructor
  · rintro ⟨_, _, rfl, _, _, ⟨hc, rfl⟩, _, _, rfl, rfl, rfl⟩
    exact ⟨hc, rfl⟩
  · rintro ⟨hc, rfl⟩
    exact ⟨_, _, rfl, _, _, ⟨hc, rfl⟩, _, _, rfl, rfl, rfl⟩

theorem parseMmc1_iff {r : Mmc1} :
    parseMmc1 bs = some (r, rest) ↔ r.count ≤ 4 ∧ bs = mapperBytes (.mmc1 r) ++ rest := by
  simp only [parseMmc1, ↓parse_bind_iff, parseField_iff (show 5 ≤ 8 by decide),
    parseAtMost_iff (show 4 ≤ 255 by decide), Option.some.injEq, Prod.mk.injEq]
  constructor
  · rintro ⟨_, _, rfl, _, _, ⟨hc, rfl⟩, _, _, rfl, _, _, rfl, _, _, rfl, _, _, rfl, rfl, rfl⟩
    exact ⟨hc, rfl⟩
  · rintro ⟨hc, rfl⟩
    exact ⟨_, _, rfl, _, _, ⟨hc, rfl⟩, _, _, rfl, _, _, rfl, _, _, rfl, _, _, rfl, rfl, rfl⟩

theorem parseMmc3_iff {r : Mmc3} : parseMmc3 bs = some (r, rest) ↔ bs = mapperBytes (.mmc3 r) ++ rest := by
  simp only [parseMmc3, ↓parse_bind_iff, parseByte_iff, parseBool_iff, parseVector_iff,
    parseField_iff (show 1 ≤ 8 by decide), Option.some.injEq, Prod.mk.injEq, mapperBytes, List.append_assoc,
    List.cons_append, List.nil_append]
  constructor
  · rintro ⟨_, _, rfl, _, _, rfl, _, _, rfl, _, _, rfl, _, _, rfl, _, _, rfl, _, _, rfl, _, _, rfl, rfl, rfl⟩
    rfl
  · rintro rfl
    exact ⟨_, _, rfl, _, _, rfl, _, _, rfl, _, _, rfl, _, _, rfl, _, _, rfl, _, _, rfl, _, _, rfl, rfl, rfl⟩

theorem parseFme7_iff {r : Fme7} : parseFme7 bs = some (r, rest) ↔ bs = mapperBytes (.fme7 r) ++ rest := by
  simp only [parseFme7, ↓parse_bind_iff, parseByte_iff, parseU16_iff, parseVector_iff,
    parseField_iff (show 4 ≤ 8 by decide), parseField_iff (show 2 ≤ 8 by decide), Option.some.injEq,
    Prod.mk.injEq, mapperBytes, List.append_assoc, List.cons_append, List.nil_append]
  constructor
  · rintro ⟨_, _, rfl, _, _, rfl, _, _, rfl, _, _, rfl, _, _, rfl, _, _, rfl, rfl, rfl⟩
    rfl
  · rintro rfl
    exact ⟨_, _, rfl, _, _, rfl, _, _, rfl, _, _, rfl, _, _, rfl, _, _, rfl, rfl, rfl⟩

/-- The number FME-7 has of its own selects its fields (21_mappers.md R145; log 12). -/
theorem parseMapper_fme7 {fme7Id : Byte} (h : 4 < fme7Id.toNat) :
    parseMapper fme7Id fme7Id bs = (parseFme7 bs).map fun r => (.fme7 r.1, r.2) := by
  unfold parseMapper
  split
  case h_6 => exact if_pos rfl
  all_goals omega

/-- The variant's fields, chosen by its tag (80_host_and_savestate.md R580 to R582). -/
theorem parseMapper_iff {params : Params} {tag : Byte} {m : Mapper} :
    parseMapper params.fme7MapperId tag bs = some (m, rest) ↔ (m.legal = true ∧ Fme7Numbered params m) ∧
      tag = mapperTag params.fme7MapperId m ∧ bs = mapperBytes m ++ rest := by
  constructor
  · intro h
    have own {n : Mapper} (hn : ∀ r, n ≠ .fme7 r) : Fme7Numbered params n := fun ⟨r, e⟩ => absurd e (hn r)
    unfold parseMapper at h
    split at h
    case h_1 htag => cases h; exact ⟨⟨rfl, own nofun⟩, BitVec.eq_of_toNat_eq htag, rfl⟩
    case h_2 htag =>
      obtain ⟨r, hr, rfl⟩ := parse_map_iff.1 h
      obtain ⟨hcount, hbytes⟩ := parseMmc1_iff.1 hr
      exact ⟨⟨decide_eq_true hcount, own nofun⟩, BitVec.eq_of_toNat_eq htag, hbytes⟩
    case h_3 htag =>
      obtain ⟨bank, hbank, rfl⟩ := parse_map_iff.1 h
      exact ⟨⟨rfl, own nofun⟩, BitVec.eq_of_toNat_eq htag, parseByte_iff.1 hbank⟩
    case h_4 htag =>
      obtain ⟨bank, hbank, rfl⟩ := parse_map_iff.1 h
      exact ⟨⟨rfl, own nofun⟩, BitVec.eq_of_toNat_eq htag, parseByte_iff.1 hbank⟩
    case h_5 htag =>
      obtain ⟨r, hr, rfl⟩ := parse_map_iff.1 h
      exact ⟨⟨rfl, own nofun⟩, BitVec.eq_of_toNat_eq htag, parseMmc3_iff.1 hr⟩
    case h_6 h0 h1 h2 h3 h4 =>
      simp only [imp_false] at h0 h1 h2 h3 h4
      have hown : 4 < tag.toNat := by omega
      split_ifs at h with htag
      obtain ⟨r, hr, rfl⟩ := parse_map_iff.1 h
      exact ⟨⟨rfl, fun _ => htag ▸ hown⟩, htag, parseFme7_iff.1 hr⟩
  · rintro ⟨⟨hlegal, hfme7⟩, rfl, rfl⟩
    cases m with
    | nrom => rfl
    | mmc1 r => exact congrArg (Option.map _) (parseMmc1_iff.2 ⟨of_decide_eq_true hlegal, rfl⟩)
    | uxrom bank => rfl
    | cnrom bank => rfl
    | mmc3 r => exact congrArg (Option.map _) (parseMmc3_iff.2 rfl)
    | fme7 r => exact (parseMapper_fme7 (hfme7 ⟨r, rfl⟩)).trans (congrArg (Option.map _) (parseFme7_iff.2 rfl))

/-- The character RAM part is 0 or 8192 bytes (80_host_and_savestate.md R582). -/
theorem parseChrRam_iff {c : Option Memory} : parseChrRam bs = some (c, rest) ↔
    (∀ m, c = some m → m.wf ∧ m.below 8192) ∧ bs = blobBytes (chrRamBytes c) ++ rest := by
  simp only [parseChrRam, ↓parse_bind_iff, parseBlob_iff]
  constructor
  · rintro ⟨bytes, _, ⟨-, rfl⟩, h⟩
    split_ifs at h with h0 h8192
    · cases h
      rw [List.length_eq_zero_iff.1 h0]
      exact ⟨nofun, rfl⟩
    · cases h
      obtain ⟨hm, hbytes⟩ := Memory.ofBytes_eq_iff.1 ⟨h8192, rfl⟩
      rw [chrRamBytes, ← hbytes]
      exact ⟨fun m e => Option.some.inj e ▸ hm, rfl⟩
  · rintro ⟨hm, rfl⟩
    cases c with
    | none => exact ⟨[], rest, ⟨by decide, rfl⟩, rfl⟩
    | some m =>
      obtain ⟨hlength, hback⟩ := Memory.ofBytes_eq_iff.2 ⟨hm m rfl, rfl⟩
      refine ⟨m.toBytes 8192, rest, ⟨by rw [hlength]; decide, rfl⟩, ?_⟩
      rw [if_neg (by omega), if_pos hlength, hback]

/-! ### The codec as a whole -/

/-- The encoding after the version (80_host_and_savestate.md R578). -/
def saveFields (fme7Id : Byte) (s : SaveState) : List Byte :=
  u16Bytes s.pc ++ ([s.sp, s.a, s.x, s.y, s.p] ++ (s.ram.toBytes 65536 ++ (joypadBytes s.joy1 ++ (joypadBytes s.joy2 ++
    (blobBytes s.ppu ++ (blobBytes s.apu ++ (mapperTag fme7Id s.mapper :: (mapperBytes s.mapper ++
      blobBytes (chrRamBytes s.chrRam)))))))))

theorem encodeSave_eq (fme7Id : Byte) (s : SaveState) :
    encodeSave fme7Id s = u32Bytes s.version ++ saveFields fme7Id s := by
  simp only [encodeSave, saveFields, List.append_assoc, List.cons_append, List.nil_append]

/-- The fields after the version, and what makes them legal (80_host_and_savestate.md R578, R582). -/
theorem parseSave_iff {params : Params} {s : SaveState} :
    parseSave params.fme7MapperId params.saveStateVersion bs = some (s, rest) ↔
      SaveOk params s ∧ bs = saveFields params.fme7MapperId s ++ rest := by
  unfold parseSave saveFields
  simp only [↓parse_bind_iff, parseByte_iff, parseU16_iff, parseBytes_iff, parseJoypad_iff, parseBlob_iff, parseMapper_iff,
    parseChrRam_iff, Option.some.injEq, Prod.mk.injEq, List.append_assoc, List.cons_append, List.nil_append]
  constructor
  · rintro ⟨pc, _, rfl, sp, _, rfl, a, _, rfl, x, _, rfl, y, _, rfl, p, _, rfl, ram, _, ⟨hram, rfl⟩,
      joy1, _, ⟨hcursor1, rfl⟩, joy2, _, ⟨hcursor2, rfl⟩, ppu, _, ⟨hppu, rfl⟩, apu, _, ⟨hapu, rfl⟩, tag, _, rfl,
      mapper, _, ⟨⟨hlegal, hfme7⟩, rfl, rfl⟩, chrRam, _, ⟨hchr, rfl⟩, rfl, rfl⟩
    obtain ⟨⟨hwf, hbelow⟩, hbytes⟩ := Memory.ofBytes_eq_iff.1 ⟨hram, rfl⟩
    refine ⟨⟨rfl, hwf, hbelow, hcursor1, hcursor2, hppu, hapu, hlegal, hfme7, hchr⟩, ?_⟩
    rw [← hbytes]
  · rintro ⟨h, rfl⟩
    obtain ⟨hlength, hback⟩ := Memory.ofBytes_eq_iff.2 ⟨⟨h.ramWf, h.ramBelow⟩, rfl⟩
    refine ⟨_, _, rfl, _, _, rfl, _, _, rfl, _, _, rfl, _, _, rfl, _, _, rfl, _, _, ⟨hlength, rfl⟩,
      _, _, ⟨h.cursor1, rfl⟩, _, _, ⟨h.cursor2, rfl⟩, _, _, ⟨h.ppuBlob, rfl⟩, _, _, ⟨h.apuBlob, rfl⟩, _, _, rfl,
      _, _, ⟨⟨h.mapperLegal, h.fme7⟩, rfl, rfl⟩, _, _, ⟨h.chrRam, rfl⟩, ?_, rfl⟩
    rw [hback, ← h.version]

end

/-- The codec is a bijection between the legal save states and the byte strings it accepts (80_host_and_savestate.md R585,
R588). -/
theorem decodeSave_eq_ok_iff {params : Params} {bytes : List Byte} {s : SaveState} :
    decodeSave params bytes = .ok s ↔ SaveOk params s ∧ bytes = encodeSave params.fme7MapperId s := by
  constructor
  · intro h
    unfold decodeSave at h
    split at h
    · cases h
    · rename_i v rest hversion
      obtain rfl := parseU32_iff.1 hversion
      split_ifs at h with hv
      split at h
      · rename_i t hparse
        cases h
        obtain rfl := not_not.1 hv
        obtain ⟨hok, rfl⟩ := parseSave_iff.1 hparse
        rw [encodeSave_eq, hok.version, List.append_nil]
        exact ⟨hok, rfl⟩
      · cases h
  · rintro ⟨hok, rfl⟩
    rw [encodeSave_eq, hok.version]
    exact decodeSave_of_parseSave (parseSave_iff.2 ⟨hok, (List.append_nil _).symm⟩)

/-- What a snapshot holds (80_host_and_savestate.md R575). -/
theorem snapshot_eq_some {dev : DeviceCodec} {s : State} {save : SaveState} (h : snapshot dev s = some save) :
    s.powered = true ∧ save =
      { version := s.params.saveStateVersion, pc := s.pc, sp := s.sp, a := s.a, x := s.x, y := s.y, p := s.p, ram := s.ram
        joy1 := s.joy1, joy2 := s.joy2, ppu := dev.ppuBlob s.ppu, apu := dev.apuBlob s.apu, mapper := s.mapper
        chrRam := s.chrRam } := by
  unfold snapshot at h
  split_ifs at h with hpowered
  exact ⟨hpowered, (Option.some.inj h).symm⟩

/-- Every snapshot of a sound state is a save state the codec can hold (80_host_and_savestate.md R575). -/
theorem snapshot_saveOk {dev : DeviceCodec} {s : State} {save : SaveState} (h : DataOk s)
    (hsave : snapshot dev s = some save) : SaveOk s.params save := by
  obtain ⟨-, rfl⟩ := snapshot_eq_some hsave
  exact ⟨rfl, h.ramWf, h.ramBelow, h.cursor1, h.cursor2, dev.ppuBlob_length s.ppu, dev.apuBlob_length s.apu, h.mapperLegal,
    h.fme7, h.chrRamOk⟩

/-- Settles O35: right to left through the codec's equivalence (`decodeSave_eq_ok_iff`), for a snapshot by
`snapshot_saveOk`. -/
theorem saveDecodeAfterEncode : Obligations.SaveDecodeAfterEncode :=
  ⟨fun _ _ hok => decodeSave_eq_ok_iff.2 ⟨hok, rfl⟩,
    fun _ _ _ hs hsave => decodeSave_eq_ok_iff.2 ⟨snapshot_saveOk hs.data hsave, rfl⟩⟩

/-- Settles O36: left to right through the codec's equivalence (`decodeSave_eq_ok_iff`). -/
theorem saveEncodeAfterDecode : Obligations.SaveEncodeAfterDecode := fun _ _ _ h =>
  (decodeSave_eq_ok_iff.1 h).2.symm

/-! ### The version -/

theorem decodeSave_of_version_ne {params : Params} {v : BitVec 32} (h : v ≠ params.saveStateVersion) (rest : List Byte) :
    decodeSave params (u32Bytes v ++ rest) = .error (.versionMismatch v) := by
  simp only [decodeSave, parseU32_u32Bytes, if_pos h]

/-- Settles O37: four bytes are the encoding of the version they make (`u32Bytes_join`), and fewer are not a version. -/
theorem versionChecked : Obligations.VersionChecked := by
  refine ⟨fun params b0 b1 b2 b3 rest hv => ?_, fun params bytes hshort => ?_, fun dev save s hp hv => ?_⟩
  · have h := decodeSave_of_version_ne hv rest
    rwa [u32Bytes_join] at h
  · have hnone : parseU32 bytes = none := by
      unfold parseU32
      split
      · simp only [List.length_cons] at hshort; omega
      · rfl
    rw [decodeSave, hnone]
  · rw [restore, if_neg (by simp [hp]), if_pos hv]

/-! ### The frame step -/

/-- The frame counter is `frame` now and after each of the next `n` completed steps. -/
def Quiet (frame n : Nat) (s : State) : Prop := ∀ k ≤ n, ∀ t, StepsIn k s t → t.ppu.frame = frame

section
variable {frame n : Nat} {s t : State}

theorem quiet_zero_iff : Quiet frame 0 s ↔ s.ppu.frame = frame := by
  constructor
  · exact fun h => h 0 le_rfl s rfl
  · rintro h k hk t ht
    obtain rfl := Nat.le_zero.1 hk
    obtain rfl : s = t := ht
    exact h

theorem quiet_succ_iff (hstep : StepsTo s t) : Quiet frame (n + 1) s ↔ s.ppu.frame = frame ∧ Quiet frame n t := by
  constructor
  · exact fun h => ⟨h 0 (Nat.zero_le _) s rfl, fun k hk u hu => h (k + 1) (Nat.succ_le_succ hk) u ⟨t, hstep, hu⟩⟩
  · rintro ⟨hs, h⟩ (_ | k) hk u hu
    · obtain rfl : s = u := hu
      exact hs
    · obtain ⟨t', hstep', hu⟩ := hu
      obtain rfl : t = t' := Host.Outcome.next.inj (hstep.symm.trans hstep')
      exact h k (Nat.le_of_succ_le_succ hk) u hu

theorem Quiet.start (h : Quiet frame n s) : s.ppu.frame = frame := h 0 (Nat.zero_le n) s rfl

theorem RunsFor.stepsIn {cycles : Nat} (h : RunsFor n cycles s t) : StepsIn n s t := by
  induction n generalizing cycles s with
  | zero => exact h.2
  | succ n ih =>
    obtain ⟨u, rest, hstep, hrun, -⟩ := h
    exact ⟨u, hstep, ih hrun⟩

theorem frameLoop_of_stepsTo (hstep : StepsTo s t) (frame fuel total : Nat) : frameLoop frame (fuel + 1) total s =
    if t.ppu.frame = frame then frameLoop frame fuel (total + t.cycles) t else .done (total + t.cycles) t := by
  rw [frameLoop, stepSession_ran.2 ⟨hstep, rfl⟩]

/-- The loop runs through quiet steps and counts their cycles. -/
theorem frameLoop_of_quiet {frame n cycles : Nat} {s u : State} (hrun : RunsFor n cycles s u) (hquiet : Quiet frame n s)
    (fuel total : Nat) : frameLoop frame (fuel + n) total s = frameLoop frame fuel (total + cycles) u := by
  induction n generalizing cycles s total with
  | zero =>
    obtain ⟨rfl, rfl⟩ := hrun
    rfl
  | succ n ih =>
    obtain ⟨t, rest, hstep, hrun, rfl⟩ := hrun
    obtain ⟨-, hquiet⟩ := (quiet_succ_iff hstep).1 hquiet
    rw [← Nat.add_assoc, frameLoop_of_stepsTo hstep, if_pos hquiet.start, ih hrun hquiet, Nat.add_assoc total]

/-- A loop that ends within its bound runs some quiet steps and answers with the step after them. -/
theorem frameLoop_last {frame fuel total : Nat} {s : State} {r : FrameResult} (h : frameLoop frame fuel total s = r)
    (hr : ∀ u, r ≠ .unfinished u) (hs : s.ppu.frame = frame) :
    ∃ n cycles u, RunsFor n cycles s u ∧ Quiet frame n s ∧ frameLoop frame 1 (total + cycles) u = r := by
  induction fuel generalizing total s with
  | zero => exact absurd h.symm (hr s)
  | succ fuel ih =>
    have now (h1 : frameLoop frame 1 total s = r) :
        ∃ n cycles u, RunsFor n cycles s u ∧ Quiet frame n s ∧ frameLoop frame 1 (total + cycles) u = r :=
      ⟨0, 0, s, ⟨rfl, rfl⟩, quiet_zero_iff.2 hs, h1⟩
    cases hstep : stepSession s with
    | ran c t =>
      obtain ⟨hto, rfl⟩ := stepSession_ran.1 hstep
      rw [frameLoop_of_stepsTo hto] at h
      split_ifs at h with hframe
      · obtain ⟨n, cycles, u, hrun, hquiet, hlast⟩ := ih h hframe
        exact ⟨n + 1, t.cycles + cycles, u, ⟨t, cycles, hto, hrun, rfl⟩, (quiet_succ_iff hto).2 ⟨hs, hquiet⟩,
          by rwa [← Nat.add_assoc]⟩
      · exact now ((frameLoop_of_stepsTo hto frame 0 total).trans ((if_neg hframe).trans h))
    | faulted f t => exact now (by rw [frameLoop, hstep] at h ⊢; exact h)
    | refused e => exact now (by rw [frameLoop, hstep] at h ⊢; exact h)

theorem frameLoop_one_done {frame total cycles : Nat} {s t : State} (h : frameLoop frame 1 total s = .done cycles t) :
    StepsTo s t ∧ cycles = total + t.cycles ∧ t.ppu.frame ≠ frame := by
  rw [frameLoop] at h
  split at h
  · rename_i c u hran
    obtain ⟨hstep, rfl⟩ := stepSession_ran.1 hran
    split_ifs at h with hframe
    · cases h
    · cases h
      exact ⟨hstep, rfl, hframe⟩
  · cases h
  · cases h

theorem frameLoop_one_faulted {frame total : Nat} {s t : State} {f : Fault} (h : frameLoop frame 1 total s = .faulted f t) :
    stepSession s = .faulted f t := by
  rw [frameLoop] at h
  split at h
  · split_ifs at h
    cases h
  · cases h; assumption
  · cases h

theorem frameLoop_of_faulted {s t : State} {f : Fault} (h : stepSession s = .faulted f t) (frame fuel total : Nat) :
    frameLoop frame (fuel + 1) total s = .faulted f t := by
  rw [frameLoop, h]

end

/-- Input leaves the frame counter. -/
theorem applyInput_frame (events : List ButtonEvent) (s : State) : (applyInput events s).ppu.frame = s.ppu.frame := by
  rw [applyInput_eq]

theorem applyInput_one_buttons (e : ButtonEvent) (s : State) {k : Nat} (hk : k < 8) :
    (applyInput [e] s).joy1.buttons.getLsbD k =
        (if e.second = false ∧ k = e.button.bit then e.held else s.joy1.buttons.getLsbD k) ∧
      (applyInput [e] s).joy2.buttons.getLsbD k =
        (if e.second = true ∧ k = e.button.bit then e.held else s.joy2.buttons.getLsbD k) := by
  obtain ⟨second, button, held⟩ := e
  cases second
  · simp [applyInput, applyButton, setButton_getLsbD _ _ _ hk]
  · simp [applyInput, applyButton, setButton_getLsbD _ _ _ hk]

theorem stepFrame_eq (fuel : Nat) (events : List ButtonEvent) (s : State) :
    stepFrame fuel events s = frameLoop s.ppu.frame fuel 0 (applyInput events s) := by
  rw [stepFrame, applyInput_frame]

/-- Settles O34: the input by `applyInput_eq` and `setButton_getLsbD`; an answer comes from the step after some quiet ones
(`frameLoop_last`), and quiet steps lead to the answer of the step after them (`frameLoop_of_quiet`). -/
theorem frameStep : Obligations.FrameStep := by
  refine ⟨applyInput_eq, fun e events s => ⟨rfl, rfl, fun k hk => applyInput_one_buttons e s hk⟩,
    fun fuel events s t total h => ?_, fun fuel events s t f h => ?_, fun fuel n cycles events s u hrun hfuel hquiet => ?_⟩
  · rw [stepFrame_eq] at h
    obtain ⟨n, cycles, u, hrun, hquiet, hlast⟩ := frameLoop_last h (fun _ => nofun) (applyInput_frame events s)
    obtain ⟨hstep, rfl, hframe⟩ := frameLoop_one_done hlast
    exact ⟨n, cycles, u, hrun, hstep, by rw [Nat.zero_add], hframe, hquiet⟩
  · rw [stepFrame_eq] at h
    obtain ⟨n, cycles, u, hrun, -, hlast⟩ := frameLoop_last h (fun _ => nofun) (applyInput_frame events s)
    exact ⟨n, u, hrun.stepsIn, frameLoop_one_faulted hlast⟩
  · obtain ⟨rest, rfl⟩ : ∃ rest, fuel = rest + 1 + n := ⟨fuel - n - 1, by omega⟩
    rw [stepFrame_eq, frameLoop_of_quiet hrun hquiet, Nat.zero_add]
    refine ⟨fun t hstep hframe => ?_, fun f t hfault => frameLoop_of_faulted hfault _ _ _⟩
    rw [frameLoop_of_stepsTo hstep, if_neg hframe]

/-! ### The step on agreeing states -/

/-- A step reads no history: agreeing states have the same fault or refusal, or agreeing next states and one cycle count
(80_host_and_savestate.md R589). -/
theorem Agree.step {K : Prop} {s t : State} (a : Agree K s t) :
    (∀ f, step s = .fault f → step t = .fault f) ∧ (∀ r, step s = .refused r → step t = .refused r) ∧
      ∀ v, step s = .next v → ∃ w, step t = .next w ∧ Agree K v w ∧ w.cycles = v.cycles := by
  have hgate : t.powered = s.powered ∧ t.fault = s.fault := by obtain ⟨h, rfl, -⟩ := a; exact ⟨rfl, rfl⟩
  obtain ⟨hfetched, hfetch⟩ := a.beginStep.fetch
  have hexec := hfetch.exec (Machine.fetch (Machine.beginStep s)).1.instr
  unfold Machine.step
  simp only [hgate.1, hgate.2, hfetched]
  split_ifs
  · exact ⟨fun _ => nofun, fun _ => id, fun _ => nofun⟩
  · exact ⟨fun _ => nofun, fun _ => id, fun _ => nofun⟩
  · generalize Machine.exec _ (Machine.fetch (Machine.beginStep s)).2 = o at hexec ⊢
    generalize Machine.exec _ (Machine.fetch (Machine.beginStep t)).2 = q at hexec ⊢
    cases o <;> cases q
    case next.next v w =>
      obtain ⟨hfinish, hcycles⟩ := Agree.finishStep hexec (Machine.fetch (Machine.beginStep s)).1.op.baseCycles
      refine ⟨fun _ => nofun, fun _ => nofun, fun v hv => ?_⟩
      cases hv
      exact ⟨_, rfl, hfinish, hcycles⟩
    case fault.fault f g =>
      cases hexec
      exact ⟨fun _ => id, fun _ => nofun, fun _ => nofun⟩
    case refused.refused r q =>
      cases hexec
      exact ⟨fun _ => nofun, fun _ => id, fun _ => nofun⟩
    all_goals exact absurd hexec id

/-! ### Restore -/

/-- A variant's tag does not depend on its registers (80_host_and_savestate.md R580). -/
theorem mapperTag_of_variant {m n : Mapper} (h : SameVariant m n = true) (fme7Id : Byte) :
    mapperTag fme7Id m = mapperTag fme7Id n := by
  unfold SameVariant at h
  split at h
  case h_7 => cases h
  all_goals rfl

/-- `t` with every component a save state holds replaced (80_host_and_savestate.md R587). -/
def State.restored (t : State) (save : SaveState) (ppu : Ppu) (apu : Apu) : State :=
  { t with
    pc := save.pc, sp := save.sp, a := save.a, x := save.x, y := save.y, p := save.p, ram := save.ram, joy1 := save.joy1
    joy2 := save.joy2, ppu := ppu, apu := apu, mapper := save.mapper, chrRam := save.chrRam, stall := 0 }

section
variable {dev : DeviceCodec} {save : SaveState} {s t : State}

theorem restore_fitting {ppu : Ppu} {apu : Apu} (hpowered : t.powered = true)
    (hversion : save.version = t.params.saveStateVersion)
    (htag : mapperTag t.params.fme7MapperId save.mapper = mapperTag t.params.fme7MapperId t.mapper)
    (hchr : save.chrRam.isSome = t.chrRam.isSome) (hppu : dev.ppuOfBlob save.ppu = some ppu)
    (hapu : dev.apuOfBlob save.apu = some apu) : restore dev save t = some (.ok (t.restored save ppu apu)) := by
  simp only [restore, hpowered, hversion, htag, hchr, hppu, hapu, ne_eq, not_true_eq_false, Bool.not_true,
    Bool.false_eq_true, if_false, State.restored]

theorem restore_misfit (hpowered : t.powered = true) (hversion : save.version = t.params.saveStateVersion)
    (h : mapperTag t.params.fme7MapperId save.mapper ≠ mapperTag t.params.fme7MapperId t.mapper ∨
      save.chrRam.isSome ≠ t.chrRam.isSome ∨ dev.ppuOfBlob save.ppu = none ∨ dev.apuOfBlob save.apu = none) :
    restore dev save t = some (.error .decodeError) := by
  rw [restore, if_neg (by simp [hpowered]), if_neg (not_not.2 hversion)]
  split_ifs with htag hchr
  · rfl
  · rfl
  · split
    · rename_i hppu hapu
      simp [htag, hchr, hppu, hapu] at h
    · rfl

theorem restore_unpowered (h : t.powered = false) : snapshot dev t = none ∧ restore dev save t = none := by
  simp [snapshot, restore, h]

/-- Devices with the source's interrupt flags in place, the restored state agrees with the source in all a step reads. -/
theorem agree_restored {ppu : Ppu} {apu : Apu} (hsave : snapshot dev s = some save) (hpowered : t.powered = true)
    (hparams : t.params = s.params) (hcart : t.cart = s.cart) (hstall : s.stall = 0) (hfault : t.fault = s.fault)
    (hinputs : t.inputs = s.inputs) (hnmi : ppu.nmiFlag = s.ppu.nmiFlag) (hirq : ppu.irqFlag = s.ppu.irqFlag)
    (hapu : apu.irqFlag = s.apu.irqFlag) {K : Prop} (hframe : K → ppu.frame = s.ppu.frame) :
    Agree K s (t.restored save ppu apu) := by
  obtain ⟨hs, rfl⟩ := snapshot_eq_some hsave
  refine ⟨⟨t.cycles, ppu.frame, ppu.clocks, ppu.events, apu.clocks, apu.events⟩, ?_, hframe⟩
  simp only [State.restored, State.withHistory, hpowered, hs, hparams, hcart, hstall, hfault, hinputs, ← hnmi, ← hirq,
    ← hapu]

end

/-- Settles O38: a snapshot fits a session of its cartridge (`restore_fitting`) and the state it gives agrees with the
source (`agree_restored`), so the next steps agree (`Agree.step`); the other two parts are `restore_misfit` and
`restore_unpowered`. -/
theorem restoreAfterSnapshot : Obligations.RestoreAfterSnapshot := by
  refine ⟨fun dev s t save hsave hpowered hparams hcart hvariant hchr => ?_, fun dev save t => restore_misfit,
    fun dev save t => restore_unpowered⟩
  obtain ⟨ppu, hppu, hnmi, hirq, hframe⟩ := dev.ppu_back s.ppu
  obtain ⟨apu, hapu, hapuIrq⟩ := dev.apu_back s.apu
  obtain ⟨-, rfl⟩ := snapshot_eq_some hsave
  refine ⟨_, restore_fitting hpowered (by rw [hparams]) (mapperTag_of_variant hvariant _) hchr.symm hppu hapu, rfl, hnmi,
    hirq, hapuIrq, hframe, fun hstall hfault hinputs => ?_⟩
  have hagree := agree_restored hsave hpowered hparams hcart hstall hfault hinputs hnmi hirq hapuIrq hframe
  obtain ⟨hfaults, hrefuses, hnext⟩ := hagree.step
  refine ⟨hfaults, hrefuses, fun v hv => ?_⟩
  obtain ⟨w, hw, hvw, hcycles⟩ := hnext v hv
  obtain ⟨hcore, hkeep⟩ := agree_iff.1 hvw
  exact ⟨w, hw, hcore, hcycles, hkeep⟩

end Sys2Proof.Machine
